-- ==== Sys2Proof/Word.lean ====
section
/-! DEFINITION. The word types of MBFC (00_scope.md R7, R8): every width the spec fixes. -/

namespace Sys2Proof

/-- A byte of a frame, a payload or a buffer; a slave id, function code or exception code (R7). -/
abbrev Byte := BitVec 8

/-- A 16-bit field: an address, a count, a value, a length or a CRC (R7). -/
abbrev Half := BitVec 16

/-- A host register, a command word or a 32-bit value (R7, R70). -/
abbrev Word := BitVec 32

end Sys2Proof
end

