-- ==== Sys2Proof/Config.lean ====
section
/-! DEFINITION. What an implementation of MBFC fixes (00_scope.md R6) and the values the spec leaves free
(10_state.md R41, 20_memory.md R50). -/

namespace Sys2Proof

/-- The three byte buffers (10_state.md R40). -/
inductive BufferId where
  | inBuf
  | outBuf
  | pduBuf
deriving DecidableEq, Repr

/-- What a decoded write-single-coil value other than 0xFF00 and 0x0000 gives (R6 `COIL_OTHER`, 44_rtu.md R131). -/
inductive CoilOther where
  | raw
  | off
deriving DecidableEq, Repr

/-- The parameters of 00_scope.md R6. A set of function codes is a list without repeats. -/
structure Params where
  /-- `BUF_BYTES`: bytes in each of IN_BUF, OUT_BUF and PDU_BUF. -/
  bufBytes : Nat
  /-- `ACK_CODE`: the exception code that stands for Acknowledge (10_state.md R32). -/
  ackCode : Byte
  /-- `SUPPORTED_FC` (10_state.md R28, R29). -/
  supportedFc : List Byte
  /-- `SPAN_CODES`, the codes GET_SPAN accepts (43_pdu.md R120). -/
  spanCodes : List Byte
  /-- `SPAN_SET_CODES`, the codes SET_SPAN accepts (43_pdu.md R121). -/
  spanSetCodes : List Byte
  /-- `BC_CODES`, the responses with a byte count at offset 2 (44_rtu.md R137). -/
  bcCodes : List Byte
  /-- `WS_CODES`, the responses of fixed 8 bytes (44_rtu.md R137). -/
  wsCodes : List Byte
  /-- `COIL_OTHER` (44_rtu.md R131). -/
  coilOther : CoilOther
deriving DecidableEq, Repr

/-- Free value: what byte `index` of a buffer holds after the `draw`-th reset, until it is written
(10_state.md R41, R46). No value of it can be proved. Log 5. -/
opaque Config.bufferDraw (draw : Nat) (b : BufferId) (index : Nat) : Byte

/-- Free value: `MBFC_BASE` in units of 16 KiB, so that the base is 16 KiB aligned (20_memory.md R50). Log 9. -/
opaque Config.baseIndex : Nat

/-- `MBFC_BASE` (20_memory.md R50). No rule depends on its value. -/
def Config.mbfcBase : Nat := 0x4000 * Config.baseIndex

end Sys2Proof
end

