-- ==== Sys2Proof/Syntax.lean ====
section
/-! DEFINITION. The instructions of MBFC: the 34 commands of 30_encoding.md R73, one constructor a row of the
opcode table. A command word carries no operand (R74), so no constructor has a field. -/

namespace Sys2Proof

/-- A command (30_encoding.md R73). -/
inductive Instr where
  -- 41_codec.md
  | encU16
  | decU16
  | encU32
  | decU32
  | encF32
  | decF32
  -- 42_checksum.md
  | crc16Calc
  | crc16Verify
  | lrc8Calc
  | lrc8Verify
  -- 43_pdu.md
  | setRaw
  | setSpan
  | setWsr
  | setWsc
  | setWmr
  | setWmc
  | setDiag
  | setMask
  | setRwm
  | setFifo
  | setRfr
  | setWfr
  | getSpan
  -- 44_rtu.md
  | rtuEncReq
  | rtuEncRsp
  | rtuDecReq
  | rtuDecRsp
  | rtuChkReq
  | rtuChkRsp
  -- 45_ascii.md
  | ascEncReq
  | ascEncRsp
  | ascDecReq
  | ascDecRsp
  | ascChk
deriving DecidableEq, Repr

end Sys2Proof
end

