-- ==== Sys2Proof/WellFormed.lean ====
section
/-! DEFINITION. Well-formedness: of a command word (30_encoding.md R70, R75) and of the parameters
(93_implementation_defined.md section 1). An `Instr` has no operand (R74), so it has no check of its own:
every command is well-formed, and a check is made on the word that stands for one. -/

namespace Sys2Proof

/-- The OPC values R75 names illegal, as closed ranges. -/
def illegalOpcodeRanges : List (Nat × Nat) :=
  [(0x00, 0x00), (0x07, 0x0F), (0x14, 0x1F), (0x2D, 0x2F), (0x36, 0x3F), (0x45, 0xFF)]

/-- RSV, bits 31:8, must be 0 (R70). -/
def reservedClear (c : Word) : Bool := c.extractLsb' 8 24 == 0

/-- OPC, bits 7:0, is in none of R75's ranges. -/
def opcodeAssigned (c : Word) : Bool :=
  illegalOpcodeRanges.all fun r =>
    !(decide (r.1 ≤ (c.extractLsb' 0 8).toNat) && decide ((c.extractLsb' 0 8).toNat ≤ r.2))

/-- A word that stands for a command (R70, R75). -/
def wfCommandWord (c : Word) : Bool := reservedClear c && opcodeAssigned c

/-- A set of codes as a list: no code twice. -/
def noRepeats (l : List Byte) : Bool := decide l.Nodup

/-- Every code of `l` is in `m`. -/
def codesWithin (l m : List Byte) : Bool := l.all m.contains

/-- The legal values of the parameters: 93_implementation_defined.md section 1, and
`SPAN_SET_CODES` ⊆ {0x01..0x04} (44_rtu.md R139). -/
def Params.wf (p : Params) : Bool :=
  decide (16 ≤ p.bufBytes) && decide (p.bufBytes ≤ 4096)
    && noRepeats p.supportedFc && decide (p.supportedFc.length = 18)
    && p.supportedFc.all (fun f => decide (1 ≤ f.toNat) && decide (f.toNat ≤ 0x7F))
    && noRepeats p.spanCodes && decide (p.spanCodes.length = 10) && codesWithin p.spanCodes p.supportedFc
    && codesWithin p.spanSetCodes p.spanCodes && codesWithin p.spanSetCodes [0x01, 0x02, 0x03, 0x04]
    && codesWithin p.bcCodes p.supportedFc && codesWithin p.wsCodes p.supportedFc

end Sys2Proof
end

