-- ==== Sys2Proof/Machine/Params.lean ====
section
/-! DEFINITION. The values 00_scope.md R6 gives the parameters "for this spec" (Log 3, Log 4). -/

namespace Sys2Proof.Machine

/-- The parameters with the values of 00_scope.md R6. -/
def defaultParams : Params where
  bufBytes := 1024
  ackCode := 0x05
  supportedFc := [0x01, 0x02, 0x03, 0x04, 0x05, 0x06, 0x07, 0x08, 0x0B, 0x0C, 0x0F, 0x10, 0x11, 0x14, 0x15,
    0x16, 0x17, 0x18]
  spanCodes := [0x01, 0x02, 0x03, 0x04, 0x05, 0x06, 0x0F, 0x10, 0x16, 0x17]
  spanSetCodes := [0x01, 0x02, 0x03, 0x04]
  bcCodes := [0x01, 0x02, 0x03, 0x04]
  wsCodes := [0x05, 0x06]
  coilOther := .raw

end Sys2Proof.Machine
end

