-- ==== Sys2Proof/Machine/State.lean ====
section
/-! DEFINITION. The state of MBFC (10_state.md), the reasons the model stops, and the state after reset. -/

namespace Sys2Proof.Machine

/-- CTRL.BO, the byte order (10_state.md R18). -/
inductive ByteOrder where
  /-- BO = 0: "high byte (or word) transmitted first". -/
  | bigEndian
  /-- BO = 1: "low first". -/
  | littleEndian
deriving DecidableEq, Repr

/-- CTRL.WO, the word order (10_state.md R19). -/
inductive WordOrder where
  /-- WO = 0. -/
  | highWordFirst
  /-- WO = 1. -/
  | lowWordFirst
deriving DecidableEq, Repr

/-- STATUS.ERR, the error of the last completed command (60_exceptions.md R157). Codes 14 and 15 are never written. -/
inductive Err where
  | none
  | illegal
  | length
  | crc
  | lrc
  | start
  | delim
  | hexOdd
  | hexChar
  | badFc
  | mismatch
  | empty
  | limit
  | overflow
deriving DecidableEq, Repr

/-- The cause of the sticky fault (60_exceptions.md R164, R165). -/
inductive FaultCause where
  | contract
  | hazard
deriving DecidableEq, Repr

/-- The engine state (10_state.md R15). FAULTED carries its cause, which STATUS.FCAUSE shows (Log 12). -/
inductive Engine where
  | idle
  | pending (c : Word)
  | faulted (cause : FaultCause)
deriving DecidableEq, Repr

/-- FIELD.FKIND, the structured view of the payload (10_state.md R42). -/
inductive FieldKind where
  | none
  | span
  | reg
  | coil
deriving DecidableEq, Repr

/-- EXC, the response exception code (10_state.md R30). -/
structure Exc where
  valid : Bool
  code : Byte
deriving DecidableEq, Repr

/-- What can happen next, from outside or by the engine's turn (10_state.md R14; Log 1). -/
inductive HostEvent where
  /-- `MemRead(offset, bytes)` (00_scope.md R10). -/
  | read (offset bytes : Nat)
  /-- `MemWrite(offset, bytes, value)` (00_scope.md R10); a byte write uses value[7:0] (Log 11). -/
  | write (offset bytes : Nat) (value : Word)
  /-- The reset input (70_reset_and_hazards.md R180; Log 13). -/
  | hardwareReset
  /-- The engine takes its step, if a command is pending (70_reset_and_hazards.md R193). -/
  | engineTurn
deriving DecidableEq, Repr

/-- The bytes of a buffer written since the last reset, by index, indices strictly rising (Log 5). -/
abbrev Memory := List Host.Cell

/-- The state of MBFC, with the model's own three fields at the end. -/
structure State where
  /-- The parameters (00_scope.md R6), which no step writes (Log 3). -/
  cfg : Params
  /-- The engine state (10_state.md R15). STATUS.BUSY, FAULT and FCAUSE are read from it. -/
  engine : Engine
  /-- CTRL.BO (R18). -/
  bo : ByteOrder
  /-- CTRL.WO (R19). -/
  wo : WordOrder
  /-- STATUS.DONE (R23). -/
  done : Bool
  /-- STATUS.OK (R24). -/
  ok : Bool
  /-- STATUS.FCK (R25). -/
  fck : Bool
  /-- STATUS.EXB (R25). -/
  exb : Bool
  /-- STATUS.ERR (R24). -/
  err : Err
  /-- SLAVE[7:0] (R27). -/
  slave : Byte
  /-- FC[7:0] (R28). -/
  fc : Byte
  /-- EXC (R30). -/
  exc : Exc
  /-- ARG0 (R35). -/
  arg0 : Word
  /-- ARG1 (R35). -/
  arg1 : Word
  /-- ARG2 (R35). -/
  arg2 : Word
  /-- ARG3 (R35). -/
  arg3 : Word
  /-- RESULT (R36). -/
  result : Word
  /-- IN_LEN[15:0] (R37). -/
  inLen : Half
  /-- OUT_LEN[15:0] (R38). -/
  outLen : Half
  /-- PDU_LEN[15:0] (R39). -/
  pduLen : Half
  /-- FIELD.FKIND (R42). -/
  fkind : FieldKind
  /-- FA[15:0] (R42). -/
  fa : Half
  /-- FB[15:0] (R42). -/
  fb : Half
  /-- IN_BUF (R40). -/
  inBuf : Memory
  /-- OUT_BUF (R40). -/
  outBuf : Memory
  /-- PDU_BUF (R40). -/
  pduBuf : Memory
  /-- Model's own: how many resets have drawn the unwritten buffer bytes (Log 5). -/
  draws : Nat
  /-- Model's own: the events to come, first first (Log 1). -/
  inputs : List HostEvent
  /-- Model's own: what the last host read returned (Log 8). -/
  rdata : Word
deriving DecidableEq, Repr

/-- Why the model stops where the spec gives MBFC no such location. -/
inductive Fault where
  /-- Raised by a host access at an offset at or above 0x4000, outside the window of 20_memory.md R50. Safe: the
  model stops where no MBFC is addressed. Log 10. -/
  | outsideWindow (offset : Nat)
deriving DecidableEq, Repr

/-- What the model refuses. -/
inductive Refusal where
  /-- Raised by `exec` for a command that has no meaning yet. Safe. No arm raises it in this model. -/
  | notModelled (mnemonic : String)
  /-- Raised by a host access to the register area that is not 32 bits wide or not 4-byte aligned: "The model
  refuses, by giving it no step" (20_memory.md R51). Safe. -/
  | registerAccessForm (offset bytes : Nat)
  /-- Raised by a host access to a buffer window that is not 8 bits wide (20_memory.md R52). Safe. -/
  | bufferAccessForm (offset bytes : Nat)
deriving DecidableEq, Repr

/-- The reset state under the parameters `p` (10_state.md R46). -/
def State.resetWith (p : Params) : State where
  cfg := p
  engine := .idle
  bo := .bigEndian
  wo := .highWordFirst
  done := false
  ok := false
  fck := false
  exb := false
  err := .none
  slave := 0
  fc := 0
  exc := ⟨false, 0⟩
  arg0 := 0
  arg1 := 0
  arg2 := 0
  arg3 := 0
  result := 0
  inLen := 0
  outLen := 0
  pduLen := 0
  fkind := .none
  fa := 0
  fb := 0
  inBuf := []
  outBuf := []
  pduBuf := []
  draws := 0
  inputs := []
  rdata := 0

/-- MBFC right after reset, with the parameter values of 00_scope.md R6 (10_state.md R46; Log 3, Log 6). -/
def State.reset : State := State.resetWith defaultParams

end Sys2Proof.Machine
end

