-- ==== Sys2Proof/Machine/Ops.lean ====
section
/-! DEFINITION. The named operations over the buffers and registers, the three endings of a command (00_scope.md R11)
and the reset (70_reset_and_hazards.md R180). -/

namespace Sys2Proof.Machine

/-- The answer of a step or a meaning. -/
abbrev Answer := Host.Outcome State Fault Refusal

/-! ### Buffers -/

/-- What was written at index `i` since the last reset, if anything. -/
def Memory.lookup : Memory → Nat → Option Byte
  | [], _ => none
  | (a, b) :: m, i => if a = i then some b else Memory.lookup m i

/-- Write one byte, keeping the indices strictly rising. -/
def Memory.store : Memory → Nat → Byte → Memory
  | [], i, v => [(i, v)]
  | (a, b) :: m, i, v =>
    if i < a then (i, v) :: (a, b) :: m
    else if i = a then (i, v) :: m
    else (a, b) :: Memory.store m i v

/-- Write bytes at index `i`, `i + 1`, … -/
def Memory.storeAll : Memory → Nat → List Byte → Memory
  | m, _, [] => m
  | m, i, b :: bs => Memory.storeAll (m.store i b) (i + 1) bs

/-- The canonical form: indices strictly rising. An unlisted index reads as no value, so no entry can equal it
(Log 5). -/
def Memory.wf : Memory → Bool
  | [] => true
  | [_] => true
  | (a, _) :: (b, v) :: m => decide (a < b) && Memory.wf ((b, v) :: m)

/-- Every listed index is below `n`. -/
def Memory.below (m : Memory) (n : Nat) : Bool := m.all fun c => decide (c.1 < n)

/-- The buffer of an id (10_state.md R40). -/
def State.buffer (s : State) : BufferId → Memory
  | .inBuf => s.inBuf
  | .outBuf => s.outBuf
  | .pduBuf => s.pduBuf

/-- Byte `i` of a buffer: what was written there, else the draw of the last reset (10_state.md R41; Log 5). -/
def State.byteAt (s : State) (b : BufferId) (i : Nat) : Byte :=
  match (s.buffer b).lookup i with
  | some v => v
  | none => Config.bufferDraw s.draws b i

/-- Bytes 0 to n - 1 of a buffer. -/
def State.bytes (s : State) (b : BufferId) (n : Nat) : List Byte :=
  (List.range n).map (s.byteAt b)

/-- `IN[0..IN_LEN)` (00_scope.md R9). -/
def State.input (s : State) : List Byte := s.bytes .inBuf s.inLen.toNat

/-- `OUT[0..OUT_LEN)`. -/
def State.output (s : State) : List Byte := s.bytes .outBuf s.outLen.toNat

/-- `PDU[0..PDU_LEN)`, the payload (10_state.md R39). -/
def State.payload (s : State) : List Byte := s.bytes .pduBuf s.pduLen.toNat

/-! ### Register writes of the commands -/

/-- `RESULT <- v` (10_state.md R36). -/
def putResult (v : Word) (s : State) : State := { s with result := v }

/-- `OUT[0..len(p)) <- p; OUT_LEN <- len(p)`, higher indices left alone (10_state.md R38, R40; Log 17). -/
def putOut (p : List Byte) (s : State) : State :=
  { s with outBuf := s.outBuf.storeAll 0 p, outLen := BitVec.ofNat 16 p.length }

/-- `PDU[0..len(p)) <- p; PDU_LEN <- len(p)`, higher indices left alone (10_state.md R39, R40; Log 17). -/
def putPayload (p : List Byte) (s : State) : State :=
  { s with pduBuf := s.pduBuf.storeAll 0 p, pduLen := BitVec.ofNat 16 p.length }

/-- `PDU_LEN <- 0`, PDU_BUF left alone (44_rtu.md R133, 10_state.md R40; Log 17). -/
def dropPayload (s : State) : State := { s with pduLen := 0 }

/-- `(FKIND, FA, FB) <- (k, a, b)` (10_state.md R42). -/
def putView (k : FieldKind) (a b : Half) (s : State) : State :=
  { s with fkind := k, fa := a, fb := b }

/-- The registers a decode sets from the two header bytes, and EXC (44_rtu.md R129, R130). -/
def putHeader (slave fc : Byte) (exb fck : Bool) (e : Exc) (s : State) : State :=
  { s with slave := slave, fc := fc, exb := exb, fck := fck, exc := e }

/-! ### The three endings of a command -/

/-- `finish OK(b)` (00_scope.md R11, 30_encoding.md R72): the engine is IDLE, DONE 1, OK b, ERR NONE. -/
def finishOk (b : Bool) (s : State) : State :=
  { s with engine := .idle, done := true, ok := b, err := .none }

/-- `raise Error(E)` (00_scope.md R11, 30_encoding.md R72), on the state before the command: nothing but STATUS
changes, and the engine is IDLE. -/
def raiseError (e : Err) (s : State) : State :=
  { s with engine := .idle, done := true, ok := false, err := e }

/-- `raise Fault(C)` (60_exceptions.md R164, R165), on the state before the command: FAULTED, BUSY 0, DONE 0,
FAULT 1, FCAUSE the cause; OK, ERR, FCK, EXB and all other state kept. -/
def raiseFault (c : FaultCause) (s : State) : State :=
  { s with engine := .faulted c, done := false }

/-! ### Reset and acceptance -/

/-- The reset of 70_reset_and_hazards.md R180 and R181, the one way out of FAULTED: every piece of state takes its
value of 10_state.md R46, and the buffer bytes are drawn afresh. What is not MBFC's (the parameters, the events to
come, the host's last answer) stays (Log 5, Log 8). -/
def applyReset (s : State) : State :=
  { State.resetWith s.cfg with draws := s.draws + 1, inputs := s.inputs, rdata := s.rdata }

/-- Acceptance of a command word in IDLE (30_encoding.md R71): PENDING(c), BUSY 1, DONE 0. -/
def acceptCommand (c : Word) (s : State) : State :=
  { s with engine := .pending c, done := false }

end Sys2Proof.Machine
end

