-- ==== Sys2Proof/Machine/Operands.lean ====
section
/-! DEFINITION. How a command reads its operands (30_encoding.md R74, 20_memory.md R57-R62) and the byte-order
codec every family uses (41_codec.md R83-R86). -/

namespace Sys2Proof.Machine

/-- A 16-bit operand, ARGn[15:0] (10_state.md R35). -/
def arg16 (a : Word) : Half := a.extractLsb' 0 16

/-- A 1-bit operand, ARGn[0] (10_state.md R35). -/
def argBit (a : Word) : Bool := a.getLsbD 0

/-- v[15:8]. -/
def highByte (v : Half) : Byte := v.extractLsb' 8 8

/-- v[7:0]. -/
def lowByte (v : Half) : Byte := v.extractLsb' 0 8

/-- `enc16` (41_codec.md R83). -/
def enc16 (v : Half) : ByteOrder → List Byte
  | .bigEndian => [highByte v, lowByte v]
  | .littleEndian => [lowByte v, highByte v]

/-- `dec16` (41_codec.md R84). -/
def dec16 (b0 b1 : Byte) : ByteOrder → Half
  | .bigEndian => (b0.setWidth 16 <<< 8) ||| b1.setWidth 16
  | .littleEndian => (b1.setWidth 16 <<< 8) ||| b0.setWidth 16

/-- `enc32` (41_codec.md R85). -/
def enc32 (v : Word) (bo : ByteOrder) : WordOrder → List Byte
  | .highWordFirst => enc16 (v.extractLsb' 16 16) bo ++ enc16 (v.extractLsb' 0 16) bo
  | .lowWordFirst => enc16 (v.extractLsb' 0 16) bo ++ enc16 (v.extractLsb' 16 16) bo

/-- `dec32` (41_codec.md R86). -/
def dec32 (b0 b1 b2 b3 : Byte) (bo : ByteOrder) : WordOrder → Word
  | .highWordFirst => ((dec16 b0 b1 bo).setWidth 32 <<< 16) ||| (dec16 b2 b3 bo).setWidth 32
  | .lowWordFirst => ((dec16 b2 b3 bo).setWidth 32 <<< 16) ||| (dec16 b0 b1 bo).setWidth 32

/-- Two 16-bit values in one RESULT, the first in bits 15:0 (43_pdu.md R120, 45_ascii.md R150). -/
def packHalves (low high : Half) : Word := low.setWidth 32 ||| (high.setWidth 32 <<< 16)

/-- Byte i of a byte sequence; a command asks only for indices inside it. -/
def byteOf (l : List Byte) (i : Nat) : Byte := l.getD i 0

/-- Element k of a 16-bit host list, low byte first whatever CTRL.BO says (20_memory.md R62). -/
def host16 (l : List Byte) (k : Nat) : Half :=
  (byteOf l (2 * k)).setWidth 16 ||| ((byteOf l (2 * k + 1)).setWidth 16 <<< 8)

/-- 16-bit values on the wire, one after the other (20_memory.md R57). -/
def encWords (bo : ByteOrder) (ws : List Half) : List Byte := ws.flatMap fun v => enc16 v bo

/-- IN_LEN > BUF_BYTES, the first check of a command that reads IN (10_state.md R37). -/
def State.inputTooLong (s : State) : Bool := decide (s.cfg.bufBytes < s.inLen.toNat)

end Sys2Proof.Machine
end

