-- ==== Sys2Proof/Machine/Flags.lean ====
section
/-! DEFINITION. STATUS (10_state.md R23) and the numbers of the named codes in it (60_exceptions.md R157), and the
other register words assembled from fields (10_state.md R18-R20, R30). -/

namespace Sys2Proof.Machine

/-- CTRL.BO as a bit (10_state.md R18). -/
def ByteOrder.bit : ByteOrder → Bool
  | .bigEndian => false
  | .littleEndian => true

/-- The byte order of a bit (10_state.md R18). -/
def byteOrderOf (b : Bool) : ByteOrder := if b then .littleEndian else .bigEndian

/-- CTRL.WO as a bit (10_state.md R19). -/
def WordOrder.bit : WordOrder → Bool
  | .highWordFirst => false
  | .lowWordFirst => true

/-- The word order of a bit (10_state.md R19). -/
def wordOrderOf (b : Bool) : WordOrder := if b then .lowWordFirst else .highWordFirst

/-- STATUS.ERR's number (60_exceptions.md R157). -/
def Err.code : Err → BitVec 4
  | .none => 0
  | .illegal => 1
  | .length => 2
  | .crc => 3
  | .lrc => 4
  | .start => 5
  | .delim => 6
  | .hexOdd => 7
  | .hexChar => 8
  | .badFc => 9
  | .mismatch => 10
  | .empty => 11
  | .limit => 12
  | .overflow => 13

/-- STATUS.BUSY: 1 exactly in PENDING (10_state.md R15). -/
def State.busy (s : State) : Bool :=
  match s.engine with
  | .pending _ => true
  | .idle => false
  | .faulted _ => false

/-- STATUS.FAULT: 1 exactly in FAULTED (10_state.md R15). -/
def State.faultBit (s : State) : Bool :=
  match s.engine with
  | .faulted _ => true
  | .idle => false
  | .pending _ => false

/-- STATUS.FCAUSE (10_state.md R23). -/
def State.fcause (s : State) : BitVec 2 :=
  match s.engine with
  | .faulted .contract => 1
  | .faulted .hazard => 2
  | .idle => 0
  | .pending _ => 0

/-- FIELD.FKIND's number (10_state.md R42). -/
def FieldKind.code : FieldKind → BitVec 2
  | .none => 0
  | .span => 1
  | .reg => 2
  | .coil => 3

/-- The STATUS word (10_state.md R23): bits 31:15, 14:13, 12, 11:8, 7:5, 4, 3, 2, 1, 0. -/
def State.statusWord (s : State) : Word :=
  (0 : BitVec 17) ++ s.fcause ++ BitVec.ofBool s.faultBit ++ s.err.code ++ (0 : BitVec 3) ++ BitVec.ofBool s.exb
    ++ BitVec.ofBool s.fck ++ BitVec.ofBool s.ok ++ BitVec.ofBool s.done ++ BitVec.ofBool s.busy

/-- The CTRL word (10_state.md R18-R20): SRST and bits 30:2 read 0. -/
def State.ctrlWord (s : State) : Word :=
  (0 : BitVec 30) ++ BitVec.ofBool s.wo.bit ++ BitVec.ofBool s.bo.bit

/-- The EXC word (10_state.md R30). -/
def Exc.word (e : Exc) : Word := (0 : BitVec 23) ++ BitVec.ofBool e.valid ++ e.code

/-- EXC from a written word (10_state.md R30). -/
def excOf (v : Word) : Exc := ⟨v.getLsbD 8, v.extractLsb' 0 8⟩

/-- The function code is one of `SUPPORTED_FC`: STATUS.FCK of a decode (10_state.md R25), and the encoders'
precondition (44_rtu.md R125). -/
def knownCode (p : Params) (f : Byte) : Bool := p.supportedFc.contains f

/-- Bit 7 of a received function code, the exception bit (44_rtu.md R129). -/
def exceptionBit (f : Byte) : Bool := f.getLsbD 7

/-- f[6:0] (44_rtu.md R129). -/
def code7 (f : Byte) : Byte := f &&& 0x7F

/-- EXC holds a real exception: VALID = 1 and CODE ≠ `ACK_CODE` (10_state.md R34). -/
def Exc.real (e : Exc) (ack : Byte) : Bool := e.valid && e.code != ack

end Sys2Proof.Machine
end

