-- ==== Sys2Proof/Machine/Bus.lean ====
section
/-! DEFINITION. The host's accesses: the register map (10_state.md R17), the window (20_memory.md R50-R52), reads and
writes (R54, 10_state.md R43), the soft reset (70_reset_and_hazards.md R181), acceptance of a command
(30_encoding.md R71) and the hazard rule (60_exceptions.md R165). -/

namespace Sys2Proof.Machine

/-- The host-visible registers (10_state.md R17). -/
inductive Reg where
  | ctrl
  | cmd
  | status
  | slave
  | fc
  | exc
  | arg0
  | arg1
  | arg2
  | arg3
  | result
  | inLen
  | outLen
  | pduLen
  | field
  | fa
  | fb
deriving DecidableEq, Repr

/-- The register map (10_state.md R17). -/
def registerMap : List (Nat × Reg) :=
  [(0x000, .ctrl), (0x004, .cmd), (0x008, .status), (0x00C, .slave), (0x010, .fc), (0x014, .exc),
   (0x018, .arg0), (0x01C, .arg1), (0x020, .arg2), (0x024, .arg3), (0x028, .result), (0x02C, .inLen),
   (0x030, .outLen), (0x034, .pduLen), (0x038, .field), (0x03C, .fa), (0x040, .fb)]

/-- The register at an offset of the register area. -/
def registerAt (offset : Nat) : List (Nat × Reg) → Option Reg
  | [] => none
  | (o, r) :: rows => if o = offset then some r else registerAt offset rows

/-- What an admitted access addresses. -/
inductive Target where
  /-- A register of R17. -/
  | register (r : Reg)
  /-- Byte i of a buffer, i < BUF_BYTES. -/
  | byte (b : BufferId) (i : Nat)
  /-- A reserved register offset, or a byte of a buffer window at or above BUF_BYTES (10_state.md R43). -/
  | reserved
deriving DecidableEq, Repr

/-- An access at an offset: what it addresses, or why it has no step. -/
inductive Access where
  | admitted (t : Target)
  | refused (r : Refusal)
  | outside
deriving DecidableEq, Repr

/-- Byte i of a buffer window (20_memory.md R52). -/
def bufferTarget (p : Params) (b : BufferId) (i : Nat) : Target :=
  if i < p.bufBytes then .byte b i else .reserved

/-- The window (20_memory.md R50): aligned 32-bit accesses to the registers (R51), 8-bit accesses to the buffers
(R52), nothing else. -/
def locate (p : Params) (offset bytes : Nat) : Access :=
  if offset < 0x1000 then
    if bytes = 4 ∧ offset % 4 = 0 then
      match registerAt offset registerMap with
      | some r => .admitted (.register r)
      | none => .admitted .reserved
    else .refused (.registerAccessForm offset bytes)
  else if offset < 0x4000 then
    if bytes = 1 then
      if offset < 0x2000 then .admitted (bufferTarget p .inBuf (offset - 0x1000))
      else if offset < 0x3000 then .admitted (bufferTarget p .outBuf (offset - 0x2000))
      else .admitted (bufferTarget p .pduBuf (offset - 0x3000))
    else .refused (.bufferAccessForm offset bytes)
  else .outside

/-- The offset in the window of a platform address, if MBFC is addressed at all (20_memory.md R50; Log 9). -/
def windowOffset (address : Nat) : Option Nat :=
  if Config.mbfcBase ≤ address ∧ address < Config.mbfcBase + 0x4000 then some (address - Config.mbfcBase) else none

/-- What a register reads as (10_state.md R17-R43); reserved bits read 0. -/
def State.readRegister (s : State) : Reg → Word
  | .ctrl => s.ctrlWord
  | .cmd => 0
  | .status => s.statusWord
  | .slave => s.slave.setWidth 32
  | .fc => s.fc.setWidth 32
  | .exc => s.exc.word
  | .arg0 => s.arg0
  | .arg1 => s.arg1
  | .arg2 => s.arg2
  | .arg3 => s.arg3
  | .result => s.result
  | .inLen => s.inLen.setWidth 32
  | .outLen => s.outLen.setWidth 32
  | .pduLen => s.pduLen.setWidth 32
  | .field => s.fkind.code.setWidth 32
  | .fa => s.fa.setWidth 32
  | .fb => s.fb.setWidth 32

/-- What an admitted read returns while the engine is IDLE or FAULTED; no read has a side effect
(20_memory.md R54). -/
def State.readTarget (s : State) : Target → Word
  | .register r => s.readRegister r
  | .byte b i => (s.byteAt b i).setWidth 32
  | .reserved => 0

/-- A write of CTRL (10_state.md R18-R20): bit 31 resets, and then nothing else of the value counts
(70_reset_and_hazards.md R181); otherwise BO and WO are written, in FAULTED too (Log 14), and bits 30:2 ignored. -/
def writeCtrl (v : Word) (s : State) : State :=
  if v.getLsbD 31 then applyReset s
  else { s with bo := byteOrderOf (v.getLsbD 0), wo := wordOrderOf (v.getLsbD 1) }

/-- A write of CMD while no command is pending (30_encoding.md R71): accepted in IDLE, ignored in FAULTED. -/
def writeCmd (v : Word) (s : State) : State :=
  match s.engine with
  | .idle => acceptCommand v s
  | .faulted _ => s
  | .pending _ => s

/-- A register write while the engine is IDLE or FAULTED. Writes to reserved bits and to read-only registers are
ignored (10_state.md R43). -/
def writeRegister (r : Reg) (v : Word) (s : State) : State :=
  match r with
  | .ctrl => writeCtrl v s
  | .cmd => writeCmd v s
  | .status => s
  | .slave => { s with slave := v.extractLsb' 0 8 }
  | .fc => { s with fc := v.extractLsb' 0 8 }
  | .exc => { s with exc := excOf v }
  | .arg0 => { s with arg0 := v }
  | .arg1 => { s with arg1 := v }
  | .arg2 => { s with arg2 := v }
  | .arg3 => { s with arg3 := v }
  | .result => s
  | .inLen => { s with inLen := v.extractLsb' 0 16 }
  | .outLen => s
  | .pduLen => s
  | .field => s
  | .fa => s
  | .fb => s

/-- A write of a buffer byte: only IN_BUF is the host's to write (10_state.md R40, R43). -/
def writeByte (b : BufferId) (i : Nat) (v : Byte) (s : State) : State :=
  match b with
  | .inBuf => { s with inBuf := s.inBuf.store i v }
  | .outBuf => s
  | .pduBuf => s

/-- An admitted write while the engine is IDLE or FAULTED. -/
def writeTarget (t : Target) (v : Word) (s : State) : State :=
  match t with
  | .register r => writeRegister r v s
  | .byte b i => writeByte b i (v.extractLsb' 0 8) s
  | .reserved => s

/-- The answer of a host read: its value is left in `rdata` (Log 8). -/
def answerRead (v : Word) (s : State) : State := { s with rdata := v }

/-- An admitted read: in PENDING only STATUS may be read, and any other read is a hazard that returns 0
(60_exceptions.md R165). -/
def readAccess (t : Target) (s : State) : State :=
  match s.engine with
  | .pending _ =>
    if t = .register .status then answerRead s.statusWord s else answerRead 0 (raiseFault .hazard s)
  | .idle => answerRead (s.readTarget t) s
  | .faulted _ => answerRead (s.readTarget t) s

/-- An admitted write: in PENDING only the soft reset may be written, and any other write is a hazard and is
dropped (60_exceptions.md R165). -/
def writeAccess (t : Target) (v : Word) (s : State) : State :=
  match s.engine with
  | .pending _ =>
    if t = .register .ctrl ∧ v.getLsbD 31 = true then applyReset s else raiseFault .hazard s
  | .idle => writeTarget t v s
  | .faulted _ => writeTarget t v s

/-- A host access: the answer of its form first (20_memory.md R51, R52; 95_test_vectors.md VW14: in any engine
state), then its effect. -/
def hostAccess (offset bytes : Nat) (effect : Target → State → State) (s : State) : Answer :=
  match locate s.cfg offset bytes with
  | .admitted t => .next (effect t s)
  | .refused r => .refused r
  | .outside => .fault (.outsideWindow offset)

end Sys2Proof.Machine
end

