-- ==== Sys2Proof/Decode.lean ====
section
/-! DEFINITION. Decoding of the command word (30_encoding.md R70, R72, R73, R75), total on every 32-bit word and
rejecting by name, and the encoder beside it. -/

namespace Sys2Proof

/-- Why a word is illegal (30_encoding.md R75). Both end in Error(ILLEGAL). -/
inductive Illegal where
  /-- Some bit of RSV, bits 31:8, is 1. -/
  | reservedBits
  /-- OPC is no opcode of R73. -/
  | unassignedOpcode
deriving DecidableEq, Repr

/-- The opcode map (30_encoding.md R73), in the table's order. -/
def opcodeMap : List (Byte × Instr) :=
   [(0x01, .encU16),
    (0x02, .decU16),
    (0x03, .encU32),
    (0x04, .decU32),
    (0x05, .encF32),
    (0x06, .decF32),
    (0x10, .crc16Calc),
    (0x11, .crc16Verify),
    (0x12, .lrc8Calc),
    (0x13, .lrc8Verify),
    (0x20, .setRaw),
    (0x21, .setSpan),
    (0x22, .setWsr),
    (0x23, .setWsc),
    (0x24, .setWmr),
    (0x25, .setWmc),
    (0x26, .setDiag),
    (0x27, .setMask),
    (0x28, .setRwm),
    (0x29, .setFifo),
    (0x2A, .setRfr),
    (0x2B, .setWfr),
    (0x2C, .getSpan),
    (0x30, .rtuEncReq),
    (0x31, .rtuEncRsp),
    (0x32, .rtuDecReq),
    (0x33, .rtuDecRsp),
    (0x34, .rtuChkReq),
    (0x35, .rtuChkRsp),
    (0x40, .ascEncReq),
    (0x41, .ascEncRsp),
    (0x42, .ascDecReq),
    (0x43, .ascDecRsp),
    (0x44, .ascChk)]

/-- The command of an opcode (R73). -/
def decodeOpcode (opc : Byte) : List (Byte × Instr) → Option Instr
  | [] => none
  | (o, i) :: rows => if o = opc then some i else decodeOpcode opc rows

/-- Decoding at the engine step (30_encoding.md R72): the reserved bits first, then the opcode map. -/
def decode (c : Word) : Except Illegal Instr :=
  if c.extractLsb' 8 24 ≠ 0 then .error .reservedBits
  else
    match decodeOpcode (c.extractLsb' 0 8) opcodeMap with
    | some i => .ok i
    | none => .error .unassignedOpcode

/-- The word of a command (30_encoding.md R70 with the opcodes of R73). -/
def encode : Instr → Word
  | .encU16 => 0x00000001
  | .decU16 => 0x00000002
  | .encU32 => 0x00000003
  | .decU32 => 0x00000004
  | .encF32 => 0x00000005
  | .decF32 => 0x00000006
  | .crc16Calc => 0x00000010
  | .crc16Verify => 0x00000011
  | .lrc8Calc => 0x00000012
  | .lrc8Verify => 0x00000013
  | .setRaw => 0x00000020
  | .setSpan => 0x00000021
  | .setWsr => 0x00000022
  | .setWsc => 0x00000023
  | .setWmr => 0x00000024
  | .setWmc => 0x00000025
  | .setDiag => 0x00000026
  | .setMask => 0x00000027
  | .setRwm => 0x00000028
  | .setFifo => 0x00000029
  | .setRfr => 0x0000002A
  | .setWfr => 0x0000002B
  | .getSpan => 0x0000002C
  | .rtuEncReq => 0x00000030
  | .rtuEncRsp => 0x00000031
  | .rtuDecReq => 0x00000032
  | .rtuDecRsp => 0x00000033
  | .rtuChkReq => 0x00000034
  | .rtuChkRsp => 0x00000035
  | .ascEncReq => 0x00000040
  | .ascEncRsp => 0x00000041
  | .ascDecReq => 0x00000042
  | .ascDecRsp => 0x00000043
  | .ascChk => 0x00000044

/-- The instruction this decoder reads from the `nbits` low bits of `w`, the bits above them 0. -/
def decodeTableWord (nbits w : Nat) : Option Instr :=
  match decode (BitVec.ofNat 32 (w % 2 ^ nbits)) with
  | .ok i => some i
  | .error _ => none

end Sys2Proof
end

