-- ==== Sys2Proof/Machine/Checksum.lean ====
section
/-! DEFINITION. CRC-16 and LRC-8 (42_checksum.md R95-R97) and their commands (R98-R101). -/

namespace Sys2Proof.Machine

/-- One bit step of the CRC (R95): polynomial 0xA001, least significant bit first. -/
def crcBit (c : Half) : Half := if c.getLsbD 0 then (c >>> 1) ^^^ 0xA001 else c >>> 1

/-- `n` bit steps. -/
def crcBits : Nat → Half → Half
  | 0, c => c
  | n + 1, c => crcBits n (crcBit c)

/-- One byte: it enters at the low end, then 8 bit steps (R95). -/
def crcByte (c : Half) (b : Byte) : Half := crcBits 8 (c ^^^ b.setWidth 16)

/-- The CRC register after the bytes of `l`, from `c`. -/
def crcFrom (c : Half) : List Byte → Half
  | [] => c
  | b :: l => crcFrom (crcByte c b) l

/-- `crc16` (R95): initial value 0xFFFF, no final XOR. -/
def crc16 (l : List Byte) : Half := crcFrom 0xFFFF l

/-- `sum8` (00_scope.md R9). -/
def sum8 : List Byte → Byte
  | [] => 0
  | b :: l => b + sum8 l

/-- `lrc8` (R96): the two's complement of the byte sum. -/
def lrc8 (l : List Byte) : Byte := -sum8 l

/-- A CRC in wire order, low byte first whatever CTRL.BO says (R97). -/
def crcWire (c : Half) : List Byte := [lowByte c, highByte c]

/-- `crc16(l[0..n-2)) == dec16(l[n-2], l[n-1], LittleEndian)` for n = len(l) ≥ 2 (R99, 44_rtu.md R128). -/
def crcMatches (l : List Byte) : Bool :=
  crc16 (l.take (l.length - 2))
    == dec16 (byteOf l (l.length - 2)) (byteOf l (l.length - 1)) .littleEndian

/-- A command that computes RESULT from all of IN (R98, R100). -/
def calcResult (v : List Byte → Word) (s : State) : Answer :=
  if s.inputTooLong then .next (raiseError .overflow s)
  else .next (finishOk true (putResult (v s.input) s))

/-- A command whose result is a verdict on all of IN; a false verdict is no error (R99, R101). -/
def verdict (v : List Byte → Bool) (s : State) : Answer :=
  if s.inputTooLong then .next (raiseError .overflow s)
  else .next (finishOk (v s.input) s)

/-- CRC16_CALC (R98). -/
def execCrc16Calc (s : State) : Answer := calcResult (fun l => (crc16 l).setWidth 32) s

/-- CRC16_VERIFY (R99). -/
def execCrc16Verify (s : State) : Answer :=
  verdict (fun l => if l.length < 2 then false else crcMatches l) s

/-- LRC8_CALC (R100). -/
def execLrc8Calc (s : State) : Answer := calcResult (fun l => (lrc8 l).setWidth 32) s

/-- LRC8_VERIFY (R101). -/
def execLrc8Verify (s : State) : Answer :=
  verdict (fun l => if l.length = 0 then false else sum8 l == 0) s

end Sys2Proof.Machine
end

