-- ==== Sys2Proof/Machine/Frame.lean ====
section
/-! DEFINITION. What the RTU and the ASCII framer share: the binary message of a frame (44_rtu.md R126, R127;
45_ascii.md R144, R145), the write of a frame to OUT, and the commit of a decoded message (44_rtu.md R129-R133;
45_ascii.md R147, R148). A message is the slave id, the function code and the payload, without its checksum. -/

namespace Sys2Proof.Machine

/-- The message of a request (44_rtu.md R126). -/
def requestMessage (s : State) : List Byte := s.slave :: s.fc :: s.payload

/-- The message of a response: a real exception is the function code with bit 7 set and the one code byte; any
other response is encoded like a request (44_rtu.md R127, 10_state.md R34). -/
def responseMessage (s : State) : List Byte :=
  if s.exc.real s.cfg.ackCode then [s.slave, s.fc ||| 0x80, s.exc.code] else requestMessage s

/-- An encoder: BAD_FC (44_rtu.md R125), then OVERFLOW of the frame, then OUT and OUT_LEN. -/
def emitFrame (frame : List Byte) (s : State) : Answer :=
  if !knownCode s.cfg s.fc then .next (raiseError .badFc s)
  else if s.cfg.bufBytes < frame.length then .next (raiseError .overflow s)
  else .next (finishOk true (putOut frame s))

/-- The structured view of a request payload (44_rtu.md R131). -/
def parseView (other : CoilOther) (bo : ByteOrder) (fc : Byte) (p : List Byte) : FieldKind × Half × Half :=
  let a := dec16 (byteOf p 0) (byteOf p 1) bo
  let v := dec16 (byteOf p 2) (byteOf p 3) bo
  if p.length < 4 then (.none, 0, 0)
  else if fc = 0x01 ∨ fc = 0x02 ∨ fc = 0x03 ∨ fc = 0x04 then (.span, a, v)
  else if fc = 0x06 then (.reg, a, v)
  else if fc = 0x05 then
    if v = 0xFF00 then (.coil, a, 1)
    else if v = 0x0000 then (.coil, a, 0)
    else if other = .off then (.coil, a, 0)
    else (.none, 0, 0)
  else (.none, 0, 0)

/-- The header of a decoded message: SLAVE, FC, EXB, FCK (44_rtu.md R129, R130), and EXC. -/
def putMessageHeader (d : List Byte) (e : Exc) (s : State) : State :=
  putHeader (byteOf d 0) (code7 (byteOf d 1)) (exceptionBit (byteOf d 1)) (knownCode s.cfg (code7 (byteOf d 1))) e s

/-- The commit of a request decode (44_rtu.md R132, 45_ascii.md R147). -/
def decodeRequest (d : List Byte) (s : State) : Answer :=
  let v := parseView s.cfg.coilOther s.bo (code7 (byteOf d 1)) (d.drop 2)
  .next (finishOk true
    (putView v.1 v.2.1 v.2.2 (putPayload (d.drop 2) (putMessageHeader d ⟨false, 0⟩ s))))

/-- The commit of a response decode: LENGTH for an exception without its code byte, EXC from the code byte, or
Acknowledge and the payload (44_rtu.md R133, 45_ascii.md R148). -/
def decodeResponse (d : List Byte) (s : State) : Answer :=
  if exceptionBit (byteOf d 1) then
    if d.length < 3 then .next (raiseError .length s)
    else .next (finishOk true
      (putView .none 0 0 (dropPayload (putMessageHeader d ⟨true, byteOf d 2⟩ s))))
  else .next (finishOk true
    (putView .none 0 0 (putPayload (d.drop 2) (putMessageHeader d ⟨true, s.cfg.ackCode⟩ s))))

/-- A decoder: the error of the framing checks, or the commit of the message. -/
def decodeFrame (message : Except Err (List Byte)) (commit : List Byte → State → Answer) (s : State) : Answer :=
  match message with
  | .error e => .next (raiseError e s)
  | .ok d => commit d s

end Sys2Proof.Machine
end

