-- ==== Sys2Proof/Machine/Ascii.lean ====
section
/-! DEFINITION. The ASCII framer commands (45_ascii.md). -/

namespace Sys2Proof.Machine

/-- ':' (00_scope.md R13). -/
def colon : Byte := 0x3A

/-- CR (00_scope.md R13). -/
def cr : Byte := 0x0D

/-- LF (00_scope.md R13). -/
def lf : Byte := 0x0A

/-- `HEX(d)`, an uppercase hexadecimal character (R141). -/
def hexDigit (d : Nat) : Byte := if d ≤ 9 then BitVec.ofNat 8 (0x30 + d) else BitVec.ofNat 8 (0x41 + (d - 10))

/-- `hexenc` (R141): two characters a byte, high nibble first. -/
def hexEnc (l : List Byte) : List Byte := l.flatMap fun b => [hexDigit (b.toNat / 16), hexDigit (b.toNat % 16)]

/-- `VAL(ch)`, both letter cases (R142). -/
def hexVal (ch : Byte) : Option Nat :=
  if 0x30 ≤ ch.toNat ∧ ch.toNat ≤ 0x39 then some (ch.toNat - 0x30)
  else if 0x41 ≤ ch.toNat ∧ ch.toNat ≤ 0x46 then some (ch.toNat - 0x41 + 10)
  else if 0x61 ≤ ch.toNat ∧ ch.toNat ≤ 0x66 then some (ch.toNat - 0x61 + 10)
  else none

/-- The bytes of hex characters taken two by two, none if some character is no hex digit or stands alone. -/
def hexPairs : List Byte → Option (List Byte)
  | [] => some []
  | [_] => none
  | a :: b :: t =>
    match hexVal a, hexVal b, hexPairs t with
    | some x, some y, some m => some (BitVec.ofNat 8 (16 * x + y) :: m)
    | _, _, _ => none

/-- `hexdec` (R142): HEX_ODD before HEX_CHAR. -/
def hexDec (t : List Byte) : Except Err (List Byte) :=
  if t.length % 2 ≠ 0 then .error .hexOdd
  else
    match hexPairs t with
    | none => .error .hexChar
    | some m => .ok m

/-- The ASCII frame of a message (R143). -/
def asciiFrame (b : List Byte) : List Byte := colon :: hexEnc (b ++ [lrc8 b]) ++ [cr, lf]

/-- The least index at which `p` holds. -/
def firstIndex (p : Byte → Bool) : List Byte → Option Nat
  | [] => none
  | b :: l =>
    if p b then some 0
    else
      match firstIndex p l with
      | none => none
      | some k => some (k + 1)

/-- The hex text between ':' and CR LF: START, then DELIM (R146). -/
def asciiText (l : List Byte) : Except Err (List Byte) :=
  match l with
  | [] => .error .start
  | c :: rest =>
    if c ≠ colon then .error .start
    else
      match firstIndex (fun b => b == cr) rest with
      | none => .error .delim
      | some k =>
        if rest.length ≤ k + 1 ∨ byteOf rest (k + 1) ≠ lf then .error .delim
        else .ok (rest.take k)

/-- The message in a hex text: HEX_ODD, HEX_CHAR, LRC, LENGTH; the LRC byte is dropped (R146). -/
def textMessage (t : List Byte) : Except Err (List Byte) :=
  match hexDec t with
  | .error e => .error e
  | .ok m =>
    if m.length = 0 ∨ sum8 m ≠ 0 then .error .lrc
    else if m.length < 3 then .error .length
    else .ok m.dropLast

/-- The decode steps of R146, giving the message: OVERFLOW, then those of the text and of the message. -/
def asciiMessage (s : State) : Except Err (List Byte) :=
  if s.inputTooLong then .error .overflow
  else
    match asciiText s.input with
    | .error e => .error e
    | .ok t => textMessage t

/-- The least index of a CR LF pair (R150). -/
def firstCrLf : List Byte → Option Nat
  | [] => none
  | b :: l =>
    if b = cr ∧ l.head? = some lf then some 0
    else
      match firstCrLf l with
      | none => none
      | some k => some (k + 1)

/-- The offset and the length of the first delimited frame: the first ':' and the first CR LF after it
(R149, R150). -/
def scanFrame (l : List Byte) : Option (Nat × Nat) :=
  match firstIndex (fun b => b == colon) l with
  | none => none
  | some s =>
    match firstCrLf (l.drop (s + 1)) with
    | none => none
    | some k => some (s, k + 3)

/-- ASC_ENC_REQ (R144). -/
def execAscEncReq (s : State) : Answer := emitFrame (asciiFrame (requestMessage s)) s

/-- ASC_ENC_RSP (R145). -/
def execAscEncRsp (s : State) : Answer := emitFrame (asciiFrame (responseMessage s)) s

/-- ASC_DEC_REQ (R147). -/
def execAscDecReq (s : State) : Answer := decodeFrame (asciiMessage s) decodeRequest s

/-- ASC_DEC_RSP (R148). -/
def execAscDecRsp (s : State) : Answer := decodeFrame (asciiMessage s) decodeResponse s

/-- ASC_CHK (R150): RESULT[15:0] the offset of ':', RESULT[31:16] the frame length. -/
def execAscChk (s : State) : Answer :=
  if s.inputTooLong then .next (raiseError .overflow s)
  else
    match scanFrame s.input with
    | none => .next (finishOk false (putResult 0 s))
    | some (o, n) =>
      .next (finishOk true (putResult (packHalves (BitVec.ofNat 16 o) (BitVec.ofNat 16 n)) s))

end Sys2Proof.Machine
end

