-- ==== Sys2Proof/Machine/Codec.lean ====
section
/-! DEFINITION. The byte/word codec commands (41_codec.md R87-R92). -/

namespace Sys2Proof.Machine

/-- An encoding command of the codec: OUT and OUT_LEN get the bytes (R87, R89). -/
def encodeValue (p : List Byte) (s : State) : Answer := .next (finishOk true (putOut p s))

/-- A decoding command of the codec: OVERFLOW, then LENGTH, then RESULT (R88, R90). -/
def decodeValue (need : Nat) (v : List Byte → Word) (s : State) : Answer :=
  if s.inputTooLong then .next (raiseError .overflow s)
  else if s.inLen.toNat < need then .next (raiseError .length s)
  else .next (finishOk true (putResult (v s.input) s))

/-- RESULT of a 32-bit decode: `dec32` of the first four bytes (R90). -/
def word32Of (s : State) (l : List Byte) : Word :=
  dec32 (byteOf l 0) (byteOf l 1) (byteOf l 2) (byteOf l 3) s.bo s.wo

/-- ENC_U16 (R87). -/
def execEncU16 (s : State) : Answer := encodeValue (enc16 (arg16 s.arg0) s.bo) s

/-- DEC_U16 (R88). -/
def execDecU16 (s : State) : Answer :=
  decodeValue 2 (fun l => (dec16 (byteOf l 0) (byteOf l 1) s.bo).setWidth 32) s

/-- ENC_U32 (R89). -/
def execEncU32 (s : State) : Answer := encodeValue (enc32 s.arg0 s.bo s.wo) s

/-- DEC_U32 (R90). -/
def execDecU32 (s : State) : Answer := decodeValue 4 (word32Of s) s

/-- ENC_F32 (R91): the bit pattern of the float, moved as ENC_U32 moves it. -/
def execEncF32 (s : State) : Answer := encodeValue (enc32 s.arg0 s.bo s.wo) s

/-- DEC_F32 (R92): the bit pattern as received. -/
def execDecF32 (s : State) : Answer := decodeValue 4 (word32Of s) s

end Sys2Proof.Machine
end

