-- ==== Sys2Proof/Machine/Pdu.lean ====
section
/-! DEFINITION. The PDU serialization commands: the setters (43_pdu.md R105-R119) and GET_SPAN (R120). -/

namespace Sys2Proof.Machine

/-- What a structured setter serializes: the payload and its view, or the error of its own checks. -/
abbrev Payload := Except Err (List Byte)

/-- Steps 5 to 7 of R105: OVERFLOW of the payload, then PDU, PDU_LEN and the view, then OK. -/
def commitPayload (k : FieldKind) (a b : Half) (p : List Byte) (s : State) : Answer :=
  if s.cfg.bufBytes < p.length then .next (raiseError .overflow s)
  else .next (finishOk true (putView k a b (putPayload p s)))

/-- A structured setter (R105): the contract check, the setter's own checks, then steps 5 to 7. -/
def structuredSetter (contract : Bool) (k : FieldKind) (a b : Half) (payload : Payload) (s : State) : Answer :=
  if contract then
    match payload with
    | .error e => .next (raiseError e s)
    | .ok p => commitPayload k a b p s
  else .next (raiseFault .contract s)

/-- The packed value list of SET_WMR and SET_RWM with its byte count in front (R112, R116): OVERFLOW, LENGTH,
MISMATCH, LIMIT. -/
def valueList (s : State) (count : Half) : Payload :=
  if s.inputTooLong then .error .overflow
  else if s.inLen.toNat % 2 ≠ 0 then .error .length
  else if s.inLen.toNat / 2 ≠ count.toNat then .error .mismatch
  else if 255 < 2 * count.toNat then .error .limit
  else .ok (BitVec.ofNat 8 (2 * count.toNat)
    :: encWords s.bo ((List.range (s.inLen.toNat / 2)).map (host16 s.input)))

/-- Byte j of the packed coils: coil 8j + b in bit b, bits past the last coil 0 (R113). -/
def packedCoil (coils : List Byte) (j : Nat) : Byte :=
  (List.range 8).foldl
    (fun acc b => if 8 * j + b < coils.length ∧ byteOf coils (8 * j + b) ≠ 0 then acc + (1#8 <<< b) else acc) 0

/-- The packed coils of SET_WMC with their byte count in front (R113): OVERFLOW, MISMATCH, LIMIT. -/
def coilList (s : State) (count : Half) : Payload :=
  if s.inputTooLong then .error .overflow
  else if s.inLen.toNat ≠ count.toNat then .error .mismatch
  else if 255 < (count.toNat + 7) / 8 then .error .limit
  else .ok (BitVec.ofNat 8 ((count.toNat + 7) / 8)
    :: (List.range ((count.toNat + 7) / 8)).map (packedCoil s.input))

/-- The sub-request of one (file, record, length) triple: reference type 0x06, then three 16-bit fields (R118). -/
def readSubRequest (bo : ByteOrder) (l : List Byte) (r : Nat) : List Byte :=
  0x06 :: encWords bo [host16 l (3 * r), host16 l (3 * r + 1), host16 l (3 * r + 2)]

/-- The payload of SET_RFR (R118): OVERFLOW, EMPTY, LENGTH, LIMIT. -/
def readFilePayload (s : State) : Payload :=
  if s.inputTooLong then .error .overflow
  else if s.inLen.toNat = 0 then .error .empty
  else if s.inLen.toNat % 6 ≠ 0 then .error .length
  else if 255 < 7 * (s.inLen.toNat / 6) then .error .limit
  else .ok (BitVec.ofNat 8 (7 * (s.inLen.toNat / 6))
    :: (List.range (s.inLen.toNat / 6)).flatMap (readSubRequest s.bo s.input))

/-- A file record to write: file, record and data words (R119). -/
structure FileRecord where
  file : Half
  record : Half
  count : Half
  data : List Half
deriving DecidableEq, Repr

/-- The records of `l` from byte `pos` on, or LENGTH at a truncated one (R119). Each record takes at least 6 bytes,
so `len(l) + 1` rounds are always enough. -/
def fileRecords (l : List Byte) : Nat → Nat → Except Err (List FileRecord)
  | 0, _ => .error .length
  | fuel + 1, pos =>
    if l.length ≤ pos then .ok []
    else if l.length < pos + 6 then .error .length
    else if l.length < pos + 6 + 2 * (host16 l (pos / 2 + 2)).toNat then .error .length
    else
      match fileRecords l fuel (pos + 6 + 2 * (host16 l (pos / 2 + 2)).toNat) with
      | .error e => .error e
      | .ok recs =>
        .ok (⟨host16 l (pos / 2), host16 l (pos / 2 + 1), host16 l (pos / 2 + 2),
          (List.range (host16 l (pos / 2 + 2)).toNat).map fun t => host16 l (pos / 2 + 3 + t)⟩ :: recs)

/-- One record on the wire: reference type 0x06, file, record, n, the n data words (R119). -/
def writeSubRequest (bo : ByteOrder) (r : FileRecord) : List Byte :=
  0x06 :: encWords bo (r.file :: r.record :: r.count :: r.data)

/-- The byte count of the records: 7 + 2n each (R119). -/
def recordBytes : List FileRecord → Nat
  | [] => 0
  | r :: rs => 7 + 2 * r.count.toNat + recordBytes rs

/-- The payload of SET_WFR (R119): OVERFLOW, EMPTY, LENGTH, LIMIT. -/
def writeFilePayload (s : State) : Payload :=
  if s.inputTooLong then .error .overflow
  else if s.inLen.toNat = 0 then .error .empty
  else
    match fileRecords s.input (s.inLen.toNat + 1) 0 with
    | .error e => .error e
    | .ok recs =>
      if 255 < recordBytes recs then .error .limit
      else .ok (BitVec.ofNat 8 (recordBytes recs) :: recs.flatMap (writeSubRequest s.bo))

/-- A payload with fields in front of it; an error stays one. -/
def withFields (fields : List Byte) : Payload → Payload
  | .error e => .error e
  | .ok p => .ok (fields ++ p)

/-- SET_RAW (R108): no function-code check; the view is NONE (R106). -/
def execSetRaw (s : State) : Answer :=
  if s.inputTooLong then .next (raiseError .overflow s)
  else .next (finishOk true (putView .none 0 0 (putPayload s.input s)))

/-- SET_SPAN (R109). -/
def execSetSpan (s : State) : Answer :=
  structuredSetter (s.cfg.spanSetCodes.contains s.fc) .span (arg16 s.arg0) (arg16 s.arg1)
    (.ok (encWords s.bo [arg16 s.arg0, arg16 s.arg1])) s

/-- SET_WSR (R110). -/
def execSetWsr (s : State) : Answer :=
  structuredSetter (s.fc == 0x06) .reg (arg16 s.arg0) (arg16 s.arg1)
    (.ok (encWords s.bo [arg16 s.arg0, arg16 s.arg1])) s

/-- SET_WSC (R111): ON is 0xFF00 and OFF 0x0000, a 16-bit field in CTRL.BO order. -/
def execSetWsc (s : State) : Answer :=
  structuredSetter (s.fc == 0x05) .coil (arg16 s.arg0) (if argBit s.arg1 then 1 else 0)
    (.ok (encWords s.bo [arg16 s.arg0, if argBit s.arg1 then 0xFF00 else 0x0000])) s

/-- SET_WMR (R112). -/
def execSetWmr (s : State) : Answer :=
  structuredSetter (s.fc == 0x10) .none 0 0
    (withFields (encWords s.bo [arg16 s.arg0, arg16 s.arg1]) (valueList s (arg16 s.arg1))) s

/-- SET_WMC (R113). -/
def execSetWmc (s : State) : Answer :=
  structuredSetter (s.fc == 0x0F) .none 0 0
    (withFields (encWords s.bo [arg16 s.arg0, arg16 s.arg1]) (coilList s (arg16 s.arg1))) s

/-- SET_DIAG (R114): the data bytes are copied, unchanged by CTRL.BO. -/
def execSetDiag (s : State) : Answer :=
  structuredSetter (s.fc == 0x08) .none 0 0
    (if s.inputTooLong then .error .overflow else .ok (enc16 (arg16 s.arg0) s.bo ++ s.input)) s

/-- SET_MASK (R115). -/
def execSetMask (s : State) : Answer :=
  structuredSetter (s.fc == 0x16) .none 0 0
    (.ok (encWords s.bo [arg16 s.arg0, arg16 s.arg1, arg16 s.arg2])) s

/-- SET_RWM (R116). -/
def execSetRwm (s : State) : Answer :=
  structuredSetter (s.fc == 0x17) .none 0 0
    (withFields (encWords s.bo [arg16 s.arg0, arg16 s.arg1, arg16 s.arg2, arg16 s.arg3])
      (valueList s (arg16 s.arg3))) s

/-- SET_FIFO (R117). -/
def execSetFifo (s : State) : Answer :=
  structuredSetter (s.fc == 0x18) .none 0 0 (.ok (enc16 (arg16 s.arg0) s.bo)) s

/-- SET_RFR (R118). -/
def execSetRfr (s : State) : Answer :=
  structuredSetter (s.fc == 0x14) .none 0 0 (readFilePayload s) s

/-- SET_WFR (R119). -/
def execSetWfr (s : State) : Answer :=
  structuredSetter (s.fc == 0x15) .none 0 0 (writeFilePayload s) s

/-- GET_SPAN (R120): "not applicable" is OK = 0 with ERR = 0, never an error or a fault. -/
def execGetSpan (s : State) : Answer :=
  if s.cfg.spanCodes.contains s.fc ∧ 4 ≤ s.pduLen.toNat then
    .next (finishOk true (putResult
      (packHalves (dec16 (s.byteAt .pduBuf 0) (s.byteAt .pduBuf 1) s.bo)
        (dec16 (s.byteAt .pduBuf 2) (s.byteAt .pduBuf 3) s.bo)) s))
  else .next (finishOk false (putResult 0 s))

end Sys2Proof.Machine
end

