-- ==== Sys2Proof/Machine/Rtu.lean ====
section
/-! DEFINITION. The RTU framer commands (44_rtu.md). -/

namespace Sys2Proof.Machine

/-- The RTU frame of a message: the message and its CRC, low byte first (30_encoding.md R78). -/
def rtuFrame (b : List Byte) : List Byte := b ++ crcWire (crc16 b)

/-- The checks of a decode (R128), giving the message: OVERFLOW, LENGTH, CRC. -/
def rtuMessage (s : State) : Except Err (List Byte) :=
  if s.inputTooLong then .error .overflow
  else if s.inLen.toNat < 4 then .error .length
  else if crcMatches s.input then .ok (s.input.take (s.inLen.toNat - 2))
  else .error .crc

/-- `MIN_REQ` (R135). -/
def minRequest (f : Byte) : Nat :=
  if f = 0x01 ∨ f = 0x02 ∨ f = 0x03 ∨ f = 0x04 ∨ f = 0x05 ∨ f = 0x06 then 8 else 4

/-- The length a request needs, once its function code is in (R136). -/
def requestLength (l : List Byte) : Option Nat :=
  if l.length < 2 then none else some (minRequest (byteOf l 1))

/-- The length a response needs, once it can be told (R137): exception first, then byte count, then write-single,
then the table. -/
def responseLength (p : Params) (l : List Byte) : Option Nat :=
  if l.length < 2 then none
  else if exceptionBit (byteOf l 1) then some 5
  else if p.bcCodes.contains (byteOf l 1) then
    if l.length < 3 then none else some (3 + (byteOf l 2).toNat + 2)
  else if p.wsCodes.contains (byteOf l 1) then some 8
  else some (minRequest (byteOf l 1))

/-- A completeness check (R136, R137): RESULT is the needed length, or 0 while it cannot be told; OK says whether
that many bytes are in. -/
def checkComplete (needed : Option Nat) (s : State) : Answer :=
  if s.inputTooLong then .next (raiseError .overflow s)
  else
    match needed with
    | none => .next (finishOk false (putResult 0 s))
    | some e => .next (finishOk (decide (e ≤ s.inLen.toNat)) (putResult (BitVec.ofNat 32 e) s))

/-- RTU_ENC_REQ (R126). -/
def execRtuEncReq (s : State) : Answer := emitFrame (rtuFrame (requestMessage s)) s

/-- RTU_ENC_RSP (R127). -/
def execRtuEncRsp (s : State) : Answer := emitFrame (rtuFrame (responseMessage s)) s

/-- RTU_DEC_REQ (R132). -/
def execRtuDecReq (s : State) : Answer := decodeFrame (rtuMessage s) decodeRequest s

/-- RTU_DEC_RSP (R133). -/
def execRtuDecRsp (s : State) : Answer := decodeFrame (rtuMessage s) decodeResponse s

/-- RTU_CHK_REQ (R136). -/
def execRtuChkReq (s : State) : Answer := checkComplete (requestLength s.input) s

/-- RTU_CHK_RSP (R137). -/
def execRtuChkRsp (s : State) : Answer := checkComplete (responseLength s.cfg s.input) s

end Sys2Proof.Machine
end

