-- ==== Sys2Proof/Machine/Dispatch.lean ====
section
/-! DEFINITION. The meaning of each command: one arm per constructor of Instr (30_encoding.md R73). A meaning does not
look at the engine state: the step calls it only in PENDING (Log 15). -/

namespace Sys2Proof.Machine

def exec (i : Instr) (s : State) : Host.Outcome State Fault Refusal :=
  match i with
  | .encU16 => Sys2Proof.Machine.execEncU16 s
  | .decU16 => Sys2Proof.Machine.execDecU16 s
  | .encU32 => Sys2Proof.Machine.execEncU32 s
  | .decU32 => Sys2Proof.Machine.execDecU32 s
  | .encF32 => Sys2Proof.Machine.execEncF32 s
  | .decF32 => Sys2Proof.Machine.execDecF32 s
  | .crc16Calc => Sys2Proof.Machine.execCrc16Calc s
  | .crc16Verify => Sys2Proof.Machine.execCrc16Verify s
  | .lrc8Calc => Sys2Proof.Machine.execLrc8Calc s
  | .lrc8Verify => Sys2Proof.Machine.execLrc8Verify s
  | .setRaw => Sys2Proof.Machine.execSetRaw s
  | .setSpan => Sys2Proof.Machine.execSetSpan s
  | .setWsr => Sys2Proof.Machine.execSetWsr s
  | .setWsc => Sys2Proof.Machine.execSetWsc s
  | .setWmr => Sys2Proof.Machine.execSetWmr s
  | .setWmc => Sys2Proof.Machine.execSetWmc s
  | .setDiag => Sys2Proof.Machine.execSetDiag s
  | .setMask => Sys2Proof.Machine.execSetMask s
  | .setRwm => Sys2Proof.Machine.execSetRwm s
  | .setFifo => Sys2Proof.Machine.execSetFifo s
  | .setRfr => Sys2Proof.Machine.execSetRfr s
  | .setWfr => Sys2Proof.Machine.execSetWfr s
  | .getSpan => Sys2Proof.Machine.execGetSpan s
  | .rtuEncReq => Sys2Proof.Machine.execRtuEncReq s
  | .rtuEncRsp => Sys2Proof.Machine.execRtuEncRsp s
  | .rtuDecReq => Sys2Proof.Machine.execRtuDecReq s
  | .rtuDecRsp => Sys2Proof.Machine.execRtuDecRsp s
  | .rtuChkReq => Sys2Proof.Machine.execRtuChkReq s
  | .rtuChkRsp => Sys2Proof.Machine.execRtuChkRsp s
  | .ascEncReq => Sys2Proof.Machine.execAscEncReq s
  | .ascEncRsp => Sys2Proof.Machine.execAscEncRsp s
  | .ascDecReq => Sys2Proof.Machine.execAscDecReq s
  | .ascDecRsp => Sys2Proof.Machine.execAscDecRsp s
  | .ascChk => Sys2Proof.Machine.execAscChk s

end Sys2Proof.Machine
end

