-- ==== Sys2Proof/Machine/EngineTurn.lean ====
section
/-! DEFINITION. The engine's step (10_state.md R15, 30_encoding.md R72) and the events of one step of the machine. -/

namespace Sys2Proof.Machine

/-- The step of PENDING(c) (30_encoding.md R72): Error(ILLEGAL) for an illegal word, else the command. -/
def runCommand (c : Word) (s : State) : Answer :=
  match decode c with
  | .error _ => .next (raiseError .illegal s)
  | .ok i => exec i s

/-- The engine's turn: IDLE and FAULTED have no engine step (10_state.md R15, 60_exceptions.md R164). -/
def engineTurn (s : State) : Answer :=
  match s.engine with
  | .pending c => runCommand c s
  | .idle => .next s
  | .faulted _ => .next s

/-- One event (10_state.md R14). -/
def handleEvent (e : HostEvent) (s : State) : Answer :=
  match e with
  | .read offset bytes => hostAccess offset bytes readAccess s
  | .write offset bytes v => hostAccess offset bytes (fun t => writeAccess t v) s
  | .hardwareReset => .next (applyReset s)
  | .engineTurn => engineTurn s

/-- The state in which the next step executes the command word `c`: the word as accepted by a CMD write, and the
engine's turn next (Log 7). -/
def stageCommand (c : Word) (s : State) : State :=
  acceptCommand c { s with inputs := .engineTurn :: s.inputs }

end Sys2Proof.Machine
end

