-- ==== Sys2Proof/Machine/Step.lean ====
section
/-! DEFINITION. One step of the machine: the first event of `inputs`, and the engine's turn when there is none
(70_reset_and_hazards.md R193; Log 1, Log 2). -/

namespace Sys2Proof.Machine

/-- One step. -/
def step (s : State) : Host.Outcome State Fault Refusal :=
  match s.inputs with
  | [] => engineTurn s
  | e :: rest => handleEvent e { s with inputs := rest }

/-- `s` with the command word `w` (its `nbits` low bits, the others 0) where the next step takes its command. -/
def State.withFetchWord (s : State) (nbits w : Nat) : State := stageCommand (BitVec.ofNat 32 (w % 2 ^ nbits)) s

end Sys2Proof.Machine
end

