-- ==== Sys2Proof/Machine/HostProgram.lean ====
section
/-! DEFINITION. The host notation of 30_encoding.md R76 and R77, expanded to the events of `inputs` (Log 16). -/

namespace Sys2Proof.Machine

/-- `offset(reg)` (R76): the offset the register map gives. -/
def offsetOf (r : Reg) : List (Nat × Reg) → Nat
  | [] => 0
  | (o, q) :: rows => if q = r then o else offsetOf r rows

/-- `base(buf)` (R76). -/
def baseOf : BufferId → Nat
  | .inBuf => 0x1000
  | .outBuf => 0x2000
  | .pduBuf => 0x3000

/-- A line of a host program (R76, R77). -/
inductive HostLine where
  /-- `W <reg>, <v>`. -/
  | w (r : Reg) (v : Word)
  /-- `R <reg>`. -/
  | r (r : Reg)
  /-- `WB IN[i], <b>`. -/
  | wb (i : Nat) (b : Byte)
  /-- `RB <buf>[i]`. -/
  | rb (b : BufferId) (i : Nat)
  /-- `C <MNEMONIC>`. -/
  | c (i : Instr)
  /-- `WAIT`, in a run in which `polls` reads of STATUS return BUSY = 1 before the engine's step (Log 16). -/
  | wait (polls : Nat)
  /-- `CW <MNEMONIC>`. -/
  | cw (i : Instr) (polls : Nat)
  /-- `LOADIN b0, …, bn-1`. -/
  | loadIn (bs : List Byte)
  /-- `SRST`. -/
  | srst
deriving DecidableEq, Repr

/-- `W <reg>, <v>` as a bus transaction (R76). -/
def writeEvent (r : Reg) (v : Word) : HostEvent := .write (offsetOf r registerMap) 4 v

/-- `R <reg>` as a bus transaction (R76). -/
def readEvent (r : Reg) : HostEvent := .read (offsetOf r registerMap) 4

/-- `WB IN[i], b` for the bytes of a list from index i on (R77 `LOADIN`). -/
def stageBytes : Nat → List Byte → List HostEvent
  | _, [] => []
  | i, b :: bs => .write (baseOf .inBuf + i) 1 (b.setWidth 32) :: stageBytes (i + 1) bs

/-- `WAIT` (R77). -/
def waitEvents : Nat → List HostEvent
  | 0 => [.engineTurn, readEvent .status]
  | n + 1 => readEvent .status :: waitEvents n

/-- The bus transactions of a line (R76, R77), with the engine's turn inside a `WAIT`. -/
def HostLine.events : HostLine → List HostEvent
  | .w q v => [writeEvent q v]
  | .r q => [readEvent q]
  | .wb i b => [.write (baseOf .inBuf + i) 1 (b.setWidth 32)]
  | .rb b i => [.read (baseOf b + i) 1]
  | .c i => [writeEvent .cmd (encode i)]
  | .wait n => waitEvents n
  | .cw i n => writeEvent .cmd (encode i) :: waitEvents n
  | .loadIn bs => stageBytes 0 bs ++ [writeEvent .inLen (BitVec.ofNat 32 bs.length)]
  | .srst => [writeEvent .ctrl 0x80000000]

/-- The events of a host program. -/
def programEvents (p : List HostLine) : List HostEvent := p.flatMap HostLine.events

/-- A state whose host makes the accesses of a program after those already to come. -/
def State.withProgram (s : State) (p : List HostLine) : State := { s with inputs := s.inputs ++ programEvents p }

end Sys2Proof.Machine
end

