-- ==== Sys2Proof/Safety.lean ====
section
/-! DEFINITION. The terms the claims use: what a command leaves alone, the endings of a command as states, the tables of
30_encoding.md R74, 43_pdu.md R121 and 60_exceptions.md R159, the invariant of the machine, and a final state. -/

namespace Sys2Proof.Machine

/-! ### Endings (00_scope.md R11) -/

/-- The command has ended with `finish OK(b)`: STATUS.BUSY 0, DONE 1, OK b, ERR NONE. -/
def Succeeded (b : Bool) (t : State) : Prop :=
  t.engine = .idle ∧ t.done = true ∧ t.ok = b ∧ t.err = .none

/-- `s` after `raise Error(e)`: only STATUS.BUSY, DONE, OK and ERR differ (60_exceptions.md R160). -/
def afterError (e : Err) (s : State) : State :=
  { s with engine := .idle, done := true, ok := false, err := e }

/-- `s` after `raise Fault(c)`: only the engine state and DONE differ (60_exceptions.md R164, R165). -/
def afterFault (c : FaultCause) (s : State) : State :=
  { s with engine := .faulted c, done := false }

/-- What a hardware or soft reset leaves (10_state.md R46); a buffer byte is a free draw (R41). -/
structure State.HasResetValues (t : State) : Prop where
  engine : t.engine = .idle
  ctrl : t.ctrlWord = 0
  status : t.statusWord = 0
  slave : t.slave = 0
  fc : t.fc = 0
  exc : t.exc = ⟨false, 0⟩
  args : t.arg0 = 0 ∧ t.arg1 = 0 ∧ t.arg2 = 0 ∧ t.arg3 = 0
  result : t.result = 0
  lengths : t.inLen = 0 ∧ t.outLen = 0 ∧ t.pduLen = 0
  view : t.fkind = .none ∧ t.fa = 0 ∧ t.fb = 0
  bytes : ∀ b i, t.byteAt b i = Config.bufferDraw t.draws b i

/-! ### The spec's functions, said a second way

The claims are stated with these, by arithmetic on numbers and by tables, and not with the functions the meanings call. -/

/-- A 16-bit value in wire order (41_codec.md R83). -/
def wire16 (v : Half) : ByteOrder → List Byte
  | .bigEndian => [BitVec.ofNat 8 (v.toNat / 256), BitVec.ofNat 8 (v.toNat % 256)]
  | .littleEndian => [BitVec.ofNat 8 (v.toNat % 256), BitVec.ofNat 8 (v.toNat / 256)]

/-- 16-bit values in wire order, one after the other (20_memory.md R57). -/
def wireList (bo : ByteOrder) (ws : List Half) : List Byte := ws.flatMap fun v => wire16 v bo

/-- The value of two bytes in wire order (41_codec.md R84). -/
def read16 (b0 b1 : Byte) : ByteOrder → Half
  | .bigEndian => BitVec.ofNat 16 (256 * b0.toNat + b1.toNat)
  | .littleEndian => BitVec.ofNat 16 (256 * b1.toNat + b0.toNat)

/-- The two words of a 32-bit value, the one first on the wire first (41_codec.md R85). -/
def wireWords (v : Word) : WordOrder → List Half
  | .highWordFirst => [BitVec.ofNat 16 (v.toNat / 65536), BitVec.ofNat 16 (v.toNat % 65536)]
  | .lowWordFirst => [BitVec.ofNat 16 (v.toNat % 65536), BitVec.ofNat 16 (v.toNat / 65536)]

/-- A 16-bit operand: the low half of an ARG register (10_state.md R35). -/
def low16 (v : Word) : Half := BitVec.ofNat 16 (v.toNat % 65536)

/-- The CRC of 42_checksum.md R95, with R95's two loops as two folds. -/
def crcRef (l : List Byte) : Half :=
  l.foldl (fun crc b =>
    (List.range 8).foldl (fun c _ => if c.toNat % 2 = 1 then (c >>> 1) ^^^ 0xA001 else c >>> 1)
      (crc ^^^ BitVec.ofNat 16 b.toNat)) 0xFFFF

/-- A CRC in wire order (42_checksum.md R97). -/
def crcTail (l : List Byte) : List Byte :=
  [BitVec.ofNat 8 ((crcRef l).toNat % 256), BitVec.ofNat 8 ((crcRef l).toNat / 256)]

/-- The byte sum as a number. -/
def byteSum (l : List Byte) : Nat := (l.map BitVec.toNat).sum

/-- The LRC of 42_checksum.md R96. -/
def lrcRef (l : List Byte) : Byte := BitVec.ofNat 8 (256 - byteSum l % 256)

/-- '0'..'9', 'A'..'F' (45_ascii.md R141). -/
def upperHex : List Byte :=
  [0x30, 0x31, 0x32, 0x33, 0x34, 0x35, 0x36, 0x37, 0x38, 0x39, 0x41, 0x42, 0x43, 0x44, 0x45, 0x46]

/-- '0'..'9', 'a'..'f' (45_ascii.md R142). -/
def lowerHex : List Byte :=
  [0x30, 0x31, 0x32, 0x33, 0x34, 0x35, 0x36, 0x37, 0x38, 0x39, 0x61, 0x62, 0x63, 0x64, 0x65, 0x66]

/-- The character `c` stands for the digit `d`, in either letter case (45_ascii.md R142). -/
def DigitOf (c : Byte) (d : Nat) : Prop := upperHex[d]? = some c ∨ lowerHex[d]? = some c

/-- `c` is no hexadecimal digit. -/
def NoDigit (c : Byte) : Prop := c ∉ upperHex ∧ c ∉ lowerHex

/-- The text `t` spells the bytes `m`: two characters a byte, high nibble first, in either letter case
(45_ascii.md R142). -/
def Spells (t m : List Byte) : Prop :=
  t.length = 2 * m.length ∧ ∀ k, k < m.length →
    DigitOf (byteOf t (2 * k)) ((byteOf m k).toNat / 16) ∧ DigitOf (byteOf t (2 * k + 1)) ((byteOf m k).toNat % 16)

/-- The text `t` is the uppercase hex of the bytes `m` (45_ascii.md R141). -/
def UpperHexOf (t m : List Byte) : Prop :=
  t.length = 2 * m.length ∧ ∀ k, k < m.length →
    upperHex[(byteOf m k).toNat / 16]? = some (byteOf t (2 * k))
      ∧ upperHex[(byteOf m k).toNat % 16]? = some (byteOf t (2 * k + 1))

/-- (k, a, b) is the structured view of the payload `p` of a request with 7-bit code `fc` (44_rtu.md R131). -/
def ViewOf (other : CoilOther) (bo : ByteOrder) (fc : Byte) (p : List Byte) (k : FieldKind) (a b : Half) : Prop :=
  let f0 := read16 (byteOf p 0) (byteOf p 1) bo
  let f1 := read16 (byteOf p 2) (byteOf p 3) bo
  if 4 ≤ p.length ∧ fc ∈ ([0x01, 0x02, 0x03, 0x04] : List Byte) then k = .span ∧ a = f0 ∧ b = f1
  else if 4 ≤ p.length ∧ fc = 0x06 then k = .reg ∧ a = f0 ∧ b = f1
  else if 4 ≤ p.length ∧ fc = 0x05 ∧ f1 = 0xFF00 then k = .coil ∧ a = f0 ∧ b = 1
  else if 4 ≤ p.length ∧ fc = 0x05 ∧ (f1 = 0x0000 ∨ other = .off) then k = .coil ∧ a = f0 ∧ b = 0
  else k = .none ∧ a = 0 ∧ b = 0

/-- EXC holds a real exception (10_state.md R34). -/
def RealException (s : State) : Prop := s.exc.valid = true ∧ s.exc.code ≠ s.cfg.ackCode

/-- The message of a request: slave id, function code, payload (44_rtu.md R126). -/
def RequestMessage (s : State) : List Byte := [s.slave, s.fc] ++ s.payload

/-- The message of an exception response: bit 7 of the function code set, one code byte (30_encoding.md R80). -/
def ExceptionMessage (s : State) : List Byte := [s.slave, s.fc ||| 0x80, s.exc.code]

/-! ### Frames -/

/-- What no command writes: CTRL, ARG0-ARG3, IN_LEN, IN_BUF, and what is not MBFC's. -/
structure OperandsKept (s t : State) : Prop where
  cfg : t.cfg = s.cfg
  bo : t.bo = s.bo
  wo : t.wo = s.wo
  arg0 : t.arg0 = s.arg0
  arg1 : t.arg1 = s.arg1
  arg2 : t.arg2 = s.arg2
  arg3 : t.arg3 = s.arg3
  inLen : t.inLen = s.inLen
  inBytes : ∀ i, t.byteAt .inBuf i = s.byteAt .inBuf i
  draws : t.draws = s.draws
  inputs : t.inputs = s.inputs
  rdata : t.rdata = s.rdata

/-- SLAVE, FC and EXC. -/
structure HeaderKept (s t : State) : Prop where
  slave : t.slave = s.slave
  fc : t.fc = s.fc
  exc : t.exc = s.exc

/-- PDU_LEN, every byte of PDU_BUF, FIELD, FA and FB. -/
structure PayloadKept (s t : State) : Prop where
  pduLen : t.pduLen = s.pduLen
  pduBytes : ∀ i, t.byteAt .pduBuf i = s.byteAt .pduBuf i
  fkind : t.fkind = s.fkind
  fa : t.fa = s.fa
  fb : t.fb = s.fb

/-- OUT_LEN and every byte of OUT_BUF. -/
structure OutputKept (s t : State) : Prop where
  outLen : t.outLen = s.outLen
  outBytes : ∀ i, t.byteAt .outBuf i = s.byteAt .outBuf i

/-- STATUS.FCK and EXB. -/
structure DecodeFlagsKept (s t : State) : Prop where
  fck : t.fck = s.fck
  exb : t.exb = s.exb

/-- Every byte of a buffer from index `n` on. -/
def BytesKeptFrom (b : BufferId) (n : Nat) (s t : State) : Prop :=
  ∀ i, n ≤ i → t.byteAt b i = s.byteAt b i

/-- A command that succeeded with OK = b and wrote RESULT = v, and nothing else. -/
def WroteResult (b : Bool) (v : Word) (s t : State) : Prop :=
  Succeeded b t ∧ t.result = v ∧ OperandsKept s t ∧ HeaderKept s t ∧ PayloadKept s t ∧ OutputKept s t
    ∧ DecodeFlagsKept s t

/-- A command that succeeded with OK = b and wrote nothing but STATUS. -/
def WroteVerdict (b : Bool) (s t : State) : Prop :=
  Succeeded b t ∧ t.result = s.result ∧ OperandsKept s t ∧ HeaderKept s t ∧ PayloadKept s t ∧ OutputKept s t
    ∧ DecodeFlagsKept s t

/-- An encoder that succeeded: `OUT[0..len(p)) = p`, OUT_LEN = len(p), and nothing else written. -/
def WroteOutput (p : List Byte) (s t : State) : Prop :=
  Succeeded true t ∧ t.outLen.toNat = p.length ∧ t.output = p ∧ BytesKeptFrom .outBuf p.length s t
    ∧ t.result = s.result ∧ OperandsKept s t ∧ HeaderKept s t ∧ PayloadKept s t ∧ DecodeFlagsKept s t

/-- A setter that succeeded: `PDU[0..len(p)) = p`, PDU_LEN = len(p), the view (k, a, b), and nothing else written. -/
def WrotePayload (p : List Byte) (k : FieldKind) (a b : Half) (s t : State) : Prop :=
  Succeeded true t ∧ t.pduLen.toNat = p.length ∧ t.payload = p ∧ BytesKeptFrom .pduBuf p.length s t
    ∧ t.fkind = k ∧ t.fa = a ∧ t.fb = b
    ∧ t.result = s.result ∧ OperandsKept s t ∧ HeaderKept s t ∧ OutputKept s t ∧ DecodeFlagsKept s t

/-- A decoder that succeeded on the message `d` (slave id, function code, rest): SLAVE, FC, EXB, FCK from the two
header bytes (44_rtu.md R129, R130), EXC = e, payload p, view (k, a, b), and nothing else written. -/
def WroteMessage (d p : List Byte) (e : Exc) (k : FieldKind) (a b : Half) (s t : State) : Prop :=
  Succeeded true t ∧ t.slave = byteOf d 0 ∧ t.fc.toNat = (byteOf d 1).toNat % 128
    ∧ t.exb = decide (128 ≤ (byteOf d 1).toNat) ∧ t.fck = decide (t.fc ∈ s.cfg.supportedFc) ∧ t.exc = e
    ∧ t.pduLen.toNat = p.length ∧ t.payload = p ∧ BytesKeptFrom .pduBuf p.length s t
    ∧ t.fkind = k ∧ t.fa = a ∧ t.fb = b
    ∧ t.result = s.result ∧ OperandsKept s t ∧ OutputKept s t

/-! ### The checks of the decoders -/

/-- The checks of an RTU decoder `i` and their errors, in the order of 44_rtu.md R128. -/
def RtuFrameChecks (i : Instr) (s : State) : Prop :=
  (s.cfg.bufBytes < s.inLen.toNat → exec i s = .next (afterError .overflow s))
    ∧ (s.inLen.toNat ≤ s.cfg.bufBytes → s.inLen.toNat < 4 → exec i s = .next (afterError .length s))
    ∧ (s.inLen.toNat ≤ s.cfg.bufBytes → 4 ≤ s.inLen.toNat → (∀ d, s.input ≠ d ++ crcTail d) →
        exec i s = .next (afterError .crc s))

/-- The checks of an ASCII decoder `i` and their errors, in the order of 45_ascii.md R146 and R142: `text` stands
between the ':' and the first CR, `m` is the message it spells. -/
def AsciiFrameChecks (i : Instr) (s : State) : Prop :=
  (s.cfg.bufBytes < s.inLen.toNat → exec i s = .next (afterError .overflow s))
    ∧ (s.inLen.toNat ≤ s.cfg.bufBytes → s.input.head? ≠ some 0x3A → exec i s = .next (afterError .start s))
    ∧ (∀ text, s.inLen.toNat ≤ s.cfg.bufBytes → 0x0D ∉ text → s.input = 0x3A :: text →
        exec i s = .next (afterError .delim s))
    ∧ (∀ text tail, s.inLen.toNat ≤ s.cfg.bufBytes → 0x0D ∉ text → s.input = 0x3A :: text ++ 0x0D :: tail →
        (tail.head? ≠ some 0x0A → exec i s = .next (afterError .delim s))
          ∧ (tail.head? = some 0x0A → text.length % 2 = 1 → exec i s = .next (afterError .hexOdd s))
          ∧ (tail.head? = some 0x0A → text.length % 2 = 0 → (∃ c ∈ text, NoDigit c) →
              exec i s = .next (afterError .hexChar s))
          ∧ (∀ m, tail.head? = some 0x0A → Spells text m →
              (m = [] ∨ byteSum m % 256 ≠ 0 → exec i s = .next (afterError .lrc s))
                ∧ (m ≠ [] → byteSum m % 256 = 0 → m.length < 3 → exec i s = .next (afterError .length s))))

/-! ### Tables -/

/-- The function codes a structured setter requires (43_pdu.md R121); none for every other command. -/
def requiredCodes (p : Params) : Instr → Option (List Byte)
  | .setSpan => some p.spanSetCodes
  | .setWsr => some [0x06]
  | .setWsc => some [0x05]
  | .setWmr => some [0x10]
  | .setWmc => some [0x0F]
  | .setDiag => some [0x08]
  | .setMask => some [0x16]
  | .setRwm => some [0x17]
  | .setFifo => some [0x18]
  | .setRfr => some [0x14]
  | .setWfr => some [0x15]
  | .encU16 | .decU16 | .encU32 | .decU32 | .encF32 | .decF32 | .crc16Calc | .crc16Verify | .lrc8Calc
  | .lrc8Verify | .setRaw | .getSpan | .rtuEncReq | .rtuEncRsp | .rtuDecReq | .rtuDecRsp | .rtuChkReq | .rtuChkRsp
  | .ascEncReq | .ascEncRsp | .ascDecReq | .ascDecRsp | .ascChk => none

/-- The errors a command can end in (60_exceptions.md R159). -/
def listedErrors : Instr → List Err
  | .encU16 | .encU32 | .encF32 | .setSpan | .setWsr | .setWsc | .setMask | .setFifo | .getSpan => []
  | .decU16 | .decU32 | .decF32 => [.length, .overflow]
  | .crc16Calc | .crc16Verify | .lrc8Calc | .lrc8Verify | .setRaw | .setDiag | .rtuChkReq | .rtuChkRsp
  | .ascChk => [.overflow]
  | .setWmr | .setRwm => [.overflow, .length, .mismatch, .limit]
  | .setWmc => [.overflow, .mismatch, .limit]
  | .setRfr | .setWfr => [.overflow, .empty, .length, .limit]
  | .rtuEncReq | .rtuEncRsp | .ascEncReq | .ascEncRsp => [.badFc, .overflow]
  | .rtuDecReq | .rtuDecRsp => [.overflow, .length, .crc]
  | .ascDecReq | .ascDecRsp => [.overflow, .start, .delim, .hexOdd, .hexChar, .lrc, .length]

/-- The commands that write RESULT (10_state.md R36). -/
def resultWriters : List Instr :=
  [.decU16, .decU32, .decF32, .crc16Calc, .lrc8Calc, .getSpan, .rtuChkReq, .rtuChkRsp, .ascChk]

/-- The commands that write OUT and OUT_LEN (10_state.md R38). -/
def outputWriters : List Instr :=
  [.encU16, .encU32, .encF32, .rtuEncReq, .rtuEncRsp, .ascEncReq, .ascEncRsp]

/-- The four decoders, which alone write FCK, EXB, SLAVE, FC and EXC (10_state.md R25, 70_reset_and_hazards.md R188). -/
def decoders : List Instr := [.rtuDecReq, .rtuDecRsp, .ascDecReq, .ascDecRsp]

/-- The commands that write the payload (43_pdu.md R124). -/
def payloadWriters : List Instr :=
  [.setRaw, .setSpan, .setWsr, .setWsc, .setWmr, .setWmc, .setDiag, .setMask, .setRwm, .setFifo, .setRfr, .setWfr,
   .rtuDecReq, .rtuDecRsp, .ascDecReq, .ascDecRsp]

/-! ### Host data and accesses -/

/-- A 16-bit list as the host stages it, low byte first (20_memory.md R62). -/
def hostList (ws : List Half) : List Byte :=
  ws.flatMap fun v => [BitVec.ofNat 8 (v.toNat % 256), BitVec.ofNat 8 (v.toNat / 256)]

/-- Write-file records as the host stages them: file, record, n, then n words (43_pdu.md R119, R62). -/
def hostRecords (recs : List (Half × Half × List Half)) : List Byte :=
  recs.flatMap fun r => hostList (r.1 :: r.2.1 :: BitVec.ofNat 16 r.2.2.length :: r.2.2)

/-- An access the interface admits: an aligned 32-bit register access or an 8-bit buffer access
(20_memory.md R51, R52). -/
def Admitted (offset bytes : Nat) : Prop :=
  (offset < 0x1000 ∧ bytes = 4 ∧ offset % 4 = 0) ∨ (0x1000 ≤ offset ∧ offset < 0x4000 ∧ bytes = 1)

/-- The engine is not PENDING. -/
def State.notPending (s : State) : Prop := ∀ c, s.engine ≠ .pending c

/-- `u` is a state in which the host has copied `OUT[0..OUT_LEN)` of `t` into IN and OUT_LEN into IN_LEN, with the
configuration unchanged (70_reset_and_hazards.md R189). The rest of `u` is free. -/
structure CopiedBack (t u : State) : Prop where
  cfg : u.cfg = t.cfg
  bo : u.bo = t.bo
  wo : u.wo = t.wo
  inLen : u.inLen = t.outLen
  bytes : ∀ i, i < t.outLen.toNat → u.byteAt .inBuf i = t.byteAt .outBuf i

/-- Two states that differ only in OUT_LEN, in bytes of OUT_BUF and in buffer bytes outside `IN[0..IN_LEN)` and
`PDU[0..PDU_LEN)` (and in how the bytes inside came to be). -/
def AgreeWithinLengths (s s' : State) : Prop :=
  s.input = s'.input ∧ s.payload = s'.payload
    ∧ { s with inBuf := [], outBuf := [], pduBuf := [], outLen := 0, draws := 0 }
      = { s' with inBuf := [], outBuf := [], pduBuf := [], outLen := 0, draws := 0 }

/-! ### Safe runs -/

/-- The invariant of the machine, which every step keeps. -/
structure State.Inv (s : State) : Prop where
  /-- The parameters are legal (93_implementation_defined.md section 1). -/
  params : s.cfg.wf = true
  /-- IN_BUF is in canonical form and lists no index at or above BUF_BYTES. -/
  inBuf : s.inBuf.wf = true ∧ s.inBuf.below s.cfg.bufBytes = true
  /-- OUT_BUF likewise. -/
  outBuf : s.outBuf.wf = true ∧ s.outBuf.below s.cfg.bufBytes = true
  /-- PDU_BUF likewise. -/
  pduBuf : s.pduBuf.wf = true ∧ s.pduBuf.below s.cfg.bufBytes = true
  /-- OUT_LEN ≤ BUF_BYTES (10_state.md R38). -/
  outLen : s.outLen.toNat ≤ s.cfg.bufBytes
  /-- PDU_LEN ≤ BUF_BYTES (10_state.md R39). -/
  pduLen : s.pduLen.toNat ≤ s.cfg.bufBytes
  /-- Every byte of `OUT[0..OUT_LEN)` was written by the engine: none is a draw (10_state.md R41). -/
  outWritten : ∀ i, i < s.outLen.toNat → s.outBuf.lookup i ≠ none
  /-- Every byte of `PDU[0..PDU_LEN)` was written by the engine: none is a draw (10_state.md R41). -/
  pduWritten : ∀ i, i < s.pduLen.toNat → s.pduBuf.lookup i ≠ none
  /-- "When FKIND = NONE, FA = FB = 0" (10_state.md R42). -/
  viewNone : s.fkind = .none → s.fa = 0 ∧ s.fb = 0
  /-- COIL: FB = 1 for ON or 0 for OFF (10_state.md R42). -/
  viewCoil : s.fkind = .coil → s.fb = 0 ∨ s.fb = 1
  /-- A structured view stands beside a payload of at least 4 bytes (43_pdu.md R106, 44_rtu.md R131). -/
  viewPayload : s.fkind ≠ .none → 4 ≤ s.pduLen.toNat
  /-- DONE is 1 only in IDLE (30_encoding.md R71, 60_exceptions.md R164, R165). -/
  doneIdle : s.done = true → s.engine = .idle
  /-- OK is 1 only with ERR = NONE (10_state.md R24). -/
  okNone : s.ok = true → s.err = .none

/-- A run has ended well: the host makes no further access and the engine is IDLE (60_exceptions.md R177). -/
def State.Final (s : State) : Prop := s.inputs = [] ∧ s.engine = .idle

/-- No fault is standing (60_exceptions.md R164, R165). -/
def State.FaultFree (s : State) : Prop := ∀ c, s.engine ≠ .faulted c

end Sys2Proof.Machine
end

