-- ==== Sys2Proof/Certificates/Slice0/Obligations.lean ====
section
/-! DEFINITION. The statements about MBFC, from the numbered rules of spec/. Each docstring names the rule. -/

open Sys2Proof Sys2Proof.Machine

/-! ### The machine: reset, decoding, the endings of a command -/

/-- 10_state.md R46: the reset state has every value the table gives; a buffer byte is the free draw of the reset
(R41). -/
def Obligations.ResetHasSpecifiedValues : Prop := State.reset.HasResetValues

/-- 30_encoding.md R72: when the pending word decodes to `i`, the engine's step is the meaning of `i`. The engine
steps when its turn is the next event, or when no event is left (Log 1, Log 2). -/
def Obligations.StepRunsTheDecodedCommand : Prop :=
  ∀ (s : State) (c : Word) (i : Instr), s.engine = .pending c → decode c = .ok i →
    (s.inputs = [] → step s = exec i s)
      ∧ ∀ rest, s.inputs = .engineTurn :: rest → step s = exec i { s with inputs := rest }

/-- 30_encoding.md R72, R75: a word with a reserved bit set or an unassigned opcode (by R75's list) completes with
Error(ILLEGAL), and nothing else changes. The engine steps when its turn is the next event, or when no event is left
(Log 1, Log 2). -/
def Obligations.IllegalWordCompletesWithIllegal : Prop :=
  ∀ (s : State) (c : Word), s.engine = .pending c → wfCommandWord c = false →
    (s.inputs = [] → step s = .next (afterError .illegal s))
      ∧ ∀ rest, s.inputs = .engineTurn :: rest → step s = .next (afterError .illegal { s with inputs := rest })

/-- 30_encoding.md R70, R73: every command's word decodes to it, and no other word does. -/
def Obligations.DecodeAndEncodeAgree : Prop :=
  ∀ (c : Word) (i : Instr), decode c = .ok i ↔ c = encode i

/-- 30_encoding.md R73, R75: words written out from the table, one of each family, and words R75 rejects. -/
def Obligations.TableWordsDecode : Prop :=
  decode 0x00000001 = .ok .encU16 ∧ decode 0x00000013 = .ok .lrc8Verify ∧ decode 0x0000002C = .ok .getSpan
    ∧ decode 0x00000035 = .ok .rtuChkRsp ∧ decode 0x00000044 = .ok .ascChk
    ∧ decode 0x00000110 = .error .reservedBits ∧ decode 0x00000007 = .error .unassignedOpcode

/-- 60_exceptions.md R156, R160; 00_scope.md R11: every command ends in exactly one of three ways, an error records
only its code, a fault changes only the engine state and DONE. -/
def Obligations.EveryCommandEndsInOneOfThreeWays : Prop :=
  ∀ (i : Instr) (s : State), ∃ t, exec i s = .next t ∧
    ((∃ b, Succeeded b t) ∨ (∃ e, e ≠ .none ∧ t = afterError e s) ∨ t = afterFault .contract s)

/-- 60_exceptions.md R159: under legal parameters a command ends in no error but those listed for it.
The spec marks this as derived from its other rules. -/
def Obligations.CommandsRaiseOnlyTheirListedErrors : Prop :=
  ∀ (i : Instr) (s t : State), s.cfg.wf = true → exec i s = .next t → t.engine = .idle →
    t.err = .none ∨ t.err ∈ listedErrors i

/-- 43_pdu.md R121, 60_exceptions.md R164: a command faults exactly when it is a structured setter and FC is none of
its required codes; then nothing but the engine state and DONE changes. -/
def Obligations.ContractFaultExactlyOnWrongFunctionCode : Prop :=
  ∀ (i : Instr) (s t : State), exec i s = .next t →
    ((∃ c, t.engine = .faulted c) ↔ ∃ codes, requiredCodes s.cfg i = some codes ∧ s.fc ∉ codes)
      ∧ ((∃ c, t.engine = .faulted c) → t = afterFault .contract s)

/-- 10_state.md R35, R37: no command writes ARG0-ARG3, IN_LEN, CTRL or IN_BUF. -/
def Obligations.NoCommandWritesItsOperands : Prop :=
  ∀ (i : Instr) (s t : State), exec i s = .next t → OperandsKept s t

/-- 10_state.md R25, R36, R38; 70_reset_and_hazards.md R188: which commands write FCK, EXB, SLAVE, FC and EXC, which
RESULT, which OUT; every other command leaves them. -/
def Obligations.RegistersAreWrittenOnlyByTheirCommands : Prop :=
  ∀ (i : Instr) (s t : State), exec i s = .next t →
    (i ∉ decoders → DecodeFlagsKept s t ∧ HeaderKept s t)
      ∧ (i ∉ resultWriters → t.result = s.result)
      ∧ (i ∉ outputWriters → OutputKept s t)

/-- 43_pdu.md R124: in one step of the machine the payload and its view change only by a setter, SET_RAW or a
decoder, or by a reset.
The spec marks this as derived from its other rules. -/
def Obligations.PayloadChangesOnlyByWritersAndReset : Prop :=
  ∀ s t : State, step s = .next t →
    PayloadKept s t
      ∨ (∃ c i, s.engine = .pending c ∧ decode c = .ok i ∧ i ∈ payloadWriters
          ∧ exec i { s with inputs := s.inputs.tail } = .next t)
      ∨ t = { State.resetWith s.cfg with draws := s.draws + 1, inputs := s.inputs.tail, rdata := s.rdata }

/-! ### Codec (41_codec.md) -/

/-- 41_codec.md R87: ENC_U16.
That OUT bytes at and above the new length are kept is Log 17. -/
def Obligations.EncU16WritesTheOperandInByteOrder : Prop :=
  ∀ s : State, ∃ t, exec .encU16 s = .next t ∧ WroteOutput (wire16 (low16 s.arg0) s.bo) s t

/-- 41_codec.md R89, R91: ENC_U32 and ENC_F32 move the same four bytes, word order first, then byte order.
That OUT bytes at and above the new length are kept is Log 17. -/
def Obligations.EncU32AndF32WriteTheSameFourBytes : Prop :=
  ∀ (i : Instr) (s : State), i = .encU32 ∨ i = .encF32 →
    ∃ t, exec i s = .next t ∧ WroteOutput (wireList s.bo (wireWords s.arg0 s.wo)) s t

/-- 41_codec.md R88: DEC_U16, its two errors included. -/
def Obligations.DecU16ReadsTheFirstTwoBytes : Prop :=
  ∀ s : State,
    (s.cfg.bufBytes < s.inLen.toNat → exec .decU16 s = .next (afterError .overflow s))
      ∧ (s.inLen.toNat ≤ s.cfg.bufBytes → s.inLen.toNat < 2 → exec .decU16 s = .next (afterError .length s))
      ∧ (s.inLen.toNat ≤ s.cfg.bufBytes → 2 ≤ s.inLen.toNat →
          ∃ t, exec .decU16 s = .next t ∧
            WroteResult true (BitVec.ofNat 32 (read16 (s.byteAt .inBuf 0) (s.byteAt .inBuf 1) s.bo).toNat) s t)

/-- 41_codec.md R90, R92: DEC_U32 and DEC_F32, their two errors included. -/
def Obligations.DecU32AndF32ReadTheFirstFourBytes : Prop :=
  ∀ (i : Instr) (s : State), i = .decU32 ∨ i = .decF32 →
    (s.cfg.bufBytes < s.inLen.toNat → exec i s = .next (afterError .overflow s))
      ∧ (s.inLen.toNat ≤ s.cfg.bufBytes → s.inLen.toNat < 4 → exec i s = .next (afterError .length s))
      ∧ (s.inLen.toNat ≤ s.cfg.bufBytes → 4 ≤ s.inLen.toNat →
          ∃ t v, exec i s = .next t ∧ WroteResult true v s t ∧
            wireWords v s.wo = [read16 (s.byteAt .inBuf 0) (s.byteAt .inBuf 1) s.bo,
              read16 (s.byteAt .inBuf 2) (s.byteAt .inBuf 3) s.bo])

/-- 41_codec.md R93: encode, copy OUT to IN, decode gives the value back, for every value and every byte and word
order, bit for bit.
The spec marks this as derived from its other rules. -/
def Obligations.CodecRoundTrip : Prop :=
  ∀ s : State, s.cfg.wf = true →
    (∃ t, exec .encU16 s = .next t ∧ ∀ u, CopiedBack t u →
        ∃ w, exec .decU16 u = .next w ∧ Succeeded true w ∧ w.result = BitVec.ofNat 32 (s.arg0.toNat % 65536))
      ∧ (∃ t, exec .encU32 s = .next t ∧ ∀ u, CopiedBack t u →
        ∃ w, exec .decU32 u = .next w ∧ Succeeded true w ∧ w.result = s.arg0)
      ∧ (∃ t, exec .encF32 s = .next t ∧ ∀ u, CopiedBack t u →
        ∃ w, exec .decF32 u = .next w ∧ Succeeded true w ∧ w.result = s.arg0)

/-! ### Checksums (42_checksum.md) -/

/-- 42_checksum.md R98, R100: CRC16_CALC and LRC8_CALC over all of IN, with the CRC of R95 and the LRC of R96. -/
def Obligations.ChecksumsOfAllOfInput : Prop :=
  ∀ s : State,
    (s.cfg.bufBytes < s.inLen.toNat → exec .crc16Calc s = .next (afterError .overflow s)
        ∧ exec .lrc8Calc s = .next (afterError .overflow s))
      ∧ (s.inLen.toNat ≤ s.cfg.bufBytes →
          (∃ t, exec .crc16Calc s = .next t ∧ WroteResult true (BitVec.ofNat 32 (crcRef s.input).toNat) s t)
            ∧ ∃ t, exec .lrc8Calc s = .next t ∧ WroteResult true (BitVec.ofNat 32 (lrcRef s.input).toNat) s t)

/-- 42_checksum.md R99, R101: the verdicts of CRC16_VERIFY and LRC8_VERIFY; a false verdict is no error, and nothing
but STATUS is written. -/
def Obligations.VerifyCommandsGiveTheVerdict : Prop :=
  ∀ s : State,
    (s.cfg.bufBytes < s.inLen.toNat → exec .crc16Verify s = .next (afterError .overflow s)
        ∧ exec .lrc8Verify s = .next (afterError .overflow s))
      ∧ (s.inLen.toNat ≤ s.cfg.bufBytes →
          (∃ b t, exec .crc16Verify s = .next t ∧ WroteVerdict b s t
              ∧ (b = true ↔ ∃ l, s.input = l ++ crcTail l))
            ∧ ∃ b t, exec .lrc8Verify s = .next t ∧ WroteVerdict b s t
              ∧ (b = true ↔ s.input ≠ [] ∧ byteSum s.input % 256 = 0))

/-- 42_checksum.md R102: a sequence with its checksum appended verifies.
The spec marks this as derived from its other rules. -/
def Obligations.AppendedChecksumVerifies : Prop :=
  ∀ (s : State) (l : List Byte), s.inLen.toNat ≤ s.cfg.bufBytes →
    (s.input = l ++ crcTail l → ∃ t, exec .crc16Verify s = .next t ∧ Succeeded true t)
      ∧ (s.input = l ++ [lrcRef l] → ∃ t, exec .lrc8Verify s = .next t ∧ Succeeded true t)

/-- 42_checksum.md R103: flipping any single bit of a frame that verifies makes it fail, for the CRC and for the
LRC.
The spec marks this as derived from its other rules. -/
def Obligations.SingleBitErrorsAreDetected : Prop :=
  ∀ (i : Instr) (s s' t : State) (k j : Nat), i = .crc16Verify ∨ i = .lrc8Verify →
    exec i s = .next t → Succeeded true t → k < s.inLen.toNat → j < 8 →
    s'.cfg = s.cfg → s'.inLen = s.inLen →
    s'.input = s.input.set k (byteOf s.input k ^^^ BitVec.ofNat 8 (2 ^ j)) →
    ∃ t', exec i s' = .next t' ∧ Succeeded false t'

/-- 42_checksum.md R104: the CRC of a sequence with its own CRC appended is 0, and on two bytes or more that is
exactly when CRC16_VERIFY gives OK = 1.
The spec marks this as derived from its other rules. -/
def Obligations.CrcResidueIsZeroExactlyOnValidFrames : Prop :=
  (∀ l : List Byte, crcRef (l ++ crcTail l) = 0)
    ∧ ∀ s : State, 2 ≤ s.inLen.toNat → s.inLen.toNat ≤ s.cfg.bufBytes →
        ∃ t, exec .crc16Verify s = .next t ∧ Succeeded (decide (crcRef s.input = 0)) t

/-! ### PDU setters (43_pdu.md) -/

/-- 43_pdu.md R108: SET_RAW.
That PDU bytes at and above the new length are kept is Log 17. -/
def Obligations.SetRawCopiesInputToPayload : Prop :=
  ∀ s : State,
    (s.cfg.bufBytes < s.inLen.toNat → exec .setRaw s = .next (afterError .overflow s))
      ∧ (s.inLen.toNat ≤ s.cfg.bufBytes →
          ∃ t, exec .setRaw s = .next t ∧ WrotePayload s.input .none 0 0 s t)

/-- 43_pdu.md R109: SET_SPAN.
That PDU bytes at and above the new length are kept is Log 17. -/
def Obligations.SetSpanWritesStartAndCount : Prop :=
  ∀ s : State, s.cfg.wf = true →
    (s.fc ∉ s.cfg.spanSetCodes → exec .setSpan s = .next (afterFault .contract s))
      ∧ (s.fc ∈ s.cfg.spanSetCodes → ∃ t, exec .setSpan s = .next t ∧
          WrotePayload (wireList s.bo [low16 s.arg0, low16 s.arg1]) .span (low16 s.arg0) (low16 s.arg1) s t)

/-- 43_pdu.md R110, R111: SET_WSR and SET_WSC; a coil value is 0xFF00 for ON and 0x0000 for OFF, in CTRL.BO order.
That PDU bytes at and above the new length are kept is Log 17. -/
def Obligations.SetWsrAndSetWscWriteAddressAndValue : Prop :=
  ∀ s : State, s.cfg.wf = true →
    (s.fc ≠ 0x06 → exec .setWsr s = .next (afterFault .contract s))
      ∧ (s.fc = 0x06 → ∃ t, exec .setWsr s = .next t ∧
          WrotePayload (wireList s.bo [low16 s.arg0, low16 s.arg1]) .reg (low16 s.arg0) (low16 s.arg1) s t)
      ∧ (s.fc ≠ 0x05 → exec .setWsc s = .next (afterFault .contract s))
      ∧ (s.fc = 0x05 → s.arg1.toNat % 2 = 1 → ∃ t, exec .setWsc s = .next t ∧
          WrotePayload (wireList s.bo [low16 s.arg0, 0xFF00]) .coil (low16 s.arg0) 1 s t)
      ∧ (s.fc = 0x05 → s.arg1.toNat % 2 = 0 → ∃ t, exec .setWsc s = .next t ∧
          WrotePayload (wireList s.bo [low16 s.arg0, 0x0000]) .coil (low16 s.arg0) 0 s t)

/-- 43_pdu.md R115, R117: SET_MASK and SET_FIFO.
That PDU bytes at and above the new length are kept is Log 17. -/
def Obligations.SetMaskAndSetFifoWriteTheirFields : Prop :=
  ∀ s : State, s.cfg.wf = true →
    (s.fc ≠ 0x16 → exec .setMask s = .next (afterFault .contract s))
      ∧ (s.fc = 0x16 → ∃ t, exec .setMask s = .next t ∧
          WrotePayload (wireList s.bo [low16 s.arg0, low16 s.arg1, low16 s.arg2]) .none 0 0 s t)
      ∧ (s.fc ≠ 0x18 → exec .setFifo s = .next (afterFault .contract s))
      ∧ (s.fc = 0x18 → ∃ t, exec .setFifo s = .next t ∧
          WrotePayload (wireList s.bo [low16 s.arg0]) .none 0 0 s t)

/-- 43_pdu.md R114: SET_DIAG.
That PDU bytes at and above the new length are kept is Log 17. -/
def Obligations.SetDiagWritesSubFunctionAndData : Prop :=
  ∀ s : State, s.cfg.wf = true →
    (s.fc ≠ 0x08 → exec .setDiag s = .next (afterFault .contract s))
      ∧ (s.fc = 0x08 → s.cfg.bufBytes < s.inLen.toNat + 2 → exec .setDiag s = .next (afterError .overflow s))
      ∧ (s.fc = 0x08 → s.inLen.toNat + 2 ≤ s.cfg.bufBytes → ∃ t, exec .setDiag s = .next t ∧
          WrotePayload (wire16 (low16 s.arg0) s.bo ++ s.input) .none 0 0 s t)

/-- 43_pdu.md R112: SET_WMR, with its checks in the order of R112, and OVERFLOW of the payload last (R122). `ws` is
the list the host staged.
That PDU bytes at and above the new length are kept is Log 17. -/
def Obligations.SetWmrWritesTheValueList : Prop :=
  ∀ s : State, s.cfg.wf = true →
    (s.fc ≠ 0x10 → exec .setWmr s = .next (afterFault .contract s))
      ∧ (s.fc = 0x10 → s.cfg.bufBytes < s.inLen.toNat → exec .setWmr s = .next (afterError .overflow s))
      ∧ (s.fc = 0x10 → s.inLen.toNat ≤ s.cfg.bufBytes → s.inLen.toNat % 2 = 1 →
          exec .setWmr s = .next (afterError .length s))
      ∧ (∀ ws, s.fc = 0x10 → s.inLen.toNat ≤ s.cfg.bufBytes → s.input = hostList ws →
          (ws.length ≠ (low16 s.arg1).toNat → exec .setWmr s = .next (afterError .mismatch s))
            ∧ (ws.length = (low16 s.arg1).toNat → 127 < ws.length → exec .setWmr s = .next (afterError .limit s))
            ∧ (ws.length = (low16 s.arg1).toNat → ws.length ≤ 127 → s.cfg.bufBytes < 5 + 2 * ws.length →
                exec .setWmr s = .next (afterError .overflow s))
            ∧ (ws.length = (low16 s.arg1).toNat → ws.length ≤ 127 → 5 + 2 * ws.length ≤ s.cfg.bufBytes →
                ∃ t, exec .setWmr s = .next t ∧
                  WrotePayload (wireList s.bo [low16 s.arg0, low16 s.arg1] ++ [BitVec.ofNat 8 (2 * ws.length)]
                    ++ wireList s.bo ws) .none 0 0 s t))

/-- 43_pdu.md R116: SET_RWM, with its checks in the order of R116, and OVERFLOW of the payload last (R122).
That PDU bytes at and above the new length are kept is Log 17. -/
def Obligations.SetRwmWritesBothSpansAndTheValueList : Prop :=
  ∀ s : State, s.cfg.wf = true →
    (s.fc ≠ 0x17 → exec .setRwm s = .next (afterFault .contract s))
      ∧ (s.fc = 0x17 → s.cfg.bufBytes < s.inLen.toNat → exec .setRwm s = .next (afterError .overflow s))
      ∧ (s.fc = 0x17 → s.inLen.toNat ≤ s.cfg.bufBytes → s.inLen.toNat % 2 = 1 →
          exec .setRwm s = .next (afterError .length s))
      ∧ (∀ ws, s.fc = 0x17 → s.inLen.toNat ≤ s.cfg.bufBytes → s.input = hostList ws →
          (ws.length ≠ (low16 s.arg3).toNat → exec .setRwm s = .next (afterError .mismatch s))
            ∧ (ws.length = (low16 s.arg3).toNat → 127 < ws.length → exec .setRwm s = .next (afterError .limit s))
            ∧ (ws.length = (low16 s.arg3).toNat → ws.length ≤ 127 → s.cfg.bufBytes < 9 + 2 * ws.length →
                exec .setRwm s = .next (afterError .overflow s))
            ∧ (ws.length = (low16 s.arg3).toNat → ws.length ≤ 127 → 9 + 2 * ws.length ≤ s.cfg.bufBytes →
                ∃ t, exec .setRwm s = .next t ∧
                  WrotePayload (wireList s.bo [low16 s.arg0, low16 s.arg1, low16 s.arg2, low16 s.arg3]
                    ++ [BitVec.ofNat 8 (2 * ws.length)] ++ wireList s.bo ws) .none 0 0 s t))

/-- 43_pdu.md R113: SET_WMC; coil 8j + b is bit b of packed byte j, and the bits past the last coil are 0.
Under legal parameters the payload of a list that IN holds always fits, so step 5 of R105 (OVERFLOW) never ends it.
That PDU bytes at and above the new length are kept is Log 17. -/
def Obligations.SetWmcPacksTheCoils : Prop :=
  ∀ s : State, s.cfg.wf = true →
    (s.fc ≠ 0x0F → exec .setWmc s = .next (afterFault .contract s))
      ∧ (s.fc = 0x0F → s.cfg.bufBytes < s.inLen.toNat → exec .setWmc s = .next (afterError .overflow s))
      ∧ (s.fc = 0x0F → s.inLen.toNat ≤ s.cfg.bufBytes → s.inLen ≠ low16 s.arg1 →
          exec .setWmc s = .next (afterError .mismatch s))
      ∧ (s.fc = 0x0F → s.inLen.toNat ≤ s.cfg.bufBytes → s.inLen = low16 s.arg1 → 2040 < s.inLen.toNat →
          exec .setWmc s = .next (afterError .limit s))
      ∧ (s.fc = 0x0F → s.inLen.toNat ≤ s.cfg.bufBytes → s.inLen = low16 s.arg1 → s.inLen.toNat ≤ 2040 →
          ∃ t packed, exec .setWmc s = .next t ∧ packed.length = (s.inLen.toNat + 7) / 8
            ∧ (∀ j b, j < packed.length → b < 8 → (byteOf packed j).getLsbD b
                = decide (8 * j + b < s.inLen.toNat ∧ s.byteAt .inBuf (8 * j + b) ≠ 0))
            ∧ WrotePayload (wireList s.bo [low16 s.arg0, low16 s.arg1] ++ [BitVec.ofNat 8 packed.length] ++ packed)
                .none 0 0 s t)

/-- 43_pdu.md R118: SET_RFR, with its checks in the order of R118; `trs` is the list of (file, record, length)
triples the host staged.
That PDU bytes at and above the new length are kept is Log 17. -/
def Obligations.SetRfrWritesTheSubRequests : Prop :=
  ∀ s : State, s.cfg.wf = true →
    (s.fc ≠ 0x14 → exec .setRfr s = .next (afterFault .contract s))
      ∧ (s.fc = 0x14 → s.cfg.bufBytes < s.inLen.toNat → exec .setRfr s = .next (afterError .overflow s))
      ∧ (s.fc = 0x14 → s.inLen = 0 → exec .setRfr s = .next (afterError .empty s))
      ∧ (s.fc = 0x14 → s.inLen.toNat ≤ s.cfg.bufBytes → s.inLen.toNat % 6 ≠ 0 →
          exec .setRfr s = .next (afterError .length s))
      ∧ (∀ trs : List (Half × Half × Half), s.fc = 0x14 → s.inLen.toNat ≤ s.cfg.bufBytes → trs ≠ [] →
          s.input = trs.flatMap (fun r => hostList [r.1, r.2.1, r.2.2]) →
          (36 < trs.length → exec .setRfr s = .next (afterError .limit s))
            ∧ (trs.length ≤ 36 → s.cfg.bufBytes < 1 + 7 * trs.length →
                exec .setRfr s = .next (afterError .overflow s))
            ∧ (trs.length ≤ 36 → 1 + 7 * trs.length ≤ s.cfg.bufBytes → ∃ t, exec .setRfr s = .next t ∧
                WrotePayload (BitVec.ofNat 8 (7 * trs.length)
                  :: trs.flatMap (fun r => 0x06 :: wireList s.bo [r.1, r.2.1, r.2.2])) .none 0 0 s t))

/-- 43_pdu.md R119: SET_WFR, with its checks in the order of R119; `recs` is the list of (file, record, data) the host
staged, and an IN that is no such list is LENGTH.
That PDU bytes at and above the new length are kept is Log 17. -/
def Obligations.SetWfrWritesTheRecords : Prop :=
  ∀ s : State, s.cfg.wf = true →
    (s.fc ≠ 0x15 → exec .setWfr s = .next (afterFault .contract s))
      ∧ (s.fc = 0x15 → s.cfg.bufBytes < s.inLen.toNat → exec .setWfr s = .next (afterError .overflow s))
      ∧ (s.fc = 0x15 → s.inLen = 0 → exec .setWfr s = .next (afterError .empty s))
      ∧ (s.fc = 0x15 → s.inLen.toNat ≤ s.cfg.bufBytes → (∀ recs, s.input ≠ hostRecords recs) →
          exec .setWfr s = .next (afterError .length s))
      ∧ (∀ recs, s.fc = 0x15 → s.inLen.toNat ≤ s.cfg.bufBytes → recs ≠ [] → s.input = hostRecords recs →
          (255 < (recs.map fun r => 7 + 2 * r.2.2.length).sum → exec .setWfr s = .next (afterError .limit s))
            ∧ ((recs.map fun r => 7 + 2 * r.2.2.length).sum ≤ 255 →
                s.cfg.bufBytes < 1 + (recs.map fun r => 7 + 2 * r.2.2.length).sum →
                exec .setWfr s = .next (afterError .overflow s))
            ∧ ((recs.map fun r => 7 + 2 * r.2.2.length).sum ≤ 255 →
                1 + (recs.map fun r => 7 + 2 * r.2.2.length).sum ≤ s.cfg.bufBytes →
                ∃ t, exec .setWfr s = .next t ∧
                  WrotePayload (BitVec.ofNat 8 (recs.map fun r => 7 + 2 * r.2.2.length).sum
                    :: recs.flatMap (fun r =>
                      0x06 :: wireList s.bo (r.1 :: r.2.1 :: BitVec.ofNat 16 r.2.2.length :: r.2.2))) .none 0 0 s t))

/-- 43_pdu.md R120: GET_SPAN, both verdicts. -/
def Obligations.GetSpanReturnsTheSpanOrNotApplicable : Prop :=
  ∀ s : State,
    (s.fc ∈ s.cfg.spanCodes → 4 ≤ s.pduLen.toNat → ∃ t, exec .getSpan s = .next t ∧
        WroteResult true (BitVec.ofNat 32
          ((read16 (s.byteAt .pduBuf 0) (s.byteAt .pduBuf 1) s.bo).toNat
            + 65536 * (read16 (s.byteAt .pduBuf 2) (s.byteAt .pduBuf 3) s.bo).toNat)) s t)
      ∧ (s.fc ∉ s.cfg.spanCodes ∨ s.pduLen.toNat < 4 → ∃ t, exec .getSpan s = .next t ∧ WroteResult false 0 s t)

/-- 43_pdu.md R123: GET_SPAN right after SET_SPAN gives the span back, in either byte order.
The spec marks this as derived from its other rules. -/
def Obligations.SetSpanThenGetSpan : Prop :=
  ∀ s : State, s.cfg.wf = true → s.fc ∈ s.cfg.spanSetCodes →
    ∃ t w, exec .setSpan s = .next t ∧ exec .getSpan t = .next w ∧ Succeeded true w
      ∧ w.result = BitVec.ofNat 32 ((low16 s.arg0).toNat + 65536 * (low16 s.arg1).toNat)

/-! ### RTU framer (44_rtu.md) -/

/-- 44_rtu.md R125-R127; 10_state.md R34: RTU_ENC_REQ and RTU_ENC_RSP, their errors included; only a real exception is
sent as one, in 5 bytes.
That OUT bytes at and above the new length are kept is Log 17. -/
def Obligations.RtuEncodersBuildTheFrame : Prop :=
  ∀ s : State, s.cfg.wf = true →
    (s.fc ∉ s.cfg.supportedFc → exec .rtuEncReq s = .next (afterError .badFc s))
      ∧ (s.fc ∈ s.cfg.supportedFc → s.cfg.bufBytes < s.pduLen.toNat + 4 →
          exec .rtuEncReq s = .next (afterError .overflow s))
      ∧ (s.fc ∈ s.cfg.supportedFc → s.pduLen.toNat + 4 ≤ s.cfg.bufBytes → ∃ t, exec .rtuEncReq s = .next t ∧
          WroteOutput (RequestMessage s ++ crcTail (RequestMessage s)) s t)
      ∧ (s.fc ∉ s.cfg.supportedFc → exec .rtuEncRsp s = .next (afterError .badFc s))
      ∧ (s.fc ∈ s.cfg.supportedFc → RealException s → ∃ t, exec .rtuEncRsp s = .next t ∧
          WroteOutput (ExceptionMessage s ++ crcTail (ExceptionMessage s)) s t)
      ∧ (s.fc ∈ s.cfg.supportedFc → ¬ RealException s → s.cfg.bufBytes < s.pduLen.toNat + 4 →
          exec .rtuEncRsp s = .next (afterError .overflow s))
      ∧ (s.fc ∈ s.cfg.supportedFc → ¬ RealException s → s.pduLen.toNat + 4 ≤ s.cfg.bufBytes →
          ∃ t, exec .rtuEncRsp s = .next t ∧ WroteOutput (RequestMessage s ++ crcTail (RequestMessage s)) s t)

/-- 44_rtu.md R132: RTU_DEC_REQ: the checks of R128, and on a frame with a good CRC the header (R129, R130), the
payload and its structured view (R131).
That PDU bytes at and above the new length are kept is Log 17. -/
def Obligations.RtuDecodeRequestSetsThePdu : Prop :=
  (∀ s : State, RtuFrameChecks .rtuDecReq s)
    ∧ ∀ (s : State) (d : List Byte), s.inLen.toNat ≤ s.cfg.bufBytes → s.input = d ++ crcTail d → 2 ≤ d.length →
      ∃ t k a b, exec .rtuDecReq s = .next t ∧ WroteMessage d (d.drop 2) ⟨false, 0⟩ k a b s t
        ∧ ViewOf s.cfg.coilOther s.bo t.fc (d.drop 2) k a b

/-- 44_rtu.md R133: RTU_DEC_RSP: the checks of R128, and on a frame with a good CRC an exception, one without its code
byte, and a normal response.
That PDU bytes at and above the new length are kept is Log 17. -/
def Obligations.RtuDecodeResponseSetsThePdu : Prop :=
  (∀ s : State, RtuFrameChecks .rtuDecRsp s)
    ∧ ∀ (s : State) (d : List Byte), s.inLen.toNat ≤ s.cfg.bufBytes → s.input = d ++ crcTail d → 2 ≤ d.length →
      (128 ≤ (byteOf d 1).toNat → d.length < 3 → exec .rtuDecRsp s = .next (afterError .length s))
        ∧ (128 ≤ (byteOf d 1).toNat → 3 ≤ d.length → ∃ t, exec .rtuDecRsp s = .next t ∧
            WroteMessage d [] ⟨true, byteOf d 2⟩ .none 0 0 s t)
        ∧ ((byteOf d 1).toNat < 128 → ∃ t, exec .rtuDecRsp s = .next t ∧
            WroteMessage d (d.drop 2) ⟨true, s.cfg.ackCode⟩ .none 0 0 s t)

/-- 44_rtu.md R135-R137: RTU_CHK_REQ against the minimum table, and RTU_CHK_RSP: the exception test, the byte count,
the write-single codes, then the table. -/
def Obligations.RtuCompletenessChecks : Prop :=
  ∀ s : State,
    (s.cfg.bufBytes < s.inLen.toNat → exec .rtuChkReq s = .next (afterError .overflow s))
      ∧ (s.inLen.toNat ≤ s.cfg.bufBytes → s.inLen.toNat < 2 →
          ∃ t, exec .rtuChkReq s = .next t ∧ WroteResult false 0 s t)
      ∧ (s.inLen.toNat ≤ s.cfg.bufBytes → 2 ≤ s.inLen.toNat →
          ∃ t e, exec .rtuChkReq s = .next t ∧ WroteResult (decide (e ≤ s.inLen.toNat)) (BitVec.ofNat 32 e) s t
            ∧ e = if 1 ≤ (s.byteAt .inBuf 1).toNat ∧ (s.byteAt .inBuf 1).toNat ≤ 6 then 8 else 4)
      ∧ (s.cfg.bufBytes < s.inLen.toNat → exec .rtuChkRsp s = .next (afterError .overflow s))
      ∧ (s.inLen.toNat ≤ s.cfg.bufBytes →
          s.inLen.toNat < 2 ∨ ((s.byteAt .inBuf 1).toNat < 128 ∧ s.byteAt .inBuf 1 ∈ s.cfg.bcCodes
            ∧ s.inLen.toNat < 3) →
          ∃ t, exec .rtuChkRsp s = .next t ∧ WroteResult false 0 s t)
      ∧ (s.inLen.toNat ≤ s.cfg.bufBytes → 2 ≤ s.inLen.toNat →
          ((s.byteAt .inBuf 1).toNat < 128 → s.byteAt .inBuf 1 ∈ s.cfg.bcCodes → 3 ≤ s.inLen.toNat) →
          ∃ t e, exec .rtuChkRsp s = .next t ∧ WroteResult (decide (e ≤ s.inLen.toNat)) (BitVec.ofNat 32 e) s t
            ∧ e = if 128 ≤ (s.byteAt .inBuf 1).toNat then 5
                else if s.byteAt .inBuf 1 ∈ s.cfg.bcCodes then 3 + (s.byteAt .inBuf 2).toNat + 2
                else if s.byteAt .inBuf 1 ∈ s.cfg.wsCodes then 8
                else if 1 ≤ (s.byteAt .inBuf 1).toNat ∧ (s.byteAt .inBuf 1).toNat ≤ 6 then 8 else 4)

/-- 44_rtu.md R139: encode a request, copy OUT to IN, decode: slave id, function code and payload come back, EXB = 0,
FCK = 1, and the view is that of the payload.
The spec marks this as derived from its other rules. -/
def Obligations.RtuRequestRoundTrip : Prop :=
  ∀ s : State, s.cfg.wf = true → s.fc ∈ s.cfg.supportedFc → s.pduLen.toNat + 4 ≤ s.cfg.bufBytes →
    ∃ t, exec .rtuEncReq s = .next t ∧ ∀ u, CopiedBack t u →
      ∃ w, exec .rtuDecReq u = .next w ∧ Succeeded true w ∧ w.slave = s.slave ∧ w.fc = s.fc
        ∧ w.payload = s.payload ∧ w.exb = false ∧ w.fck = true
        ∧ ViewOf s.cfg.coilOther s.bo s.fc s.payload w.fkind w.fa w.fb

/-- 44_rtu.md R140: the same for a response: a real exception comes back exactly, with no payload; any other
response comes back as Acknowledge with its payload.
The spec marks this as derived from its other rules. -/
def Obligations.RtuResponseRoundTrip : Prop :=
  ∀ s : State, s.cfg.wf = true → s.fc ∈ s.cfg.supportedFc →
    (RealException s ∨ s.pduLen.toNat + 4 ≤ s.cfg.bufBytes) →
    ∃ t, exec .rtuEncRsp s = .next t ∧ ∀ u, CopiedBack t u →
      ∃ w, exec .rtuDecRsp u = .next w ∧ Succeeded true w ∧ w.slave = s.slave ∧ w.fc = s.fc
        ∧ (RealException s → w.exc = s.exc ∧ w.pduLen = 0)
        ∧ (¬ RealException s → w.exc = ⟨true, s.cfg.ackCode⟩ ∧ w.payload = s.payload)

/-! ### ASCII framer (45_ascii.md) -/

/-- 45_ascii.md R143-R145; 44_rtu.md R125; 30_encoding.md R80: ASC_ENC_REQ and ASC_ENC_RSP, their errors included:
':', the uppercase hex of the message and its LRC, CR LF; a real exception is always an 11-character frame.
That OUT bytes at and above the new length are kept is Log 17. -/
def Obligations.AsciiEncodersBuildTheFrame : Prop :=
  ∀ s : State, s.cfg.wf = true →
    (s.fc ∉ s.cfg.supportedFc → exec .ascEncReq s = .next (afterError .badFc s))
      ∧ (s.fc ∈ s.cfg.supportedFc → s.cfg.bufBytes < 2 * s.pduLen.toNat + 9 →
          exec .ascEncReq s = .next (afterError .overflow s))
      ∧ (s.fc ∈ s.cfg.supportedFc → 2 * s.pduLen.toNat + 9 ≤ s.cfg.bufBytes → ∃ t text,
          exec .ascEncReq s = .next t ∧ UpperHexOf text (RequestMessage s ++ [lrcRef (RequestMessage s)])
            ∧ WroteOutput (0x3A :: text ++ [0x0D, 0x0A]) s t)
      ∧ (s.fc ∉ s.cfg.supportedFc → exec .ascEncRsp s = .next (afterError .badFc s))
      ∧ (s.fc ∈ s.cfg.supportedFc → RealException s → ∃ t text,
          exec .ascEncRsp s = .next t ∧ UpperHexOf text (ExceptionMessage s ++ [lrcRef (ExceptionMessage s)])
            ∧ WroteOutput (0x3A :: text ++ [0x0D, 0x0A]) s t)
      ∧ (s.fc ∈ s.cfg.supportedFc → ¬ RealException s → s.cfg.bufBytes < 2 * s.pduLen.toNat + 9 →
          exec .ascEncRsp s = .next (afterError .overflow s))
      ∧ (s.fc ∈ s.cfg.supportedFc → ¬ RealException s → 2 * s.pduLen.toNat + 9 ≤ s.cfg.bufBytes → ∃ t text,
          exec .ascEncRsp s = .next t ∧ UpperHexOf text (RequestMessage s ++ [lrcRef (RequestMessage s)])
            ∧ WroteOutput (0x3A :: text ++ [0x0D, 0x0A]) s t)

/-- 45_ascii.md R147: ASC_DEC_REQ: the steps of R146 with their errors, and on a frame whose text spells the message
`d` and its LRC, in either letter case, the header, the payload and its structured view (44_rtu.md R131); bytes after
the LF are ignored.
That PDU bytes at and above the new length are kept is Log 17. -/
def Obligations.AsciiDecodeRequestSetsThePdu : Prop :=
  (∀ s : State, AsciiFrameChecks .ascDecReq s)
    ∧ ∀ (s : State) (d text junk : List Byte), s.inLen.toNat ≤ s.cfg.bufBytes → Spells text (d ++ [lrcRef d]) →
      s.input = 0x3A :: text ++ 0x0D :: 0x0A :: junk → 2 ≤ d.length →
      ∃ t k a b, exec .ascDecReq s = .next t ∧ WroteMessage d (d.drop 2) ⟨false, 0⟩ k a b s t
        ∧ ViewOf s.cfg.coilOther s.bo t.fc (d.drop 2) k a b

/-- 45_ascii.md R148: ASC_DEC_RSP: the steps of R146 with their errors, and on such a frame an exception, one without
its code byte, and a normal response.
That PDU bytes at and above the new length are kept is Log 17. -/
def Obligations.AsciiDecodeResponseSetsThePdu : Prop :=
  (∀ s : State, AsciiFrameChecks .ascDecRsp s)
    ∧ ∀ (s : State) (d text junk : List Byte), s.inLen.toNat ≤ s.cfg.bufBytes → Spells text (d ++ [lrcRef d]) →
      s.input = 0x3A :: text ++ 0x0D :: 0x0A :: junk → 2 ≤ d.length →
      (128 ≤ (byteOf d 1).toNat → d.length < 3 → exec .ascDecRsp s = .next (afterError .length s))
        ∧ (128 ≤ (byteOf d 1).toNat → 3 ≤ d.length → ∃ t, exec .ascDecRsp s = .next t ∧
            WroteMessage d [] ⟨true, byteOf d 2⟩ .none 0 0 s t)
        ∧ ((byteOf d 1).toNat < 128 → ∃ t, exec .ascDecRsp s = .next t ∧
            WroteMessage d (d.drop 2) ⟨true, s.cfg.ackCode⟩ .none 0 0 s t)

/-- 45_ascii.md R150: ASC_CHK finds the first ':' (after `noise` without one) and the first CR LF after it (none
inside `body`), or reports no frame. -/
def Obligations.AsciiCheckFindsTheFirstFrame : Prop :=
  ∀ s : State,
    (s.cfg.bufBytes < s.inLen.toNat → exec .ascChk s = .next (afterError .overflow s))
      ∧ (s.inLen.toNat ≤ s.cfg.bufBytes → 0x3A ∉ s.input → ∃ t, exec .ascChk s = .next t ∧ WroteResult false 0 s t)
      ∧ (∀ noise rest, s.inLen.toNat ≤ s.cfg.bufBytes → 0x3A ∉ noise → s.input = noise ++ 0x3A :: rest →
          ¬ [0x0D, 0x0A] <:+: rest → ∃ t, exec .ascChk s = .next t ∧ WroteResult false 0 s t)
      ∧ (∀ noise body rest, s.inLen.toNat ≤ s.cfg.bufBytes → 0x3A ∉ noise →
          s.input = noise ++ 0x3A :: body ++ 0x0D :: 0x0A :: rest → ¬ [0x0D, 0x0A] <:+: body →
          ∃ t, exec .ascChk s = .next t ∧
            WroteResult true (BitVec.ofNat 32 (noise.length + 65536 * (body.length + 3))) s t)

/-- 45_ascii.md R153: encode, copy OUT to IN, decode, for requests and for responses.
The spec marks this as derived from its other rules. -/
def Obligations.AsciiRoundTrip : Prop :=
  ∀ s : State, s.cfg.wf = true → s.fc ∈ s.cfg.supportedFc →
    (2 * s.pduLen.toNat + 9 ≤ s.cfg.bufBytes →
        ∃ t, exec .ascEncReq s = .next t ∧ ∀ u, CopiedBack t u →
          ∃ w, exec .ascDecReq u = .next w ∧ Succeeded true w ∧ w.slave = s.slave ∧ w.fc = s.fc
            ∧ w.payload = s.payload ∧ w.exb = false ∧ w.fck = true
            ∧ ViewOf s.cfg.coilOther s.bo s.fc s.payload w.fkind w.fa w.fb)
      ∧ (RealException s ∨ 2 * s.pduLen.toNat + 9 ≤ s.cfg.bufBytes →
        ∃ t, exec .ascEncRsp s = .next t ∧ ∀ u, CopiedBack t u →
          ∃ w, exec .ascDecRsp u = .next w ∧ Succeeded true w ∧ w.slave = s.slave ∧ w.fc = s.fc
            ∧ (RealException s → w.exc = s.exc ∧ w.pduLen = 0)
            ∧ (¬ RealException s → w.exc = ⟨true, s.cfg.ackCode⟩ ∧ w.payload = s.payload))

/-- 45_ascii.md R152: a frame made by an ASCII encoder fails with Error(LRC) in both decoders when one character
between ':' and CR LF is changed to a hex digit of another value, and when the two LRC characters are replaced by
the hex of another byte value.
The spec marks this as derived from its other rules. -/
def Obligations.CorruptedAsciiFrameFailsWithLrc : Prop :=
  ∀ (s t u : State) (i j : Instr), s.cfg.wf = true → i = .ascEncReq ∨ i = .ascEncRsp → exec i s = .next t →
    Succeeded true t → u.cfg = t.cfg → u.inLen = t.outLen → j = .ascDecReq ∨ j = .ascDecRsp →
    (∀ k d d' c, 1 ≤ k → k + 2 < t.outLen.toNat → DigitOf (byteOf t.output k) d → DigitOf c d' → d ≠ d' →
        u.input = t.output.set k c → exec j u = .next (afterError .lrc u))
      ∧ ∀ d1 d2 e1 e2 c1 c2, DigitOf (byteOf t.output (t.outLen.toNat - 4)) e1 →
        DigitOf (byteOf t.output (t.outLen.toNat - 3)) e2 → DigitOf c1 d1 → DigitOf c2 d2 →
        16 * d1 + d2 ≠ 16 * e1 + e2 →
        u.input = t.output.take (t.outLen.toNat - 4) ++ [c1, c2, 0x0D, 0x0A] →
        exec j u = .next (afterError .lrc u)

/-! ### Host accesses, hazards, faults and reset -/

/-- 30_encoding.md R71: a CMD write in IDLE is accepted whatever its value, in PENDING it is a hazard, and in FAULTED
it is ignored. -/
def Obligations.CommandWriteIsAcceptedOnlyInIdle : Prop :=
  ∀ (s : State) (v : Word) (rest : List HostEvent), s.inputs = .write 0x004 4 v :: rest →
    (s.engine = .idle → step s = .next { s with inputs := rest, engine := .pending v, done := false })
      ∧ (∀ c, s.engine = .pending c →
          step s = .next { s with inputs := rest, engine := .faulted .hazard, done := false })
      ∧ ∀ c, s.engine = .faulted c → step s = .next { s with inputs := rest }

/-- 60_exceptions.md R165: in PENDING a STATUS read is answered and changes nothing; every other admitted read
and every admitted write but a CTRL write with bit 31 is a hazard: FAULTED, DONE 0, the command discarded, the write
dropped, the read 0. -/
def Obligations.HazardAccessFaultsThePendingCommand : Prop :=
  ∀ (s : State) (c : Word) (offset bytes : Nat) (v : Word) (rest : List HostEvent),
    s.engine = .pending c → Admitted offset bytes →
    (s.inputs = .read 0x008 4 :: rest → step s = .next { s with inputs := rest, rdata := s.statusWord })
      ∧ (s.inputs = .read offset bytes :: rest → offset ≠ 0x008 →
          step s = .next { s with inputs := rest, engine := .faulted .hazard, done := false, rdata := 0 })
      ∧ (s.inputs = .write offset bytes v :: rest → ¬ (offset = 0x000 ∧ 2 ^ 31 ≤ v.toNat) →
          step s = .next { s with inputs := rest, engine := .faulted .hazard, done := false })

/-- 70_reset_and_hazards.md R181, 10_state.md R46: a CTRL write with bit 31 = 1, whatever its other bits, resets every
engine state, and so does the reset input; the buffer bytes are fresh draws (Log 5). -/
def Obligations.ResetFromEveryEngineState : Prop :=
  ∀ (s : State) (v : Word) (rest : List HostEvent),
    (s.inputs = .write 0x000 4 v :: rest ∧ 2 ^ 31 ≤ v.toNat) ∨ s.inputs = .hardwareReset :: rest →
    ∃ t, step s = .next t ∧ t.HasResetValues ∧ t.cfg = s.cfg ∧ t.draws = s.draws + 1 ∧ t.inputs = rest
      ∧ t.rdata = s.rdata

/-- 60_exceptions.md R164; 10_state.md R15: FAULTED stays, with its cause, until a reset, whatever the host does. -/
def Obligations.FaultIsStickyUntilReset : Prop :=
  ∀ (s t : State) (c : FaultCause), s.engine = .faulted c → step s = .next t →
    t.engine = .faulted c
      ∨ ∃ rest, (s.inputs = .hardwareReset :: rest ∨ ∃ v, s.inputs = .write 0x000 4 v :: rest ∧ 2 ^ 31 ≤ v.toNat)
          ∧ t.engine = .idle

/-- 10_state.md R15, 60_exceptions.md R165: in one step, IDLE is left only by a CMD write; PENDING goes to IDLE or to
FAULTED, or is answered a STATUS read and stays as it is. -/
def Obligations.EngineStateMovesAsSpecified : Prop :=
  ∀ s t : State, step s = .next t →
    (s.engine = .idle → t.engine = .idle
        ∨ ∃ v rest, s.inputs = .write 0x004 4 v :: rest ∧ t.engine = .pending v ∧ t.done = false)
      ∧ ∀ c, s.engine = .pending c → (t.engine = .idle ∨ ∃ cause, t.engine = .faulted cause)
        ∨ ∃ rest, s.inputs = .read 0x008 4 :: rest ∧ t = { s with inputs := rest, rdata := s.statusWord }

/-- 10_state.md R24, 60_exceptions.md R163: STATUS.OK and ERR keep the last command's outcome until a pending command
completes, or a reset. -/
def Obligations.OutcomeIsKeptUntilTheNextCommandEnds : Prop :=
  ∀ s t : State, step s = .next t →
    (t.ok = s.ok ∧ t.err = s.err)
      ∨ (∃ c, s.engine = .pending c ∧ t.engine = .idle ∧ t.done = true)
      ∨ t.HasResetValues

/-- 10_state.md R18-R20, R27, R28, R30, R35, R37, R40: what a host write of each read/write register and of an IN_BUF
byte leaves while no command is pending, in IDLE and in FAULTED (for
CTRL in FAULTED see Log 14). -/
def Obligations.HostWritesTakeEffect : Prop :=
  ∀ (s : State) (v : Word) (rest : List HostEvent), s.notPending →
    (v.toNat < 2 ^ 31 → ∃ bo wo,
        step { s with inputs := .write 0x000 4 v :: rest } = .next { s with inputs := rest, bo := bo, wo := wo }
        ∧ bo = (if v.toNat % 2 = 1 then .littleEndian else .bigEndian)
        ∧ wo = (if v.toNat / 2 % 2 = 1 then .lowWordFirst else .highWordFirst))
      ∧ step { s with inputs := .write 0x00C 4 v :: rest }
          = .next { s with inputs := rest, slave := BitVec.ofNat 8 v.toNat }
      ∧ step { s with inputs := .write 0x010 4 v :: rest }
          = .next { s with inputs := rest, fc := BitVec.ofNat 8 v.toNat }
      ∧ step { s with inputs := .write 0x014 4 v :: rest }
          = .next { s with inputs := rest, exc := ⟨decide (v.toNat / 256 % 2 = 1), BitVec.ofNat 8 v.toNat⟩ }
      ∧ step { s with inputs := .write 0x018 4 v :: rest } = .next { s with inputs := rest, arg0 := v }
      ∧ step { s with inputs := .write 0x01C 4 v :: rest } = .next { s with inputs := rest, arg1 := v }
      ∧ step { s with inputs := .write 0x020 4 v :: rest } = .next { s with inputs := rest, arg2 := v }
      ∧ step { s with inputs := .write 0x024 4 v :: rest } = .next { s with inputs := rest, arg3 := v }
      ∧ step { s with inputs := .write 0x02C 4 v :: rest }
          = .next { s with inputs := rest, inLen := BitVec.ofNat 16 v.toNat }
      ∧ ∀ i, i < s.cfg.bufBytes → i < 4096 →
          ∃ t, step { s with inputs := .write (0x1000 + i) 1 v :: rest } = .next t
            ∧ { t with inBuf := s.inBuf } = { s with inputs := rest }
            ∧ t.byteAt .inBuf i = BitVec.ofNat 8 v.toNat
            ∧ ∀ j, j ≠ i → t.byteAt .inBuf j = s.byteAt .inBuf j

/-- 10_state.md R17-R42, 20_memory.md R54: what a host read of each register and buffer byte returns while no command
is pending; no read changes MBFC. The answer stands in `rdata` (Log 8). -/
def Obligations.HostReadsReturnTheState : Prop :=
  ∀ (s : State) (rest : List HostEvent), s.notPending →
    (∀ offset v, (offset, v) ∈ [
        (0x000, BitVec.ofNat 32 ((if s.bo = .littleEndian then 1 else 0) + (if s.wo = .lowWordFirst then 2 else 0))),
        (0x004, 0), (0x008, s.statusWord), (0x00C, BitVec.ofNat 32 s.slave.toNat), (0x010, BitVec.ofNat 32 s.fc.toNat),
        (0x014, BitVec.ofNat 32 (s.exc.code.toNat + if s.exc.valid then 256 else 0)), (0x018, s.arg0),
        (0x01C, s.arg1), (0x020, s.arg2), (0x024, s.arg3), (0x028, s.result), (0x02C, BitVec.ofNat 32 s.inLen.toNat),
        (0x030, BitVec.ofNat 32 s.outLen.toNat), (0x034, BitVec.ofNat 32 s.pduLen.toNat),
        (0x038, BitVec.ofNat 32 (List.idxOf s.fkind [.none, .span, .reg, .coil])),
        (0x03C, BitVec.ofNat 32 s.fa.toNat), (0x040, BitVec.ofNat 32 s.fb.toNat)] →
      step { s with inputs := .read offset 4 :: rest } = .next { s with inputs := rest, rdata := v })
      ∧ ∀ i, i < s.cfg.bufBytes → i < 4096 →
          step { s with inputs := .read (0x1000 + i) 1 :: rest }
              = .next { s with inputs := rest, rdata := BitVec.ofNat 32 (s.byteAt .inBuf i).toNat }
            ∧ step { s with inputs := .read (0x2000 + i) 1 :: rest }
              = .next { s with inputs := rest, rdata := BitVec.ofNat 32 (s.byteAt .outBuf i).toNat }
            ∧ step { s with inputs := .read (0x3000 + i) 1 :: rest }
              = .next { s with inputs := rest, rdata := BitVec.ofNat 32 (s.byteAt .pduBuf i).toNat }

/-- 10_state.md R23, 60_exceptions.md R157: the fields of the STATUS word, bit by bit, and the numbers of ERR. -/
def Obligations.StatusWordHasItsFields : Prop :=
  ∀ s : State,
    (s.statusWord.getLsbD 0 = true ↔ ∃ c, s.engine = .pending c)
      ∧ s.statusWord.getLsbD 1 = s.done ∧ s.statusWord.getLsbD 2 = s.ok ∧ s.statusWord.getLsbD 3 = s.fck
      ∧ s.statusWord.getLsbD 4 = s.exb ∧ s.statusWord.extractLsb' 5 3 = 0
      ∧ (s.statusWord.extractLsb' 8 4).toNat = List.idxOf s.err [.none, .illegal, .length, .crc, .lrc, .start, .delim,
          .hexOdd, .hexChar, .badFc, .mismatch, .empty, .limit, .overflow]
      ∧ (s.statusWord.getLsbD 12 = true ↔ ∃ c, s.engine = .faulted c)
      ∧ (s.engine = .faulted .contract → s.statusWord.extractLsb' 13 2 = 1)
      ∧ (s.engine = .faulted .hazard → s.statusWord.extractLsb' 13 2 = 2)
      ∧ ((∀ c, s.engine ≠ .faulted c) → s.statusWord.extractLsb' 13 2 = 0)
      ∧ s.statusWord.extractLsb' 15 17 = 0

/-- 10_state.md R43, 20_memory.md R52: while no command is pending, reserved offsets and buffer bytes at or above
BUF_BYTES read 0 and ignore writes, writes to read-only registers and buffers are ignored, and CMD reads 0. -/
def Obligations.ReservedAndReadOnlyLocationsIgnoreWrites : Prop :=
  ∀ (s : State) (offset bytes : Nat) (v : Word) (rest : List HostEvent), s.notPending → Admitted offset bytes →
    (((0x044 ≤ offset ∧ offset < 0x1000) ∨ (0x1000 ≤ offset ∧ s.cfg.bufBytes ≤ offset % 0x1000)) →
        step { s with inputs := .read offset bytes :: rest } = .next { s with inputs := rest, rdata := 0 }
          ∧ step { s with inputs := .write offset bytes v :: rest } = .next { s with inputs := rest })
      ∧ (offset ∈ [0x008, 0x028, 0x030, 0x034, 0x038, 0x03C, 0x040] ∨ 0x2000 ≤ offset →
        step { s with inputs := .write offset bytes v :: rest } = .next { s with inputs := rest })
      ∧ (offset = 0x004 →
        step { s with inputs := .read offset bytes :: rest } = .next { s with inputs := rest, rdata := 0 })

/-- 20_memory.md R51, R52; 95_test_vectors.md VW14: an access in the window that is no aligned 32-bit register access
and no 8-bit buffer access has no step, in any engine state; an admitted one always has one. -/
def Obligations.OnlyAdmittedAccessesHaveAStep : Prop :=
  ∀ (s : State) (offset bytes : Nat) (v : Word) (rest : List HostEvent), offset < 0x4000 →
    (Admitted offset bytes → (∃ t, step { s with inputs := .read offset bytes :: rest } = .next t)
        ∧ ∃ t, step { s with inputs := .write offset bytes v :: rest } = .next t)
      ∧ (¬ Admitted offset bytes → (∃ r, step { s with inputs := .read offset bytes :: rest } = .refused r)
        ∧ ∃ r, step { s with inputs := .write offset bytes v :: rest } = .refused r)

/-- 70_reset_and_hazards.md R193, 20_memory.md R63: `n` polls of STATUS and then the engine's step: the polls see
BUSY and disturb nothing, and the command is the one accepted (Log 2). -/
def Obligations.PolledCommandCompletes : Prop :=
  ∀ (n : Nat) (s : State) (c : Word) (i : Instr), s.engine = .pending c → decode c = .ok i →
    s.inputs = List.replicate n (.read 0x008 4) →
    Sys2Proof.core.run (n + 1) s
      = exec i { s with inputs := [], rdata := if n = 0 then s.rdata else s.statusWord }

/-- 10_state.md R41: no command reads a buffer byte outside `IN[0..IN_LEN)` or `PDU[0..PDU_LEN)`, and none reads OUT:
two states that agree inside these lengths, OUT left free, end in states that agree inside the lengths, and in the
same OUT where an encoder succeeds. -/
def Obligations.NoCommandReadsBytesOutsideTheLengths : Prop :=
  ∀ (i : Instr) (s s' : State), s.cfg.wf = true → AgreeWithinLengths s s' →
    ∃ t t', exec i s = .next t ∧ exec i s' = .next t' ∧ AgreeWithinLengths t t'
      ∧ (i ∈ outputWriters → Succeeded true t → t.outLen = t'.outLen ∧ t.output = t'.output)

/-! ### The invariant -/

/-- The reset state meets the invariant. -/
def Obligations.ResetMeetsTheInvariant : Prop := State.reset.Inv

/-- 10_state.md R38, R39, R42: every step of the machine keeps the invariant, from every state that meets it. -/
def Obligations.EveryStepKeepsTheInvariant : Prop :=
  ∀ s t : State, s.Inv → step s = .next t → t.Inv
end

