-- ==== Sys2Proof/Laws/State.lean ====
section
/-! SUPPORT. One lemma per field per update of State, each true by rfl, so that no proof unfolds a record update. -/

namespace Sys2Proof.Machine

variable (s : State)

@[simp] theorem putResult_cfg (v : Word) : (putResult v s).cfg = s.cfg := rfl
@[simp] theorem putResult_engine (v : Word) : (putResult v s).engine = s.engine := rfl
@[simp] theorem putResult_bo (v : Word) : (putResult v s).bo = s.bo := rfl
@[simp] theorem putResult_wo (v : Word) : (putResult v s).wo = s.wo := rfl
@[simp] theorem putResult_done (v : Word) : (putResult v s).done = s.done := rfl
@[simp] theorem putResult_ok (v : Word) : (putResult v s).ok = s.ok := rfl
@[simp] theorem putResult_fck (v : Word) : (putResult v s).fck = s.fck := rfl
@[simp] theorem putResult_exb (v : Word) : (putResult v s).exb = s.exb := rfl
@[simp] theorem putResult_err (v : Word) : (putResult v s).err = s.err := rfl
@[simp] theorem putResult_slave (v : Word) : (putResult v s).slave = s.slave := rfl
@[simp] theorem putResult_fc (v : Word) : (putResult v s).fc = s.fc := rfl
@[simp] theorem putResult_exc (v : Word) : (putResult v s).exc = s.exc := rfl
@[simp] theorem putResult_arg0 (v : Word) : (putResult v s).arg0 = s.arg0 := rfl
@[simp] theorem putResult_arg1 (v : Word) : (putResult v s).arg1 = s.arg1 := rfl
@[simp] theorem putResult_arg2 (v : Word) : (putResult v s).arg2 = s.arg2 := rfl
@[simp] theorem putResult_arg3 (v : Word) : (putResult v s).arg3 = s.arg3 := rfl
@[simp] theorem putResult_result (v : Word) : (putResult v s).result = v := rfl
@[simp] theorem putResult_inLen (v : Word) : (putResult v s).inLen = s.inLen := rfl
@[simp] theorem putResult_outLen (v : Word) : (putResult v s).outLen = s.outLen := rfl
@[simp] theorem putResult_pduLen (v : Word) : (putResult v s).pduLen = s.pduLen := rfl
@[simp] theorem putResult_fkind (v : Word) : (putResult v s).fkind = s.fkind := rfl
@[simp] theorem putResult_fa (v : Word) : (putResult v s).fa = s.fa := rfl
@[simp] theorem putResult_fb (v : Word) : (putResult v s).fb = s.fb := rfl
@[simp] theorem putResult_inBuf (v : Word) : (putResult v s).inBuf = s.inBuf := rfl
@[simp] theorem putResult_outBuf (v : Word) : (putResult v s).outBuf = s.outBuf := rfl
@[simp] theorem putResult_pduBuf (v : Word) : (putResult v s).pduBuf = s.pduBuf := rfl
@[simp] theorem putResult_draws (v : Word) : (putResult v s).draws = s.draws := rfl
@[simp] theorem putResult_inputs (v : Word) : (putResult v s).inputs = s.inputs := rfl
@[simp] theorem putResult_rdata (v : Word) : (putResult v s).rdata = s.rdata := rfl

@[simp] theorem putOut_cfg (p : List Byte) : (putOut p s).cfg = s.cfg := rfl
@[simp] theorem putOut_engine (p : List Byte) : (putOut p s).engine = s.engine := rfl
@[simp] theorem putOut_bo (p : List Byte) : (putOut p s).bo = s.bo := rfl
@[simp] theorem putOut_wo (p : List Byte) : (putOut p s).wo = s.wo := rfl
@[simp] theorem putOut_done (p : List Byte) : (putOut p s).done = s.done := rfl
@[simp] theorem putOut_ok (p : List Byte) : (putOut p s).ok = s.ok := rfl
@[simp] theorem putOut_fck (p : List Byte) : (putOut p s).fck = s.fck := rfl
@[simp] theorem putOut_exb (p : List Byte) : (putOut p s).exb = s.exb := rfl
@[simp] theorem putOut_err (p : List Byte) : (putOut p s).err = s.err := rfl
@[simp] theorem putOut_slave (p : List Byte) : (putOut p s).slave = s.slave := rfl
@[simp] theorem putOut_fc (p : List Byte) : (putOut p s).fc = s.fc := rfl
@[simp] theorem putOut_exc (p : List Byte) : (putOut p s).exc = s.exc := rfl
@[simp] theorem putOut_arg0 (p : List Byte) : (putOut p s).arg0 = s.arg0 := rfl
@[simp] theorem putOut_arg1 (p : List Byte) : (putOut p s).arg1 = s.arg1 := rfl
@[simp] theorem putOut_arg2 (p : List Byte) : (putOut p s).arg2 = s.arg2 := rfl
@[simp] theorem putOut_arg3 (p : List Byte) : (putOut p s).arg3 = s.arg3 := rfl
@[simp] theorem putOut_result (p : List Byte) : (putOut p s).result = s.result := rfl
@[simp] theorem putOut_inLen (p : List Byte) : (putOut p s).inLen = s.inLen := rfl
@[simp] theorem putOut_outLen (p : List Byte) : (putOut p s).outLen = BitVec.ofNat 16 p.length := rfl
@[simp] theorem putOut_pduLen (p : List Byte) : (putOut p s).pduLen = s.pduLen := rfl
@[simp] theorem putOut_fkind (p : List Byte) : (putOut p s).fkind = s.fkind := rfl
@[simp] theorem putOut_fa (p : List Byte) : (putOut p s).fa = s.fa := rfl
@[simp] theorem putOut_fb (p : List Byte) : (putOut p s).fb = s.fb := rfl
@[simp] theorem putOut_inBuf (p : List Byte) : (putOut p s).inBuf = s.inBuf := rfl
@[simp] theorem putOut_outBuf (p : List Byte) : (putOut p s).outBuf = s.outBuf.storeAll 0 p := rfl
@[simp] theorem putOut_pduBuf (p : List Byte) : (putOut p s).pduBuf = s.pduBuf := rfl
@[simp] theorem putOut_draws (p : List Byte) : (putOut p s).draws = s.draws := rfl
@[simp] theorem putOut_inputs (p : List Byte) : (putOut p s).inputs = s.inputs := rfl
@[simp] theorem putOut_rdata (p : List Byte) : (putOut p s).rdata = s.rdata := rfl

@[simp] theorem putPayload_cfg (p : List Byte) : (putPayload p s).cfg = s.cfg := rfl
@[simp] theorem putPayload_engine (p : List Byte) : (putPayload p s).engine = s.engine := rfl
@[simp] theorem putPayload_bo (p : List Byte) : (putPayload p s).bo = s.bo := rfl
@[simp] theorem putPayload_wo (p : List Byte) : (putPayload p s).wo = s.wo := rfl
@[simp] theorem putPayload_done (p : List Byte) : (putPayload p s).done = s.done := rfl
@[simp] theorem putPayload_ok (p : List Byte) : (putPayload p s).ok = s.ok := rfl
@[simp] theorem putPayload_fck (p : List Byte) : (putPayload p s).fck = s.fck := rfl
@[simp] theorem putPayload_exb (p : List Byte) : (putPayload p s).exb = s.exb := rfl
@[simp] theorem putPayload_err (p : List Byte) : (putPayload p s).err = s.err := rfl
@[simp] theorem putPayload_slave (p : List Byte) : (putPayload p s).slave = s.slave := rfl
@[simp] theorem putPayload_fc (p : List Byte) : (putPayload p s).fc = s.fc := rfl
@[simp] theorem putPayload_exc (p : List Byte) : (putPayload p s).exc = s.exc := rfl
@[simp] theorem putPayload_arg0 (p : List Byte) : (putPayload p s).arg0 = s.arg0 := rfl
@[simp] theorem putPayload_arg1 (p : List Byte) : (putPayload p s).arg1 = s.arg1 := rfl
@[simp] theorem putPayload_arg2 (p : List Byte) : (putPayload p s).arg2 = s.arg2 := rfl
@[simp] theorem putPayload_arg3 (p : List Byte) : (putPayload p s).arg3 = s.arg3 := rfl
@[simp] theorem putPayload_result (p : List Byte) : (putPayload p s).result = s.result := rfl
@[simp] theorem putPayload_inLen (p : List Byte) : (putPayload p s).inLen = s.inLen := rfl
@[simp] theorem putPayload_outLen (p : List Byte) : (putPayload p s).outLen = s.outLen := rfl
@[simp] theorem putPayload_pduLen (p : List Byte) : (putPayload p s).pduLen = BitVec.ofNat 16 p.length := rfl
@[simp] theorem putPayload_fkind (p : List Byte) : (putPayload p s).fkind = s.fkind := rfl
@[simp] theorem putPayload_fa (p : List Byte) : (putPayload p s).fa = s.fa := rfl
@[simp] theorem putPayload_fb (p : List Byte) : (putPayload p s).fb = s.fb := rfl
@[simp] theorem putPayload_inBuf (p : List Byte) : (putPayload p s).inBuf = s.inBuf := rfl
@[simp] theorem putPayload_outBuf (p : List Byte) : (putPayload p s).outBuf = s.outBuf := rfl
@[simp] theorem putPayload_pduBuf (p : List Byte) : (putPayload p s).pduBuf = s.pduBuf.storeAll 0 p := rfl
@[simp] theorem putPayload_draws (p : List Byte) : (putPayload p s).draws = s.draws := rfl
@[simp] theorem putPayload_inputs (p : List Byte) : (putPayload p s).inputs = s.inputs := rfl
@[simp] theorem putPayload_rdata (p : List Byte) : (putPayload p s).rdata = s.rdata := rfl

@[simp] theorem dropPayload_cfg : (dropPayload s).cfg = s.cfg := rfl
@[simp] theorem dropPayload_engine : (dropPayload s).engine = s.engine := rfl
@[simp] theorem dropPayload_bo : (dropPayload s).bo = s.bo := rfl
@[simp] theorem dropPayload_wo : (dropPayload s).wo = s.wo := rfl
@[simp] theorem dropPayload_done : (dropPayload s).done = s.done := rfl
@[simp] theorem dropPayload_ok : (dropPayload s).ok = s.ok := rfl
@[simp] theorem dropPayload_fck : (dropPayload s).fck = s.fck := rfl
@[simp] theorem dropPayload_exb : (dropPayload s).exb = s.exb := rfl
@[simp] theorem dropPayload_err : (dropPayload s).err = s.err := rfl
@[simp] theorem dropPayload_slave : (dropPayload s).slave = s.slave := rfl
@[simp] theorem dropPayload_fc : (dropPayload s).fc = s.fc := rfl
@[simp] theorem dropPayload_exc : (dropPayload s).exc = s.exc := rfl
@[simp] theorem dropPayload_arg0 : (dropPayload s).arg0 = s.arg0 := rfl
@[simp] theorem dropPayload_arg1 : (dropPayload s).arg1 = s.arg1 := rfl
@[simp] theorem dropPayload_arg2 : (dropPayload s).arg2 = s.arg2 := rfl
@[simp] theorem dropPayload_arg3 : (dropPayload s).arg3 = s.arg3 := rfl
@[simp] theorem dropPayload_result : (dropPayload s).result = s.result := rfl
@[simp] theorem dropPayload_inLen : (dropPayload s).inLen = s.inLen := rfl
@[simp] theorem dropPayload_outLen : (dropPayload s).outLen = s.outLen := rfl
@[simp] theorem dropPayload_pduLen : (dropPayload s).pduLen = 0 := rfl
@[simp] theorem dropPayload_fkind : (dropPayload s).fkind = s.fkind := rfl
@[simp] theorem dropPayload_fa : (dropPayload s).fa = s.fa := rfl
@[simp] theorem dropPayload_fb : (dropPayload s).fb = s.fb := rfl
@[simp] theorem dropPayload_inBuf : (dropPayload s).inBuf = s.inBuf := rfl
@[simp] theorem dropPayload_outBuf : (dropPayload s).outBuf = s.outBuf := rfl
@[simp] theorem dropPayload_pduBuf : (dropPayload s).pduBuf = s.pduBuf := rfl
@[simp] theorem dropPayload_draws : (dropPayload s).draws = s.draws := rfl
@[simp] theorem dropPayload_inputs : (dropPayload s).inputs = s.inputs := rfl
@[simp] theorem dropPayload_rdata : (dropPayload s).rdata = s.rdata := rfl

@[simp] theorem putView_cfg (k : FieldKind) (a b : Half) : (putView k a b s).cfg = s.cfg := rfl
@[simp] theorem putView_engine (k : FieldKind) (a b : Half) : (putView k a b s).engine = s.engine := rfl
@[simp] theorem putView_bo (k : FieldKind) (a b : Half) : (putView k a b s).bo = s.bo := rfl
@[simp] theorem putView_wo (k : FieldKind) (a b : Half) : (putView k a b s).wo = s.wo := rfl
@[simp] theorem putView_done (k : FieldKind) (a b : Half) : (putView k a b s).done = s.done := rfl
@[simp] theorem putView_ok (k : FieldKind) (a b : Half) : (putView k a b s).ok = s.ok := rfl
@[simp] theorem putView_fck (k : FieldKind) (a b : Half) : (putView k a b s).fck = s.fck := rfl
@[simp] theorem putView_exb (k : FieldKind) (a b : Half) : (putView k a b s).exb = s.exb := rfl
@[simp] theorem putView_err (k : FieldKind) (a b : Half) : (putView k a b s).err = s.err := rfl
@[simp] theorem putView_slave (k : FieldKind) (a b : Half) : (putView k a b s).slave = s.slave := rfl
@[simp] theorem putView_fc (k : FieldKind) (a b : Half) : (putView k a b s).fc = s.fc := rfl
@[simp] theorem putView_exc (k : FieldKind) (a b : Half) : (putView k a b s).exc = s.exc := rfl
@[simp] theorem putView_arg0 (k : FieldKind) (a b : Half) : (putView k a b s).arg0 = s.arg0 := rfl
@[simp] theorem putView_arg1 (k : FieldKind) (a b : Half) : (putView k a b s).arg1 = s.arg1 := rfl
@[simp] theorem putView_arg2 (k : FieldKind) (a b : Half) : (putView k a b s).arg2 = s.arg2 := rfl
@[simp] theorem putView_arg3 (k : FieldKind) (a b : Half) : (putView k a b s).arg3 = s.arg3 := rfl
@[simp] theorem putView_result (k : FieldKind) (a b : Half) : (putView k a b s).result = s.result := rfl
@[simp] theorem putView_inLen (k : FieldKind) (a b : Half) : (putView k a b s).inLen = s.inLen := rfl
@[simp] theorem putView_outLen (k : FieldKind) (a b : Half) : (putView k a b s).outLen = s.outLen := rfl
@[simp] theorem putView_pduLen (k : FieldKind) (a b : Half) : (putView k a b s).pduLen = s.pduLen := rfl
@[simp] theorem putView_fkind (k : FieldKind) (a b : Half) : (putView k a b s).fkind = k := rfl
@[simp] theorem putView_fa (k : FieldKind) (a b : Half) : (putView k a b s).fa = a := rfl
@[simp] theorem putView_fb (k : FieldKind) (a b : Half) : (putView k a b s).fb = b := rfl
@[simp] theorem putView_inBuf (k : FieldKind) (a b : Half) : (putView k a b s).inBuf = s.inBuf := rfl
@[simp] theorem putView_outBuf (k : FieldKind) (a b : Half) : (putView k a b s).outBuf = s.outBuf := rfl
@[simp] theorem putView_pduBuf (k : FieldKind) (a b : Half) : (putView k a b s).pduBuf = s.pduBuf := rfl
@[simp] theorem putView_draws (k : FieldKind) (a b : Half) : (putView k a b s).draws = s.draws := rfl
@[simp] theorem putView_inputs (k : FieldKind) (a b : Half) : (putView k a b s).inputs = s.inputs := rfl
@[simp] theorem putView_rdata (k : FieldKind) (a b : Half) : (putView k a b s).rdata = s.rdata := rfl

@[simp] theorem putHeader_cfg (sl f : Byte) (x k : Bool) (e : Exc) : (putHeader sl f x k e s).cfg = s.cfg := rfl
@[simp] theorem putHeader_engine (sl f : Byte) (x k : Bool) (e : Exc) : (putHeader sl f x k e s).engine = s.engine := rfl
@[simp] theorem putHeader_bo (sl f : Byte) (x k : Bool) (e : Exc) : (putHeader sl f x k e s).bo = s.bo := rfl
@[simp] theorem putHeader_wo (sl f : Byte) (x k : Bool) (e : Exc) : (putHeader sl f x k e s).wo = s.wo := rfl
@[simp] theorem putHeader_done (sl f : Byte) (x k : Bool) (e : Exc) : (putHeader sl f x k e s).done = s.done := rfl
@[simp] theorem putHeader_ok (sl f : Byte) (x k : Bool) (e : Exc) : (putHeader sl f x k e s).ok = s.ok := rfl
@[simp] theorem putHeader_fck (sl f : Byte) (x k : Bool) (e : Exc) : (putHeader sl f x k e s).fck = k := rfl
@[simp] theorem putHeader_exb (sl f : Byte) (x k : Bool) (e : Exc) : (putHeader sl f x k e s).exb = x := rfl
@[simp] theorem putHeader_err (sl f : Byte) (x k : Bool) (e : Exc) : (putHeader sl f x k e s).err = s.err := rfl
@[simp] theorem putHeader_slave (sl f : Byte) (x k : Bool) (e : Exc) : (putHeader sl f x k e s).slave = sl := rfl
@[simp] theorem putHeader_fc (sl f : Byte) (x k : Bool) (e : Exc) : (putHeader sl f x k e s).fc = f := rfl
@[simp] theorem putHeader_exc (sl f : Byte) (x k : Bool) (e : Exc) : (putHeader sl f x k e s).exc = e := rfl
@[simp] theorem putHeader_arg0 (sl f : Byte) (x k : Bool) (e : Exc) : (putHeader sl f x k e s).arg0 = s.arg0 := rfl
@[simp] theorem putHeader_arg1 (sl f : Byte) (x k : Bool) (e : Exc) : (putHeader sl f x k e s).arg1 = s.arg1 := rfl
@[simp] theorem putHeader_arg2 (sl f : Byte) (x k : Bool) (e : Exc) : (putHeader sl f x k e s).arg2 = s.arg2 := rfl
@[simp] theorem putHeader_arg3 (sl f : Byte) (x k : Bool) (e : Exc) : (putHeader sl f x k e s).arg3 = s.arg3 := rfl
@[simp] theorem putHeader_result (sl f : Byte) (x k : Bool) (e : Exc) : (putHeader sl f x k e s).result = s.result := rfl
@[simp] theorem putHeader_inLen (sl f : Byte) (x k : Bool) (e : Exc) : (putHeader sl f x k e s).inLen = s.inLen := rfl
@[simp] theorem putHeader_outLen (sl f : Byte) (x k : Bool) (e : Exc) : (putHeader sl f x k e s).outLen = s.outLen := rfl
@[simp] theorem putHeader_pduLen (sl f : Byte) (x k : Bool) (e : Exc) : (putHeader sl f x k e s).pduLen = s.pduLen := rfl
@[simp] theorem putHeader_fkind (sl f : Byte) (x k : Bool) (e : Exc) : (putHeader sl f x k e s).fkind = s.fkind := rfl
@[simp] theorem putHeader_fa (sl f : Byte) (x k : Bool) (e : Exc) : (putHeader sl f x k e s).fa = s.fa := rfl
@[simp] theorem putHeader_fb (sl f : Byte) (x k : Bool) (e : Exc) : (putHeader sl f x k e s).fb = s.fb := rfl
@[simp] theorem putHeader_inBuf (sl f : Byte) (x k : Bool) (e : Exc) : (putHeader sl f x k e s).inBuf = s.inBuf := rfl
@[simp] theorem putHeader_outBuf (sl f : Byte) (x k : Bool) (e : Exc) : (putHeader sl f x k e s).outBuf = s.outBuf := rfl
@[simp] theorem putHeader_pduBuf (sl f : Byte) (x k : Bool) (e : Exc) : (putHeader sl f x k e s).pduBuf = s.pduBuf := rfl
@[simp] theorem putHeader_draws (sl f : Byte) (x k : Bool) (e : Exc) : (putHeader sl f x k e s).draws = s.draws := rfl
@[simp] theorem putHeader_inputs (sl f : Byte) (x k : Bool) (e : Exc) : (putHeader sl f x k e s).inputs = s.inputs := rfl
@[simp] theorem putHeader_rdata (sl f : Byte) (x k : Bool) (e : Exc) : (putHeader sl f x k e s).rdata = s.rdata := rfl

@[simp] theorem finishOk_cfg (b : Bool) : (finishOk b s).cfg = s.cfg := rfl
@[simp] theorem finishOk_engine (b : Bool) : (finishOk b s).engine = .idle := rfl
@[simp] theorem finishOk_bo (b : Bool) : (finishOk b s).bo = s.bo := rfl
@[simp] theorem finishOk_wo (b : Bool) : (finishOk b s).wo = s.wo := rfl
@[simp] theorem finishOk_done (b : Bool) : (finishOk b s).done = true := rfl
@[simp] theorem finishOk_ok (b : Bool) : (finishOk b s).ok = b := rfl
@[simp] theorem finishOk_fck (b : Bool) : (finishOk b s).fck = s.fck := rfl
@[simp] theorem finishOk_exb (b : Bool) : (finishOk b s).exb = s.exb := rfl
@[simp] theorem finishOk_err (b : Bool) : (finishOk b s).err = .none := rfl
@[simp] theorem finishOk_slave (b : Bool) : (finishOk b s).slave = s.slave := rfl
@[simp] theorem finishOk_fc (b : Bool) : (finishOk b s).fc = s.fc := rfl
@[simp] theorem finishOk_exc (b : Bool) : (finishOk b s).exc = s.exc := rfl
@[simp] theorem finishOk_arg0 (b : Bool) : (finishOk b s).arg0 = s.arg0 := rfl
@[simp] theorem finishOk_arg1 (b : Bool) : (finishOk b s).arg1 = s.arg1 := rfl
@[simp] theorem finishOk_arg2 (b : Bool) : (finishOk b s).arg2 = s.arg2 := rfl
@[simp] theorem finishOk_arg3 (b : Bool) : (finishOk b s).arg3 = s.arg3 := rfl
@[simp] theorem finishOk_result (b : Bool) : (finishOk b s).result = s.result := rfl
@[simp] theorem finishOk_inLen (b : Bool) : (finishOk b s).inLen = s.inLen := rfl
@[simp] theorem finishOk_outLen (b : Bool) : (finishOk b s).outLen = s.outLen := rfl
@[simp] theorem finishOk_pduLen (b : Bool) : (finishOk b s).pduLen = s.pduLen := rfl
@[simp] theorem finishOk_fkind (b : Bool) : (finishOk b s).fkind = s.fkind := rfl
@[simp] theorem finishOk_fa (b : Bool) : (finishOk b s).fa = s.fa := rfl
@[simp] theorem finishOk_fb (b : Bool) : (finishOk b s).fb = s.fb := rfl
@[simp] theorem finishOk_inBuf (b : Bool) : (finishOk b s).inBuf = s.inBuf := rfl
@[simp] theorem finishOk_outBuf (b : Bool) : (finishOk b s).outBuf = s.outBuf := rfl
@[simp] theorem finishOk_pduBuf (b : Bool) : (finishOk b s).pduBuf = s.pduBuf := rfl
@[simp] theorem finishOk_draws (b : Bool) : (finishOk b s).draws = s.draws := rfl
@[simp] theorem finishOk_inputs (b : Bool) : (finishOk b s).inputs = s.inputs := rfl
@[simp] theorem finishOk_rdata (b : Bool) : (finishOk b s).rdata = s.rdata := rfl

@[simp] theorem raiseError_cfg (e : Err) : (raiseError e s).cfg = s.cfg := rfl
@[simp] theorem raiseError_engine (e : Err) : (raiseError e s).engine = .idle := rfl
@[simp] theorem raiseError_bo (e : Err) : (raiseError e s).bo = s.bo := rfl
@[simp] theorem raiseError_wo (e : Err) : (raiseError e s).wo = s.wo := rfl
@[simp] theorem raiseError_done (e : Err) : (raiseError e s).done = true := rfl
@[simp] theorem raiseError_ok (e : Err) : (raiseError e s).ok = false := rfl
@[simp] theorem raiseError_fck (e : Err) : (raiseError e s).fck = s.fck := rfl
@[simp] theorem raiseError_exb (e : Err) : (raiseError e s).exb = s.exb := rfl
@[simp] theorem raiseError_err (e : Err) : (raiseError e s).err = e := rfl
@[simp] theorem raiseError_slave (e : Err) : (raiseError e s).slave = s.slave := rfl
@[simp] theorem raiseError_fc (e : Err) : (raiseError e s).fc = s.fc := rfl
@[simp] theorem raiseError_exc (e : Err) : (raiseError e s).exc = s.exc := rfl
@[simp] theorem raiseError_arg0 (e : Err) : (raiseError e s).arg0 = s.arg0 := rfl
@[simp] theorem raiseError_arg1 (e : Err) : (raiseError e s).arg1 = s.arg1 := rfl
@[simp] theorem raiseError_arg2 (e : Err) : (raiseError e s).arg2 = s.arg2 := rfl
@[simp] theorem raiseError_arg3 (e : Err) : (raiseError e s).arg3 = s.arg3 := rfl
@[simp] theorem raiseError_result (e : Err) : (raiseError e s).result = s.result := rfl
@[simp] theorem raiseError_inLen (e : Err) : (raiseError e s).inLen = s.inLen := rfl
@[simp] theorem raiseError_outLen (e : Err) : (raiseError e s).outLen = s.outLen := rfl
@[simp] theorem raiseError_pduLen (e : Err) : (raiseError e s).pduLen = s.pduLen := rfl
@[simp] theorem raiseError_fkind (e : Err) : (raiseError e s).fkind = s.fkind := rfl
@[simp] theorem raiseError_fa (e : Err) : (raiseError e s).fa = s.fa := rfl
@[simp] theorem raiseError_fb (e : Err) : (raiseError e s).fb = s.fb := rfl
@[simp] theorem raiseError_inBuf (e : Err) : (raiseError e s).inBuf = s.inBuf := rfl
@[simp] theorem raiseError_outBuf (e : Err) : (raiseError e s).outBuf = s.outBuf := rfl
@[simp] theorem raiseError_pduBuf (e : Err) : (raiseError e s).pduBuf = s.pduBuf := rfl
@[simp] theorem raiseError_draws (e : Err) : (raiseError e s).draws = s.draws := rfl
@[simp] theorem raiseError_inputs (e : Err) : (raiseError e s).inputs = s.inputs := rfl
@[simp] theorem raiseError_rdata (e : Err) : (raiseError e s).rdata = s.rdata := rfl

@[simp] theorem raiseFault_cfg (c : FaultCause) : (raiseFault c s).cfg = s.cfg := rfl
@[simp] theorem raiseFault_engine (c : FaultCause) : (raiseFault c s).engine = .faulted c := rfl
@[simp] theorem raiseFault_bo (c : FaultCause) : (raiseFault c s).bo = s.bo := rfl
@[simp] theorem raiseFault_wo (c : FaultCause) : (raiseFault c s).wo = s.wo := rfl
@[simp] theorem raiseFault_done (c : FaultCause) : (raiseFault c s).done = false := rfl
@[simp] theorem raiseFault_ok (c : FaultCause) : (raiseFault c s).ok = s.ok := rfl
@[simp] theorem raiseFault_fck (c : FaultCause) : (raiseFault c s).fck = s.fck := rfl
@[simp] theorem raiseFault_exb (c : FaultCause) : (raiseFault c s).exb = s.exb := rfl
@[simp] theorem raiseFault_err (c : FaultCause) : (raiseFault c s).err = s.err := rfl
@[simp] theorem raiseFault_slave (c : FaultCause) : (raiseFault c s).slave = s.slave := rfl
@[simp] theorem raiseFault_fc (c : FaultCause) : (raiseFault c s).fc = s.fc := rfl
@[simp] theorem raiseFault_exc (c : FaultCause) : (raiseFault c s).exc = s.exc := rfl
@[simp] theorem raiseFault_arg0 (c : FaultCause) : (raiseFault c s).arg0 = s.arg0 := rfl
@[simp] theorem raiseFault_arg1 (c : FaultCause) : (raiseFault c s).arg1 = s.arg1 := rfl
@[simp] theorem raiseFault_arg2 (c : FaultCause) : (raiseFault c s).arg2 = s.arg2 := rfl
@[simp] theorem raiseFault_arg3 (c : FaultCause) : (raiseFault c s).arg3 = s.arg3 := rfl
@[simp] theorem raiseFault_result (c : FaultCause) : (raiseFault c s).result = s.result := rfl
@[simp] theorem raiseFault_inLen (c : FaultCause) : (raiseFault c s).inLen = s.inLen := rfl
@[simp] theorem raiseFault_outLen (c : FaultCause) : (raiseFault c s).outLen = s.outLen := rfl
@[simp] theorem raiseFault_pduLen (c : FaultCause) : (raiseFault c s).pduLen = s.pduLen := rfl
@[simp] theorem raiseFault_fkind (c : FaultCause) : (raiseFault c s).fkind = s.fkind := rfl
@[simp] theorem raiseFault_fa (c : FaultCause) : (raiseFault c s).fa = s.fa := rfl
@[simp] theorem raiseFault_fb (c : FaultCause) : (raiseFault c s).fb = s.fb := rfl
@[simp] theorem raiseFault_inBuf (c : FaultCause) : (raiseFault c s).inBuf = s.inBuf := rfl
@[simp] theorem raiseFault_outBuf (c : FaultCause) : (raiseFault c s).outBuf = s.outBuf := rfl
@[simp] theorem raiseFault_pduBuf (c : FaultCause) : (raiseFault c s).pduBuf = s.pduBuf := rfl
@[simp] theorem raiseFault_draws (c : FaultCause) : (raiseFault c s).draws = s.draws := rfl
@[simp] theorem raiseFault_inputs (c : FaultCause) : (raiseFault c s).inputs = s.inputs := rfl
@[simp] theorem raiseFault_rdata (c : FaultCause) : (raiseFault c s).rdata = s.rdata := rfl

@[simp] theorem acceptCommand_cfg (c : Word) : (acceptCommand c s).cfg = s.cfg := rfl
@[simp] theorem acceptCommand_engine (c : Word) : (acceptCommand c s).engine = .pending c := rfl
@[simp] theorem acceptCommand_bo (c : Word) : (acceptCommand c s).bo = s.bo := rfl
@[simp] theorem acceptCommand_wo (c : Word) : (acceptCommand c s).wo = s.wo := rfl
@[simp] theorem acceptCommand_done (c : Word) : (acceptCommand c s).done = false := rfl
@[simp] theorem acceptCommand_ok (c : Word) : (acceptCommand c s).ok = s.ok := rfl
@[simp] theorem acceptCommand_fck (c : Word) : (acceptCommand c s).fck = s.fck := rfl
@[simp] theorem acceptCommand_exb (c : Word) : (acceptCommand c s).exb = s.exb := rfl
@[simp] theorem acceptCommand_err (c : Word) : (acceptCommand c s).err = s.err := rfl
@[simp] theorem acceptCommand_slave (c : Word) : (acceptCommand c s).slave = s.slave := rfl
@[simp] theorem acceptCommand_fc (c : Word) : (acceptCommand c s).fc = s.fc := rfl
@[simp] theorem acceptCommand_exc (c : Word) : (acceptCommand c s).exc = s.exc := rfl
@[simp] theorem acceptCommand_arg0 (c : Word) : (acceptCommand c s).arg0 = s.arg0 := rfl
@[simp] theorem acceptCommand_arg1 (c : Word) : (acceptCommand c s).arg1 = s.arg1 := rfl
@[simp] theorem acceptCommand_arg2 (c : Word) : (acceptCommand c s).arg2 = s.arg2 := rfl
@[simp] theorem acceptCommand_arg3 (c : Word) : (acceptCommand c s).arg3 = s.arg3 := rfl
@[simp] theorem acceptCommand_result (c : Word) : (acceptCommand c s).result = s.result := rfl
@[simp] theorem acceptCommand_inLen (c : Word) : (acceptCommand c s).inLen = s.inLen := rfl
@[simp] theorem acceptCommand_outLen (c : Word) : (acceptCommand c s).outLen = s.outLen := rfl
@[simp] theorem acceptCommand_pduLen (c : Word) : (acceptCommand c s).pduLen = s.pduLen := rfl
@[simp] theorem acceptCommand_fkind (c : Word) : (acceptCommand c s).fkind = s.fkind := rfl
@[simp] theorem acceptCommand_fa (c : Word) : (acceptCommand c s).fa = s.fa := rfl
@[simp] theorem acceptCommand_fb (c : Word) : (acceptCommand c s).fb = s.fb := rfl
@[simp] theorem acceptCommand_inBuf (c : Word) : (acceptCommand c s).inBuf = s.inBuf := rfl
@[simp] theorem acceptCommand_outBuf (c : Word) : (acceptCommand c s).outBuf = s.outBuf := rfl
@[simp] theorem acceptCommand_pduBuf (c : Word) : (acceptCommand c s).pduBuf = s.pduBuf := rfl
@[simp] theorem acceptCommand_draws (c : Word) : (acceptCommand c s).draws = s.draws := rfl
@[simp] theorem acceptCommand_inputs (c : Word) : (acceptCommand c s).inputs = s.inputs := rfl
@[simp] theorem acceptCommand_rdata (c : Word) : (acceptCommand c s).rdata = s.rdata := rfl

@[simp] theorem answerRead_cfg (v : Word) : (answerRead v s).cfg = s.cfg := rfl
@[simp] theorem answerRead_engine (v : Word) : (answerRead v s).engine = s.engine := rfl
@[simp] theorem answerRead_bo (v : Word) : (answerRead v s).bo = s.bo := rfl
@[simp] theorem answerRead_wo (v : Word) : (answerRead v s).wo = s.wo := rfl
@[simp] theorem answerRead_done (v : Word) : (answerRead v s).done = s.done := rfl
@[simp] theorem answerRead_ok (v : Word) : (answerRead v s).ok = s.ok := rfl
@[simp] theorem answerRead_fck (v : Word) : (answerRead v s).fck = s.fck := rfl
@[simp] theorem answerRead_exb (v : Word) : (answerRead v s).exb = s.exb := rfl
@[simp] theorem answerRead_err (v : Word) : (answerRead v s).err = s.err := rfl
@[simp] theorem answerRead_slave (v : Word) : (answerRead v s).slave = s.slave := rfl
@[simp] theorem answerRead_fc (v : Word) : (answerRead v s).fc = s.fc := rfl
@[simp] theorem answerRead_exc (v : Word) : (answerRead v s).exc = s.exc := rfl
@[simp] theorem answerRead_arg0 (v : Word) : (answerRead v s).arg0 = s.arg0 := rfl
@[simp] theorem answerRead_arg1 (v : Word) : (answerRead v s).arg1 = s.arg1 := rfl
@[simp] theorem answerRead_arg2 (v : Word) : (answerRead v s).arg2 = s.arg2 := rfl
@[simp] theorem answerRead_arg3 (v : Word) : (answerRead v s).arg3 = s.arg3 := rfl
@[simp] theorem answerRead_result (v : Word) : (answerRead v s).result = s.result := rfl
@[simp] theorem answerRead_inLen (v : Word) : (answerRead v s).inLen = s.inLen := rfl
@[simp] theorem answerRead_outLen (v : Word) : (answerRead v s).outLen = s.outLen := rfl
@[simp] theorem answerRead_pduLen (v : Word) : (answerRead v s).pduLen = s.pduLen := rfl
@[simp] theorem answerRead_fkind (v : Word) : (answerRead v s).fkind = s.fkind := rfl
@[simp] theorem answerRead_fa (v : Word) : (answerRead v s).fa = s.fa := rfl
@[simp] theorem answerRead_fb (v : Word) : (answerRead v s).fb = s.fb := rfl
@[simp] theorem answerRead_inBuf (v : Word) : (answerRead v s).inBuf = s.inBuf := rfl
@[simp] theorem answerRead_outBuf (v : Word) : (answerRead v s).outBuf = s.outBuf := rfl
@[simp] theorem answerRead_pduBuf (v : Word) : (answerRead v s).pduBuf = s.pduBuf := rfl
@[simp] theorem answerRead_draws (v : Word) : (answerRead v s).draws = s.draws := rfl
@[simp] theorem answerRead_inputs (v : Word) : (answerRead v s).inputs = s.inputs := rfl
@[simp] theorem answerRead_rdata (v : Word) : (answerRead v s).rdata = v := rfl

@[simp] theorem applyReset_cfg : (applyReset s).cfg = s.cfg := rfl
@[simp] theorem applyReset_engine : (applyReset s).engine = .idle := rfl
@[simp] theorem applyReset_bo : (applyReset s).bo = .bigEndian := rfl
@[simp] theorem applyReset_wo : (applyReset s).wo = .highWordFirst := rfl
@[simp] theorem applyReset_done : (applyReset s).done = false := rfl
@[simp] theorem applyReset_ok : (applyReset s).ok = false := rfl
@[simp] theorem applyReset_fck : (applyReset s).fck = false := rfl
@[simp] theorem applyReset_exb : (applyReset s).exb = false := rfl
@[simp] theorem applyReset_err : (applyReset s).err = .none := rfl
@[simp] theorem applyReset_slave : (applyReset s).slave = 0 := rfl
@[simp] theorem applyReset_fc : (applyReset s).fc = 0 := rfl
@[simp] theorem applyReset_exc : (applyReset s).exc = ⟨false, 0⟩ := rfl
@[simp] theorem applyReset_arg0 : (applyReset s).arg0 = 0 := rfl
@[simp] theorem applyReset_arg1 : (applyReset s).arg1 = 0 := rfl
@[simp] theorem applyReset_arg2 : (applyReset s).arg2 = 0 := rfl
@[simp] theorem applyReset_arg3 : (applyReset s).arg3 = 0 := rfl
@[simp] theorem applyReset_result : (applyReset s).result = 0 := rfl
@[simp] theorem applyReset_inLen : (applyReset s).inLen = 0 := rfl
@[simp] theorem applyReset_outLen : (applyReset s).outLen = 0 := rfl
@[simp] theorem applyReset_pduLen : (applyReset s).pduLen = 0 := rfl
@[simp] theorem applyReset_fkind : (applyReset s).fkind = .none := rfl
@[simp] theorem applyReset_fa : (applyReset s).fa = 0 := rfl
@[simp] theorem applyReset_fb : (applyReset s).fb = 0 := rfl
@[simp] theorem applyReset_inBuf : (applyReset s).inBuf = [] := rfl
@[simp] theorem applyReset_outBuf : (applyReset s).outBuf = [] := rfl
@[simp] theorem applyReset_pduBuf : (applyReset s).pduBuf = [] := rfl
@[simp] theorem applyReset_draws : (applyReset s).draws = s.draws + 1 := rfl
@[simp] theorem applyReset_inputs : (applyReset s).inputs = s.inputs := rfl
@[simp] theorem applyReset_rdata : (applyReset s).rdata = s.rdata := rfl

@[simp] theorem putResult_byteAt_inBuf (v : Word) (i : Nat) : (putResult v s).byteAt .inBuf i = s.byteAt .inBuf i := rfl
@[simp] theorem putResult_byteAt_outBuf (v : Word) (i : Nat) : (putResult v s).byteAt .outBuf i = s.byteAt .outBuf i := rfl
@[simp] theorem putResult_byteAt_pduBuf (v : Word) (i : Nat) : (putResult v s).byteAt .pduBuf i = s.byteAt .pduBuf i := rfl
@[simp] theorem putOut_byteAt_inBuf (p : List Byte) (i : Nat) : (putOut p s).byteAt .inBuf i = s.byteAt .inBuf i := rfl
@[simp] theorem putOut_byteAt_pduBuf (p : List Byte) (i : Nat) : (putOut p s).byteAt .pduBuf i = s.byteAt .pduBuf i := rfl
@[simp] theorem putPayload_byteAt_inBuf (p : List Byte) (i : Nat) : (putPayload p s).byteAt .inBuf i = s.byteAt .inBuf i := rfl
@[simp] theorem putPayload_byteAt_outBuf (p : List Byte) (i : Nat) : (putPayload p s).byteAt .outBuf i = s.byteAt .outBuf i := rfl
@[simp] theorem dropPayload_byteAt_inBuf (i : Nat) : (dropPayload s).byteAt .inBuf i = s.byteAt .inBuf i := rfl
@[simp] theorem dropPayload_byteAt_outBuf (i : Nat) : (dropPayload s).byteAt .outBuf i = s.byteAt .outBuf i := rfl
@[simp] theorem dropPayload_byteAt_pduBuf (i : Nat) : (dropPayload s).byteAt .pduBuf i = s.byteAt .pduBuf i := rfl
@[simp] theorem putView_byteAt_inBuf (k : FieldKind) (a b : Half) (i : Nat) : (putView k a b s).byteAt .inBuf i = s.byteAt .inBuf i := rfl
@[simp] theorem putView_byteAt_outBuf (k : FieldKind) (a b : Half) (i : Nat) : (putView k a b s).byteAt .outBuf i = s.byteAt .outBuf i := rfl
@[simp] theorem putView_byteAt_pduBuf (k : FieldKind) (a b : Half) (i : Nat) : (putView k a b s).byteAt .pduBuf i = s.byteAt .pduBuf i := rfl
@[simp] theorem putHeader_byteAt_inBuf (sl f : Byte) (x k : Bool) (e : Exc) (i : Nat) : (putHeader sl f x k e s).byteAt .inBuf i = s.byteAt .inBuf i := rfl
@[simp] theorem putHeader_byteAt_outBuf (sl f : Byte) (x k : Bool) (e : Exc) (i : Nat) : (putHeader sl f x k e s).byteAt .outBuf i = s.byteAt .outBuf i := rfl
@[simp] theorem putHeader_byteAt_pduBuf (sl f : Byte) (x k : Bool) (e : Exc) (i : Nat) : (putHeader sl f x k e s).byteAt .pduBuf i = s.byteAt .pduBuf i := rfl
@[simp] theorem finishOk_byteAt_inBuf (b : Bool) (i : Nat) : (finishOk b s).byteAt .inBuf i = s.byteAt .inBuf i := rfl
@[simp] theorem finishOk_byteAt_outBuf (b : Bool) (i : Nat) : (finishOk b s).byteAt .outBuf i = s.byteAt .outBuf i := rfl
@[simp] theorem finishOk_byteAt_pduBuf (b : Bool) (i : Nat) : (finishOk b s).byteAt .pduBuf i = s.byteAt .pduBuf i := rfl
@[simp] theorem raiseError_byteAt_inBuf (e : Err) (i : Nat) : (raiseError e s).byteAt .inBuf i = s.byteAt .inBuf i := rfl
@[simp] theorem raiseError_byteAt_outBuf (e : Err) (i : Nat) : (raiseError e s).byteAt .outBuf i = s.byteAt .outBuf i := rfl
@[simp] theorem raiseError_byteAt_pduBuf (e : Err) (i : Nat) : (raiseError e s).byteAt .pduBuf i = s.byteAt .pduBuf i := rfl
@[simp] theorem raiseFault_byteAt_inBuf (c : FaultCause) (i : Nat) : (raiseFault c s).byteAt .inBuf i = s.byteAt .inBuf i := rfl
@[simp] theorem raiseFault_byteAt_outBuf (c : FaultCause) (i : Nat) : (raiseFault c s).byteAt .outBuf i = s.byteAt .outBuf i := rfl
@[simp] theorem raiseFault_byteAt_pduBuf (c : FaultCause) (i : Nat) : (raiseFault c s).byteAt .pduBuf i = s.byteAt .pduBuf i := rfl
@[simp] theorem acceptCommand_byteAt_inBuf (c : Word) (i : Nat) : (acceptCommand c s).byteAt .inBuf i = s.byteAt .inBuf i := rfl
@[simp] theorem acceptCommand_byteAt_outBuf (c : Word) (i : Nat) : (acceptCommand c s).byteAt .outBuf i = s.byteAt .outBuf i := rfl
@[simp] theorem acceptCommand_byteAt_pduBuf (c : Word) (i : Nat) : (acceptCommand c s).byteAt .pduBuf i = s.byteAt .pduBuf i := rfl
@[simp] theorem answerRead_byteAt_inBuf (v : Word) (i : Nat) : (answerRead v s).byteAt .inBuf i = s.byteAt .inBuf i := rfl
@[simp] theorem answerRead_byteAt_outBuf (v : Word) (i : Nat) : (answerRead v s).byteAt .outBuf i = s.byteAt .outBuf i := rfl
@[simp] theorem answerRead_byteAt_pduBuf (v : Word) (i : Nat) : (answerRead v s).byteAt .pduBuf i = s.byteAt .pduBuf i := rfl

end Sys2Proof.Machine
end

