-- ==== Sys2Proof/Laws/Memory.lean ====
section
/-! SUPPORT. The buffers: read after write, and that every memory operation keeps the canonical form and the bound of
Machine/Ops.lean. -/

namespace Sys2Proof.Machine

/-! ### Reading -/

@[simp] theorem Memory.lookup_nil (i : Nat) : Memory.lookup [] i = none := rfl

theorem Memory.lookup_store (m : Memory) (i j : Nat) (v : Byte) :
    (m.store i v).lookup j = if j = i then some v else m.lookup j := by
  induction m with
  | nil =>
    by_cases h : j = i
    · simp [Memory.store, Memory.lookup, h]
    · simp [Memory.store, Memory.lookup, h, Ne.symm h]
  | cons c m ih =>
    obtain ⟨a, b⟩ := c
    simp only [Memory.store]
    split
    · by_cases h : j = i
      · simp [Memory.lookup, h]
      · simp [Memory.lookup, h, Ne.symm h]
    · split
      · subst_vars
        by_cases h : j = a
        · simp [Memory.lookup, h]
        · simp [Memory.lookup, h, Ne.symm h]
      · simp only [Memory.lookup, ih]
        by_cases h : a = j
        · simp only [h, if_true]
          rw [if_neg (by omega)]
        · simp [h]

theorem Memory.lookup_storeAll (l : List Byte) (m : Memory) (i j : Nat) :
    (m.storeAll i l).lookup j = if i ≤ j ∧ j < i + l.length then some (byteOf l (j - i)) else m.lookup j := by
  induction l generalizing m i with
  | nil =>
    simp only [Memory.storeAll, List.length_nil, Nat.add_zero]
    rw [if_neg (by omega)]
  | cons b l ih =>
    rw [Memory.storeAll, ih, Memory.lookup_store, List.length_cons]
    rcases Nat.lt_trichotomy j i with h | h | h
    · rw [if_neg (by omega), if_neg (by omega), if_neg (by omega)]
    · subst h
      rw [if_neg (by omega), if_pos rfl, if_pos (by omega)]
      simp [byteOf]
    · obtain ⟨d, rfl⟩ := Nat.exists_eq_add_of_lt h
      by_cases hd : d < l.length
      · rw [if_pos (by omega), if_pos (by omega)]
        rw [show i + d + 1 - i = d + 1 by omega, show i + d + 1 - (i + 1) = d by omega]
        simp [byteOf]
      · rw [if_neg (by omega), if_neg (by omega), if_neg (by omega)]

/-! ### The canonical form -/

theorem Memory.wf_iff_pairwise (m : Memory) : m.wf = true ↔ m.Pairwise fun c d => c.1 < d.1 := by
  induction m with
  | nil => simp [Memory.wf]
  | cons c m ih =>
    cases m with
    | nil => simp [Memory.wf]
    | cons d m =>
      rw [Memory.wf, Bool.and_eq_true, ih, List.pairwise_cons (a := c), decide_eq_true_eq]
      constructor
      · rintro ⟨h, hp⟩
        refine ⟨fun e he => ?_, hp⟩
        rcases List.mem_cons.mp he with rfl | he
        · exact h
        · exact lt_trans h ((List.pairwise_cons.mp hp).1 e he)
      · rintro ⟨h, hp⟩
        exact ⟨h d (by simp), hp⟩

theorem Memory.mem_store {m : Memory} {i : Nat} {v : Byte} {c : Host.Cell} (h : c ∈ m.store i v) :
    c = (i, v) ∨ c ∈ m := by
  induction m with
  | nil => simpa [Memory.store] using h
  | cons d m ih =>
    obtain ⟨a, b⟩ := d
    simp only [Memory.store] at h
    split at h
    · simpa using h
    · split at h
      · rcases List.mem_cons.mp h with h | h
        · exact .inl h
        · exact .inr (by simp [h])
      · rcases List.mem_cons.mp h with h | h
        · exact .inr (by simp [h])
        · rcases ih h with h | h
          · exact .inl h
          · exact .inr (by simp [h])

theorem Memory.wf_store {m : Memory} (h : m.wf = true) (i : Nat) (v : Byte) : (m.store i v).wf = true := by
  rw [Memory.wf_iff_pairwise] at h ⊢
  induction m with
  | nil => simp [Memory.store]
  | cons c m ih =>
    obtain ⟨a, b⟩ := c
    obtain ⟨ha, hm⟩ := List.pairwise_cons.mp h
    simp only [Memory.store]
    split
    · next hi =>
      refine List.pairwise_cons.mpr ⟨fun e he => ?_, h⟩
      rcases List.mem_cons.mp he with rfl | he
      · exact hi
      · exact lt_trans hi (ha e he)
    · split
      · next hi => subst hi; exact List.pairwise_cons.mpr ⟨ha, hm⟩
      · refine List.pairwise_cons.mpr ⟨fun e he => ?_, ih hm⟩
        rcases Memory.mem_store he with rfl | he
        · simp only; omega
        · exact ha e he

theorem Memory.wf_storeAll {m : Memory} (h : m.wf = true) (i : Nat) (l : List Byte) :
    (m.storeAll i l).wf = true := by
  induction l generalizing m i with
  | nil => exact h
  | cons b l ih => exact ih (Memory.wf_store h i b) (i + 1)

theorem Memory.below_store {m : Memory} {n : Nat} (h : m.below n = true) {i : Nat} (hi : i < n) (v : Byte) :
    (m.store i v).below n = true := by
  simp only [Memory.below, List.all_eq_true, decide_eq_true_eq] at h ⊢
  intro c hc
  rcases Memory.mem_store hc with rfl | hc
  · exact hi
  · exact h c hc

theorem Memory.below_storeAll {m : Memory} {n : Nat} (h : m.below n = true) (i : Nat) (l : List Byte)
    (hl : i + l.length ≤ n) : (m.storeAll i l).below n = true := by
  induction l generalizing m i with
  | nil => exact h
  | cons b l ih =>
    simp only [List.length_cons] at hl
    exact ih (Memory.below_store h (by omega) b) (i + 1) (by omega)

theorem Memory.lookup_eq_none_of_lt {m : Memory} {i : Nat} (h : ∀ c ∈ m, i < c.1) : m.lookup i = none := by
  induction m with
  | nil => rfl
  | cons c m ih =>
    obtain ⟨a, b⟩ := c
    have ha : i < a := h (a, b) (by simp)
    rw [Memory.lookup, if_neg (by omega)]
    exact ih fun d hd => h d (by simp [hd])

/-- Equal memories are equal data: two buffers in canonical form that list the same bytes are the same list. -/
theorem Memory.eq_of_lookup_eq {m m' : Memory} (h : m.wf = true) (h' : m'.wf = true)
    (hl : ∀ i, m.lookup i = m'.lookup i) : m = m' := by
  rw [Memory.wf_iff_pairwise] at h h'
  induction m generalizing m' with
  | nil =>
    cases m' with
    | nil => rfl
    | cons c m' => have := hl c.1; simp [Memory.lookup] at this
  | cons c m ih =>
    obtain ⟨a, b⟩ := c
    obtain ⟨ha, hm⟩ := List.pairwise_cons.mp h
    cases m' with
    | nil => have := hl a; simp [Memory.lookup] at this
    | cons c' m' =>
      obtain ⟨a', b'⟩ := c'
      obtain ⟨ha', hm'⟩ := List.pairwise_cons.mp h'
      have hnone : ∀ {n : Memory} {x : Nat}, (∀ d ∈ n, x < d.1) → n.lookup x = none :=
        fun hx => Memory.lookup_eq_none_of_lt hx
      have haa : a = a' := by
        by_contra hne
        rcases Nat.lt_or_ge a a' with hlt | hge
        · have := hl a
          rw [Memory.lookup, if_pos rfl, Memory.lookup, if_neg (by omega),
            hnone fun d hd => lt_trans hlt (ha' d hd)] at this
          cases this
        · have hlt : a' < a := by omega
          have := hl a'
          rw [Memory.lookup, if_neg (by omega), hnone fun d hd => lt_trans hlt (ha d hd), Memory.lookup,
            if_pos rfl] at this
          cases this
      subst haa
      have hb := hl a
      rw [Memory.lookup, if_pos rfl, Memory.lookup, if_pos rfl, Option.some.injEq] at hb
      subst hb
      congr 1
      refine ih hm hm' fun i => ?_
      by_cases hi : a = i
      · subst hi; rw [hnone ha, hnone ha']
      · have := hl i
        rwa [Memory.lookup, if_neg hi, Memory.lookup, if_neg hi] at this

end Sys2Proof.Machine
end

