-- ==== Sys2Proof/Laws/Ops.lean ====
section
/-! SUPPORT. What each shared operation does, said once: the buffer bytes after a register write, the endings in the
words of Safety.lean, and one lemma for each operation a meaning is built of. -/

namespace Sys2Proof.Machine

/-! ### Bytes of a buffer -/

@[simp] theorem bytes_length (s : State) (b : BufferId) (n : Nat) : (s.bytes b n).length = n := by
  simp [State.bytes]

@[simp] theorem input_length (s : State) : s.input.length = s.inLen.toNat := bytes_length s _ _

@[simp] theorem output_length (s : State) : s.output.length = s.outLen.toNat := bytes_length s _ _

@[simp] theorem payload_length (s : State) : s.payload.length = s.pduLen.toNat := bytes_length s _ _

theorem byteOf_bytes (s : State) (b : BufferId) {n i : Nat} (h : i < n) : byteOf (s.bytes b n) i = s.byteAt b i := by
  simp [byteOf, State.bytes, h]

theorem byteOf_input (s : State) {i : Nat} (h : i < s.inLen.toNat) : byteOf s.input i = s.byteAt .inBuf i :=
  byteOf_bytes s _ h

theorem bytes_congr {s t : State} {b c : BufferId} {n : Nat} (h : ∀ i, i < n → s.byteAt b i = t.byteAt c i) :
    s.bytes b n = t.bytes c n := by
  simp only [State.bytes]
  exact List.map_congr_left fun i hi => h i (List.mem_range.mp hi)

/-- A byte list is known by its length and its bytes. -/
theorem eq_of_byteOf_eq {l m : List Byte} (hl : l.length = m.length)
    (h : ∀ i, i < l.length → byteOf l i = byteOf m i) : l = m := by
  refine List.ext_getElem hl fun i h1 h2 => ?_
  have := h i h1
  simpa [byteOf, List.getElem?_eq_getElem h1, List.getElem?_eq_getElem h2] using this

/-- n bytes of a buffer that reads as `l` on its first `len(l)` indices. -/
theorem bytes_eq_of_byteAt {s : State} {b : BufferId} {l : List Byte}
    (h : ∀ i, i < l.length → s.byteAt b i = byteOf l i) : s.bytes b l.length = l := by
  refine eq_of_byteOf_eq (bytes_length _ _ _) fun i hi => ?_
  rw [bytes_length] at hi
  rw [byteOf_bytes s b hi, h i hi]

/-! ### Bytes after a register write -/

theorem byteAt_putOut (p : List Byte) (s : State) (i : Nat) :
    (putOut p s).byteAt .outBuf i = if i < p.length then byteOf p i else s.byteAt .outBuf i := by
  simp only [State.byteAt, State.buffer, putOut, Memory.lookup_storeAll]
  by_cases h : i < p.length <;> simp [h]

theorem byteAt_putPayload (p : List Byte) (s : State) (i : Nat) :
    (putPayload p s).byteAt .pduBuf i = if i < p.length then byteOf p i else s.byteAt .pduBuf i := by
  simp only [State.byteAt, State.buffer, putPayload, Memory.lookup_storeAll]
  by_cases h : i < p.length <;> simp [h]

@[simp] theorem byteAt_inBuf_putOut (p : List Byte) (s : State) (i : Nat) :
    (putOut p s).byteAt .inBuf i = s.byteAt .inBuf i := rfl
@[simp] theorem byteAt_pduBuf_putOut (p : List Byte) (s : State) (i : Nat) :
    (putOut p s).byteAt .pduBuf i = s.byteAt .pduBuf i := rfl
@[simp] theorem byteAt_inBuf_putPayload (p : List Byte) (s : State) (i : Nat) :
    (putPayload p s).byteAt .inBuf i = s.byteAt .inBuf i := rfl
@[simp] theorem byteAt_outBuf_putPayload (p : List Byte) (s : State) (i : Nat) :
    (putPayload p s).byteAt .outBuf i = s.byteAt .outBuf i := rfl

theorem byteAt_eq {s t : State} {b : BufferId} (hb : t.buffer b = s.buffer b) (hd : t.draws = s.draws) (i : Nat) :
    t.byteAt b i = s.byteAt b i := by
  simp only [State.byteAt, hb, hd]

@[simp] theorem byteAt_putResult (v : Word) (s : State) (b : BufferId) (i : Nat) :
    (putResult v s).byteAt b i = s.byteAt b i := by cases b <;> rfl
@[simp] theorem byteAt_putView (k : FieldKind) (x y : Half) (s : State) (b : BufferId) (i : Nat) :
    (putView k x y s).byteAt b i = s.byteAt b i := by cases b <;> rfl
@[simp] theorem byteAt_putHeader (x y : Byte) (p q : Bool) (e : Exc) (s : State) (b : BufferId) (i : Nat) :
    (putHeader x y p q e s).byteAt b i = s.byteAt b i := by cases b <;> rfl
@[simp] theorem byteAt_dropPayload (s : State) (b : BufferId) (i : Nat) :
    (dropPayload s).byteAt b i = s.byteAt b i := by cases b <;> rfl
@[simp] theorem byteAt_finishOk (v : Bool) (s : State) (b : BufferId) (i : Nat) :
    (finishOk v s).byteAt b i = s.byteAt b i := by cases b <;> rfl
@[simp] theorem byteAt_raiseError (e : Err) (s : State) (b : BufferId) (i : Nat) :
    (raiseError e s).byteAt b i = s.byteAt b i := by cases b <;> rfl
@[simp] theorem byteAt_raiseFault (c : FaultCause) (s : State) (b : BufferId) (i : Nat) :
    (raiseFault c s).byteAt b i = s.byteAt b i := by cases b <;> rfl

/-- A length below 65536 fits its register (10_state.md R38, R39). -/
theorem toNat_ofNat_length {α : Type} {l : List α} (h : l.length < 65536) : (BitVec.ofNat 16 l.length).toNat = l.length := by
  rw [BitVec.toNat_ofNat]
  exact Nat.mod_eq_of_lt (by omega)

theorem output_putOut {p : List Byte} (h : p.length < 65536) (s : State) : (putOut p s).output = p := by
  rw [State.output, putOut_outLen, toNat_ofNat_length h]
  refine bytes_eq_of_byteAt fun i hi => ?_
  rw [byteAt_putOut, if_pos hi]

theorem payload_putPayload {p : List Byte} (h : p.length < 65536) (s : State) : (putPayload p s).payload = p := by
  rw [State.payload, putPayload_pduLen, toNat_ofNat_length h]
  refine bytes_eq_of_byteAt fun i hi => ?_
  rw [byteAt_putPayload, if_pos hi]

/-! ### The endings, in the words of Safety.lean -/

theorem raiseError_eq (e : Err) (s : State) : raiseError e s = afterError e s := rfl

theorem raiseFault_eq (c : FaultCause) (s : State) : raiseFault c s = afterFault c s := rfl

theorem succeeded_finishOk (b : Bool) (s : State) : Succeeded b (finishOk b s) := ⟨rfl, rfl, rfl, rfl⟩

theorem succeeded_finishOk_iff (b c : Bool) (s : State) : Succeeded c (finishOk b s) ↔ c = b := by
  constructor
  · rintro ⟨-, -, h, -⟩; exact h.symm
  · rintro rfl; exact succeeded_finishOk _ s

theorem not_succeeded_raiseError {e : Err} (he : e ≠ .none) (b : Bool) (s : State) :
    ¬ Succeeded b (raiseError e s) := fun h => he h.2.2.2

theorem wroteResult_finishOk (b : Bool) (v : Word) (s : State) : WroteResult b v s (finishOk b (putResult v s)) := by
  refine ⟨succeeded_finishOk _ _, rfl, ?_, ?_, ?_, ?_, ?_⟩ <;> constructor <;> first | rfl | (intro i; simp)

theorem wroteVerdict_finishOk (b : Bool) (s : State) : WroteVerdict b s (finishOk b s) := by
  refine ⟨succeeded_finishOk _ _, rfl, ?_, ?_, ?_, ?_, ?_⟩ <;> constructor <;> first | rfl | (intro i; simp)

theorem wroteOutput_finishOk {p : List Byte} (h : p.length < 65536) (s : State) :
    WroteOutput p s (finishOk true (putOut p s)) := by
  refine ⟨succeeded_finishOk _ _, toNat_ofNat_length h, ?_, ?_, rfl, ?_, ?_, ?_, ?_⟩
  · refine Eq.trans (bytes_congr fun i _ => ?_) (output_putOut h s)
    simp
  · intro i hi; rw [byteAt_finishOk, byteAt_putOut, if_neg (by omega)]
  all_goals constructor <;> first | rfl | (intro i; simp)

theorem wrotePayload_finishOk {p : List Byte} (h : p.length < 65536) (k : FieldKind) (a b : Half) (s : State) :
    WrotePayload p k a b s (finishOk true (putView k a b (putPayload p s))) := by
  refine ⟨succeeded_finishOk _ _, toNat_ofNat_length h, ?_, ?_, rfl, rfl, rfl, rfl, ?_, ?_, ?_, ?_⟩
  · refine Eq.trans (bytes_congr fun i _ => ?_) (payload_putPayload h s)
    simp
  · intro i hi; rw [byteAt_finishOk, byteAt_putView, byteAt_putPayload, if_neg (by omega)]
  all_goals constructor <;> first | rfl | (intro i; simp)

/-! ### The operations a meaning is built of -/

theorem inputTooLong_iff (s : State) : s.inputTooLong = true ↔ s.cfg.bufBytes < s.inLen.toNat := by
  simp [State.inputTooLong]

theorem inputTooLong_eq_false {s : State} (h : s.inLen.toNat ≤ s.cfg.bufBytes) : s.inputTooLong = false := by
  simp [State.inputTooLong]; omega

theorem encodeValue_spec {p : List Byte} (h : p.length < 65536) (s : State) :
    ∃ t, encodeValue p s = .next t ∧ WroteOutput p s t := ⟨_, rfl, wroteOutput_finishOk h s⟩

theorem decodeValue_overflow {s : State} (h : s.cfg.bufBytes < s.inLen.toNat) (n : Nat) (v : List Byte → Word) :
    decodeValue n v s = .next (afterError .overflow s) := by
  rw [decodeValue, if_pos ((inputTooLong_iff s).mpr h), raiseError_eq]

theorem decodeValue_short {s : State} (h : s.inLen.toNat ≤ s.cfg.bufBytes) {n : Nat} (hn : s.inLen.toNat < n)
    (v : List Byte → Word) : decodeValue n v s = .next (afterError .length s) := by
  simp [decodeValue, inputTooLong_eq_false h, hn, raiseError_eq]

theorem decodeValue_ok {s : State} (h : s.inLen.toNat ≤ s.cfg.bufBytes) {n : Nat} (hn : n ≤ s.inLen.toNat)
    (v : List Byte → Word) : decodeValue n v s = .next (finishOk true (putResult (v s.input) s)) := by
  simp [decodeValue, inputTooLong_eq_false h, hn]

theorem calcResult_overflow {s : State} (h : s.cfg.bufBytes < s.inLen.toNat) (v : List Byte → Word) :
    calcResult v s = .next (afterError .overflow s) := by
  rw [calcResult, if_pos ((inputTooLong_iff s).mpr h), raiseError_eq]

theorem calcResult_ok {s : State} (h : s.inLen.toNat ≤ s.cfg.bufBytes) (v : List Byte → Word) :
    calcResult v s = .next (finishOk true (putResult (v s.input) s)) := by
  simp [calcResult, inputTooLong_eq_false h]

theorem verdict_overflow {s : State} (h : s.cfg.bufBytes < s.inLen.toNat) (v : List Byte → Bool) :
    verdict v s = .next (afterError .overflow s) := by
  rw [verdict, if_pos ((inputTooLong_iff s).mpr h), raiseError_eq]

theorem verdict_ok {s : State} (h : s.inLen.toNat ≤ s.cfg.bufBytes) (v : List Byte → Bool) :
    verdict v s = .next (finishOk (v s.input) s) := by
  simp [verdict, inputTooLong_eq_false h]

theorem structuredSetter_contract {c : Bool} (h : c = false) (k : FieldKind) (a b : Half) (p : Payload) (s : State) :
    structuredSetter c k a b p s = .next (afterFault .contract s) := by
  simp [structuredSetter, h, raiseFault_eq]

theorem structuredSetter_error {c : Bool} (h : c = true) (k : FieldKind) (a b : Half) {p : Payload} {e : Err}
    (hp : p = .error e) (s : State) : structuredSetter c k a b p s = .next (afterError e s) := by
  simp [structuredSetter, h, hp, raiseError_eq]

theorem structuredSetter_overflow {c : Bool} (h : c = true) (k : FieldKind) (a b : Half) {p : Payload}
    {l : List Byte} (hp : p = .ok l) {s : State} (hl : s.cfg.bufBytes < l.length) :
    structuredSetter c k a b p s = .next (afterError .overflow s) := by
  simp [structuredSetter, h, hp, commitPayload, hl, raiseError_eq]

theorem structuredSetter_ok {c : Bool} (h : c = true) (k : FieldKind) (a b : Half) {p : Payload} {l : List Byte}
    (hp : p = .ok l) {s : State} (hl : l.length ≤ s.cfg.bufBytes) (hs : s.cfg.bufBytes ≤ 4096) :
    ∃ t, structuredSetter c k a b p s = .next t ∧ WrotePayload l k a b s t := by
  refine ⟨_, ?_, wrotePayload_finishOk (by omega) k a b s⟩
  simp [structuredSetter, h, hp, commitPayload, Nat.not_lt.mpr hl]

theorem emitFrame_badFc {s : State} (h : s.fc ∉ s.cfg.supportedFc) (f : List Byte) :
    emitFrame f s = .next (afterError .badFc s) := by
  simp [emitFrame, knownCode, h, raiseError_eq]

theorem emitFrame_overflow {s : State} (h : s.fc ∈ s.cfg.supportedFc) {f : List Byte}
    (hf : s.cfg.bufBytes < f.length) : emitFrame f s = .next (afterError .overflow s) := by
  simp [emitFrame, knownCode, h, hf, raiseError_eq]

theorem emitFrame_ok {s : State} (h : s.fc ∈ s.cfg.supportedFc) {f : List Byte} (hf : f.length ≤ s.cfg.bufBytes) :
    emitFrame f s = .next (finishOk true (putOut f s)) := by
  simp [emitFrame, knownCode, h, Nat.not_lt.mpr hf]

theorem decodeFrame_error {m : Except Err (List Byte)} {e : Err} (h : m = .error e)
    (c : List Byte → State → Answer) (s : State) : decodeFrame m c s = .next (afterError e s) := by
  simp [decodeFrame, h, raiseError_eq]

theorem decodeFrame_ok {m : Except Err (List Byte)} {d : List Byte} (h : m = .ok d)
    (c : List Byte → State → Answer) (s : State) : decodeFrame m c s = c d s := by
  simp [decodeFrame, h]

theorem checkComplete_overflow {s : State} (h : s.cfg.bufBytes < s.inLen.toNat) (n : Option Nat) :
    checkComplete n s = .next (afterError .overflow s) := by
  simp [checkComplete, (inputTooLong_iff s).mpr h, raiseError_eq]

theorem checkComplete_none {s : State} (h : s.inLen.toNat ≤ s.cfg.bufBytes) {n : Option Nat} (hn : n = none) :
    ∃ t, checkComplete n s = .next t ∧ WroteResult false 0 s t := by
  refine ⟨_, ?_, wroteResult_finishOk false 0 s⟩
  simp [checkComplete, inputTooLong_eq_false h, hn]

theorem checkComplete_some {s : State} (h : s.inLen.toNat ≤ s.cfg.bufBytes) {n : Option Nat} {e : Nat}
    (hn : n = some e) :
    ∃ t, checkComplete n s = .next t ∧ WroteResult (decide (e ≤ s.inLen.toNat)) (BitVec.ofNat 32 e) s t := by
  refine ⟨_, ?_, wroteResult_finishOk _ _ s⟩
  simp [checkComplete, inputTooLong_eq_false h, hn]

/-! ### The parameters -/

theorem params_bufBytes {p : Params} (h : p.wf = true) : 16 ≤ p.bufBytes ∧ p.bufBytes ≤ 4096 := by
  simp only [Params.wf, Bool.and_eq_true, decide_eq_true_eq] at h
  exact ⟨h.1.1.1.1.1.1.1.1.1.1.1, h.1.1.1.1.1.1.1.1.1.1.2⟩

theorem params_supportedFc {p : Params} (h : p.wf = true) {f : Byte} (hf : f ∈ p.supportedFc) :
    1 ≤ f.toNat ∧ f.toNat ≤ 0x7F := by
  simp only [Params.wf, Bool.and_eq_true, decide_eq_true_eq, List.all_eq_true] at h
  exact h.1.1.1.1.1.1.1.2 f hf

/-! ### Host accesses -/

theorem hostAccess_of_locate {s : State} {offset bytes : Nat} {t : Target}
    (h : locate s.cfg offset bytes = .admitted t) (f : Target → State → State) :
    hostAccess offset bytes f s = .next (f t s) := by
  rw [hostAccess, h]

theorem readAccess_not_pending {s : State} (h : s.notPending) (t : Target) :
    readAccess t s = answerRead (s.readTarget t) s := by
  unfold readAccess
  split
  · next c hc => exact absurd hc (h c)
  · rfl
  · rfl

theorem writeAccess_not_pending {s : State} (h : s.notPending) (t : Target) (v : Word) :
    writeAccess t v s = writeTarget t v s := by
  unfold writeAccess
  split
  · next c hc => exact absurd hc (h c)
  · rfl
  · rfl

theorem admitted_locate {p : Params} {offset bytes : Nat} (h : Admitted offset bytes) :
    ∃ t, locate p offset bytes = .admitted t := by
  rcases h with ⟨h1, rfl, h3⟩ | ⟨h1, h2, rfl⟩
  · simp only [locate, if_pos h1, h3, and_self, if_true]
    split <;> exact ⟨_, rfl⟩
  · simp only [locate, if_neg (Nat.not_lt.mpr h1), if_pos h2, if_true]
    split
    · exact ⟨_, rfl⟩
    · split <;> exact ⟨_, rfl⟩

end Sys2Proof.Machine
end

