-- ==== Sys2Proof/Laws/Endings.lean ====
section
/-! SUPPORT. Everything a command can do, said once: `exec_ends` gives for every command its next state in one of
eight forms, from which the frames and the invariant follow by cases without unfolding a meaning. -/

namespace Sys2Proof.Machine

/-- The forms the next state of a command can have. -/
inductive Ends (i : Instr) (s : State) : State → Prop where
  /-- `raise Error(e)` with an error R159 lists. -/
  | error (e : Err) (hn : e ≠ .none) (he : s.cfg.wf = true → e ∈ listedErrors i)
      (hc : ∀ codes, requiredCodes s.cfg i = some codes → s.fc ∈ codes) : Ends i s (raiseError e s)
  /-- `raise Fault(CONTRACT)` of a structured setter. -/
  | fault (codes : List Byte) (hc : requiredCodes s.cfg i = some codes) (hf : s.fc ∉ codes) :
      Ends i s (raiseFault .contract s)
  /-- Only a verdict. -/
  | verdict (b : Bool) (hc : requiredCodes s.cfg i = none) : Ends i s (finishOk b s)
  /-- A RESULT. -/
  | result (b : Bool) (v : Word) (hi : i ∈ resultWriters) (hc : requiredCodes s.cfg i = none) :
      Ends i s (finishOk b (putResult v s))
  /-- A frame or an encoded value in OUT. -/
  | output (p : List Byte) (hi : i ∈ outputWriters) (hc : requiredCodes s.cfg i = none)
      (hp : p.length ≤ max 4 s.cfg.bufBytes) : Ends i s (finishOk true (putOut p s))
  /-- A payload by a setter. -/
  | payload (k : FieldKind) (a b : Half) (p : List Byte) (hi : i ∈ payloadWriters)
      (hc : ∀ codes, requiredCodes s.cfg i = some codes → s.fc ∈ codes) (hp : p.length ≤ s.cfg.bufBytes)
      (hk : k ≠ .none → 4 ≤ p.length) (hn : k = .none → a = 0 ∧ b = 0) (hb : k = .coil → b = 0 ∨ b = 1) :
      Ends i s (finishOk true (putView k a b (putPayload p s)))
  /-- A message by a decoder. -/
  | message (sl fc : Byte) (exb fck : Bool) (e : Exc) (k : FieldKind) (a b : Half) (p : List Byte)
      (hi : i ∈ decoders) (hc : requiredCodes s.cfg i = none) (hp : p.length ≤ s.cfg.bufBytes)
      (hk : k ≠ .none → 4 ≤ p.length) (hn : k = .none → a = 0 ∧ b = 0) (hb : k = .coil → b = 0 ∨ b = 1) :
      Ends i s (finishOk true (putView k a b (putPayload p (putHeader sl fc exb fck e s))))
  /-- An exception response by a decoder. -/
  | exception (sl fc : Byte) (exb fck : Bool) (e : Exc) (hi : i ∈ decoders) (hc : requiredCodes s.cfg i = none) :
      Ends i s (finishOk true (putView .none 0 0 (dropPayload (putHeader sl fc exb fck e s))))

section
variable {i : Instr} {s : State}

theorem encodeValue_ends (hi : i ∈ outputWriters) (hc : requiredCodes s.cfg i = none) {p : List Byte}
    (hp : p.length ≤ 4) : ∃ t, encodeValue p s = .next t ∧ Ends i s t :=
  ⟨_, rfl, .output p hi hc (by omega)⟩

theorem decodeValue_ends (hi : i ∈ resultWriters) (hc : requiredCodes s.cfg i = none)
    (ho : .overflow ∈ listedErrors i) (hl : .length ∈ listedErrors i) (n : Nat) (v : List Byte → Word) :
    ∃ t, decodeValue n v s = .next t ∧ Ends i s t := by
  unfold decodeValue
  split
  · exact ⟨_, rfl, .error _ (by decide) (fun _ => ho) (by simp [hc])⟩
  · split
    · exact ⟨_, rfl, .error _ (by decide) (fun _ => hl) (by simp [hc])⟩
    · exact ⟨_, rfl, .result _ _ hi hc⟩

theorem calcResult_ends (hi : i ∈ resultWriters) (hc : requiredCodes s.cfg i = none)
    (ho : .overflow ∈ listedErrors i) (v : List Byte → Word) : ∃ t, calcResult v s = .next t ∧ Ends i s t := by
  unfold calcResult
  split
  · exact ⟨_, rfl, .error _ (by decide) (fun _ => ho) (by simp [hc])⟩
  · exact ⟨_, rfl, .result _ _ hi hc⟩

theorem verdict_ends (hc : requiredCodes s.cfg i = none) (ho : .overflow ∈ listedErrors i) (v : List Byte → Bool) :
    ∃ t, verdict v s = .next t ∧ Ends i s t := by
  unfold verdict
  split
  · exact ⟨_, rfl, .error _ (by decide) (fun _ => ho) (by simp [hc])⟩
  · exact ⟨_, rfl, .verdict _ hc⟩

theorem checkComplete_ends (hi : i ∈ resultWriters) (hc : requiredCodes s.cfg i = none)
    (ho : .overflow ∈ listedErrors i) (n : Option Nat) : ∃ t, checkComplete n s = .next t ∧ Ends i s t := by
  unfold checkComplete
  split
  · exact ⟨_, rfl, .error _ (by decide) (fun _ => ho) (by simp [hc])⟩
  · split <;> exact ⟨_, rfl, .result _ _ hi hc⟩

theorem structuredSetter_ends {c : Bool} {k : FieldKind} {a b : Half} {p : Payload} {codes : List Byte}
    (hi : i ∈ payloadWriters) (hc : requiredCodes s.cfg i = some codes) (hcodes : c = true ↔ s.fc ∈ codes)
    (he : ∀ e, p = .error e → e ≠ .none ∧ e ∈ listedErrors i)
    (ho : .overflow ∈ listedErrors i ∨ ∀ l, p = .ok l → l.length ≤ 16)
    (hk : k ≠ .none → ∀ l, p = .ok l → 4 ≤ l.length) (hn : k = .none → a = 0 ∧ b = 0)
    (hb : k = .coil → b = 0 ∨ b = 1) : ∃ t, structuredSetter c k a b p s = .next t ∧ Ends i s t := by
  unfold structuredSetter
  split
  · next h =>
    have hin : ∀ codes', requiredCodes s.cfg i = some codes' → s.fc ∈ codes' := by
      intro codes' h'
      rw [hc, Option.some.injEq] at h'
      exact h' ▸ hcodes.mp h
    split
    · next e => exact ⟨_, rfl, .error e (he e rfl).1 (fun _ => (he e rfl).2) hin⟩
    · next l =>
      unfold commitPayload
      split
      · next hlt =>
        refine ⟨_, rfl, .error _ (by decide) (fun hw => ?_) hin⟩
        rcases ho with ho | ho
        · exact ho
        · have := (params_bufBytes hw).1
          have := ho l rfl
          omega
      · next hlt =>
        exact ⟨_, rfl, .payload k a b l hi hin (by omega) (fun h => hk h l rfl) hn hb⟩
  · next h => exact ⟨_, rfl, .fault codes hc fun hf => h (hcodes.mpr hf)⟩

theorem emitFrame_ends (hi : i ∈ outputWriters) (hc : requiredCodes s.cfg i = none)
    (hb : .badFc ∈ listedErrors i) (ho : .overflow ∈ listedErrors i) (f : List Byte) :
    ∃ t, emitFrame f s = .next t ∧ Ends i s t := by
  unfold emitFrame
  split
  · exact ⟨_, rfl, .error _ (by decide) (fun _ => hb) (by simp [hc])⟩
  · split
    · exact ⟨_, rfl, .error _ (by decide) (fun _ => ho) (by simp [hc])⟩
    · exact ⟨_, rfl, .output f hi hc (by omega)⟩

theorem hexPairs_length : ∀ {t m : List Byte}, hexPairs t = some m → t.length = 2 * m.length
  | [], m, h => by simp only [hexPairs, Option.some.injEq] at h; subst h; rfl
  | [_], m, h => by simp [hexPairs] at h
  | a :: b :: t, m, h => by
    simp only [hexPairs] at h
    split at h
    · next x y m' hx hy hm =>
      rw [Option.some.injEq] at h
      subst h
      have := hexPairs_length hm
      simp only [List.length_cons]
      omega
    · simp at h

theorem textMessage_ok {t d : List Byte} (h : textMessage t = .ok d) : t.length = 2 * (d.length + 1) ∧ 2 ≤ d.length := by
  unfold textMessage hexDec at h
  split at h
  · simp at h
  · next m hm =>
    split at hm
    · simp at hm
    · split at hm
      · simp at hm
      · next m' hp =>
        simp only [Except.ok.injEq] at hm
        subst hm
        have := hexPairs_length hp
        split at h
        · simp at h
        · split at h
          · simp at h
          · simp only [Except.ok.injEq] at h
            subst h
            simp only [List.length_dropLast]
            omega

theorem textMessage_error {t : List Byte} {e : Err} (h : textMessage t = .error e) :
    e ∈ ([.hexOdd, .hexChar, .lrc, .length] : List Err) := by
  unfold textMessage hexDec at h
  split at h
  · next e' he' =>
    rw [Except.error.injEq] at h
    subst h
    split at he'
    · simp at he'; simp [← he']
    · split at he'
      · simp at he'; simp [← he']
      · simp at he'
  · split at h
    · simp at h; simp [← h]
    · split at h
      · simp at h; simp [← h]
      · simp at h

theorem asciiText_error {l : List Byte} {e : Err} (h : asciiText l = .error e) :
    e ∈ ([.start, .delim] : List Err) := by
  unfold asciiText at h
  split at h
  · simp at h; simp [← h]
  · split at h
    · simp at h; simp [← h]
    · split at h
      · simp at h; simp [← h]
      · split at h
        · simp at h; simp [← h]
        · simp at h

theorem asciiText_ok {l t : List Byte} (h : asciiText l = .ok t) : t.length < l.length := by
  unfold asciiText at h
  split at h
  · simp at h
  · split at h
    · simp at h
    · split at h
      · simp at h
      · split at h
        · simp at h
        · simp only [Except.ok.injEq] at h
          subst h
          simp only [List.length_take, List.length_cons]
          omega

theorem rtuMessage_ok {d : List Byte} (h : rtuMessage s = .ok d) : d.length ≤ s.cfg.bufBytes := by
  unfold rtuMessage at h
  split at h
  · simp at h
  · next ho =>
    rw [inputTooLong_iff] at ho
    split at h
    · simp at h
    · split at h
      · simp only [Except.ok.injEq] at h
        subst h
        simp only [List.length_take, input_length]
        omega
      · simp at h

theorem rtuMessage_error {e : Err} (h : rtuMessage s = .error e) : e ∈ ([.overflow, .length, .crc] : List Err) := by
  unfold rtuMessage at h
  split at h
  · simp at h; simp [← h]
  · split at h
    · simp at h; simp [← h]
    · split at h
      · simp at h
      · simp at h; simp [← h]

theorem asciiMessage_ok {d : List Byte} (h : asciiMessage s = .ok d) : d.length ≤ s.cfg.bufBytes := by
  unfold asciiMessage at h
  split at h
  · simp at h
  · next ho =>
    rw [inputTooLong_iff] at ho
    split at h
    · simp at h
    · next t ht =>
      have h1 := asciiText_ok ht
      have h2 := textMessage_ok h
      rw [input_length] at h1
      omega

theorem asciiMessage_error {e : Err} (h : asciiMessage s = .error e) :
    e ∈ ([.overflow, .start, .delim, .hexOdd, .hexChar, .lrc, .length] : List Err) := by
  unfold asciiMessage at h
  split at h
  · simp at h; simp [← h]
  · split at h
    · next e' he' =>
      rw [Except.error.injEq] at h
      subst h
      have := asciiText_error he'
      simp only [List.mem_cons] at this ⊢
      tauto
    · have := textMessage_error h
      simp only [List.mem_cons] at this ⊢
      tauto

theorem parseView_bounds (o : CoilOther) (bo : ByteOrder) (fc : Byte) (p : List Byte) :
    ((parseView o bo fc p).1 ≠ .none → 4 ≤ p.length)
      ∧ ((parseView o bo fc p).1 = .none → (parseView o bo fc p).2.1 = 0 ∧ (parseView o bo fc p).2.2 = 0)
      ∧ ((parseView o bo fc p).1 = .coil → (parseView o bo fc p).2.2 = 0 ∨ (parseView o bo fc p).2.2 = 1) := by
  simp only [parseView]
  split
  · simp
  · next h =>
    refine ⟨fun _ => by omega, ?_⟩
    repeat' split
    all_goals simp

theorem decodeRequest_ends (hi : i ∈ decoders) (hc : requiredCodes s.cfg i = none) {d : List Byte}
    (hd : d.length ≤ s.cfg.bufBytes) : ∃ t, decodeRequest d s = .next t ∧ Ends i s t := by
  have := parseView_bounds s.cfg.coilOther s.bo (code7 (byteOf d 1)) (d.drop 2)
  exact ⟨_, rfl, .message _ _ _ _ _ _ _ _ _ hi hc (by simp; omega) this.1 this.2.1 this.2.2⟩

theorem decodeResponse_ends (hi : i ∈ decoders) (hc : requiredCodes s.cfg i = none)
    (hl : .length ∈ listedErrors i) {d : List Byte} (hd : d.length ≤ s.cfg.bufBytes) :
    ∃ t, decodeResponse d s = .next t ∧ Ends i s t := by
  unfold decodeResponse
  split
  · split
    · exact ⟨_, rfl, .error _ (by decide) (fun _ => hl) (by simp [hc])⟩
    · exact ⟨_, rfl, .exception _ _ _ _ _ hi hc⟩
  · exact ⟨_, rfl, .message _ _ _ _ _ _ _ _ _ hi hc (by simp; omega) (fun h => absurd rfl h) (fun _ => ⟨rfl, rfl⟩)
      (fun h => by cases h)⟩

theorem decodeFrame_ends {m : Except Err (List Byte)} {c : List Byte → State → Answer}
    (hc : requiredCodes s.cfg i = none) (he : ∀ e, m = .error e → e ≠ .none ∧ e ∈ listedErrors i)
    (hd : ∀ d, m = .ok d → ∃ t, c d s = .next t ∧ Ends i s t) : ∃ t, decodeFrame m c s = .next t ∧ Ends i s t := by
  unfold decodeFrame
  split
  · next e => exact ⟨_, rfl, .error e (he e rfl).1 (fun _ => (he e rfl).2) (by simp [hc])⟩
  · next d => exact hd d rfl

theorem valueList_error {c : Half} {e : Err} (h : valueList s c = .error e) :
    e ∈ ([.overflow, .length, .mismatch, .limit] : List Err) := by
  unfold valueList at h
  repeat' split at h
  all_goals first | (simp at h; done) | (simp at h; simp [← h])

theorem coilList_error {c : Half} {e : Err} (h : coilList s c = .error e) :
    e ∈ ([.overflow, .mismatch, .limit] : List Err) := by
  unfold coilList at h
  repeat' split at h
  all_goals first | (simp at h; done) | (simp at h; simp [← h])

theorem readFilePayload_error {e : Err} (h : readFilePayload s = .error e) :
    e ∈ ([.overflow, .empty, .length, .limit] : List Err) := by
  unfold readFilePayload at h
  repeat' split at h
  all_goals first | (simp at h; done) | (simp at h; simp [← h])

theorem fileRecords_error {l : List Byte} {n pos : Nat} {e : Err} (h : fileRecords l n pos = .error e) :
    e = .length := by
  induction n generalizing pos with
  | zero => simpa [fileRecords, eq_comm] using h
  | succ n ih =>
    unfold fileRecords at h
    repeat' split at h
    all_goals first | (simp at h; done) | (simp at h; exact h.symm) | skip
    next e' he' => rw [Except.error.injEq] at h; subst h; exact ih he'

theorem writeFilePayload_error {e : Err} (h : writeFilePayload s = .error e) :
    e ∈ ([.overflow, .empty, .length, .limit] : List Err) := by
  unfold writeFilePayload at h
  repeat' split at h
  all_goals first | (simp at h; done) | (simp at h; simp [← h]; done) | skip
  next e' he' =>
    rw [Except.error.injEq] at h
    subst h
    simp [fileRecords_error he']

theorem withFields_error {f : List Byte} {p : Payload} {e : Err} (h : withFields f p = .error e) : p = .error e := by
  cases p <;> simp_all [withFields]

theorem execGetSpan_ends : ∃ t, execGetSpan s = .next t ∧ Ends .getSpan s t := by
  unfold execGetSpan
  split <;> exact ⟨_, rfl, .result _ _ (by decide) rfl⟩

theorem execSetRaw_ends : ∃ t, execSetRaw s = .next t ∧ Ends .setRaw s t := by
  unfold execSetRaw
  split
  · exact ⟨_, rfl, .error _ (by decide) (fun _ => by decide) (by simp [requiredCodes])⟩
  · next h =>
    rw [inputTooLong_iff] at h
    exact ⟨_, rfl, .payload _ _ _ _ (by decide) (by simp [requiredCodes]) (by simp; omega) (fun h => absurd rfl h)
      (fun _ => ⟨rfl, rfl⟩) (fun h => by cases h)⟩

theorem execAscChk_ends : ∃ t, execAscChk s = .next t ∧ Ends .ascChk s t := by
  unfold execAscChk
  split
  · exact ⟨_, rfl, .error _ (by decide) (fun _ => by decide) (by simp [requiredCodes])⟩
  · split <;> exact ⟨_, rfl, .result _ _ (by decide) rfl⟩

end

theorem enc16_length (v : Half) (bo : ByteOrder) : (enc16 v bo).length = 2 := by cases bo <;> rfl

theorem encWords_length (bo : ByteOrder) (ws : List Half) : (encWords bo ws).length = 2 * ws.length := by
  induction ws with
  | nil => rfl
  | cons v ws ih =>
    rw [encWords, List.flatMap_cons, List.length_append, enc16_length]
    rw [encWords] at ih
    simp only [List.length_cons]
    omega

theorem enc32_length (v : Word) (bo : ByteOrder) (wo : WordOrder) : (enc32 v bo wo).length = 4 := by
  cases wo <;> simp [enc32, enc16_length]

/-- A setter whose payload has a fixed length of at most 16 bytes. -/
theorem fixedSetter_ends {i : Instr} {s : State} {c : Bool} {k : FieldKind} {a b : Half} {l : List Byte}
    {codes : List Byte} (hi : i ∈ payloadWriters) (hc : requiredCodes s.cfg i = some codes)
    (hcodes : c = true ↔ s.fc ∈ codes) (hl : l.length ≤ 16) (hk : k ≠ .none → 4 ≤ l.length)
    (hn : k = .none → a = 0 ∧ b = 0) (hb : k = .coil → b = 0 ∨ b = 1) :
    ∃ t, structuredSetter c k a b (.ok l) s = .next t ∧ Ends i s t :=
  structuredSetter_ends hi hc hcodes (fun _ h => by cases h)
    (.inr fun m h => by simp only [Except.ok.injEq] at h; exact h ▸ hl)
    (fun h m hm => by simp only [Except.ok.injEq] at hm; exact hm ▸ hk h) hn hb

/-- A setter whose payload has no view and a list of its own errors. -/
theorem listSetter_ends {i : Instr} {s : State} {c : Bool} {p : Payload} {codes : List Byte} (es : List Err)
    (hi : i ∈ payloadWriters) (hc : requiredCodes s.cfg i = some codes) (hcodes : c = true ↔ s.fc ∈ codes)
    (ho : .overflow ∈ listedErrors i) (hes : ∀ e ∈ es, e ≠ .none ∧ e ∈ listedErrors i)
    (he : ∀ e, p = .error e → e ∈ es) :
    ∃ t, structuredSetter c .none 0 0 p s = .next t ∧ Ends i s t :=
  structuredSetter_ends hi hc hcodes (fun e h => hes e (he e h)) (.inl ho) (fun h => absurd rfl h)
    (fun _ => ⟨rfl, rfl⟩) (fun h => by cases h)

/-- The inversion of a command: its next state, in one of the forms of `Ends`. -/
theorem exec_ends (i : Instr) (s : State) : ∃ t, exec i s = .next t ∧ Ends i s t := by
  have mem1 : ∀ f c : Byte, (f == c) = true ↔ f ∈ [c] := by simp
  cases i with
  | encU16 => exact encodeValue_ends (by decide) rfl (by rw [enc16_length]; omega)
  | decU16 =>
    simp only [exec, execDecU16]
    exact decodeValue_ends (by decide) rfl (by decide) (by decide) _ _
  | encU32 => exact encodeValue_ends (by decide) rfl (by rw [enc32_length])
  | decU32 =>
    simp only [exec, execDecU32]
    exact decodeValue_ends (by decide) rfl (by decide) (by decide) _ _
  | encF32 => exact encodeValue_ends (by decide) rfl (by rw [enc32_length])
  | decF32 =>
    simp only [exec, execDecF32]
    exact decodeValue_ends (by decide) rfl (by decide) (by decide) _ _
  | crc16Calc =>
    simp only [exec, execCrc16Calc]
    exact calcResult_ends (by decide) rfl (by decide) _
  | crc16Verify =>
    simp only [exec, execCrc16Verify]
    exact verdict_ends rfl (by decide) _
  | lrc8Calc =>
    simp only [exec, execLrc8Calc]
    exact calcResult_ends (by decide) rfl (by decide) _
  | lrc8Verify =>
    simp only [exec, execLrc8Verify]
    exact verdict_ends rfl (by decide) _
  | setRaw => exact execSetRaw_ends
  | setSpan =>
    exact fixedSetter_ends (by decide) rfl (by simp) (by simp [encWords_length]) (by simp [encWords_length])
      (by simp) (by simp)
  | setWsr =>
    exact fixedSetter_ends (by decide) rfl (mem1 _ _) (by simp [encWords_length]) (by simp [encWords_length])
      (by simp) (by simp)
  | setWsc =>
    refine fixedSetter_ends (by decide) rfl (mem1 _ _) (by simp [encWords_length]) (by simp [encWords_length])
      (by simp) fun _ => ?_
    split <;> simp
  | setWmr =>
    exact listSetter_ends _ (by decide) rfl (mem1 _ _) (by decide) (by decide)
      fun _ h => valueList_error (withFields_error h)
  | setWmc =>
    exact listSetter_ends _ (by decide) rfl (mem1 _ _) (by decide) (by decide)
      fun _ h => coilList_error (withFields_error h)
  | setDiag =>
    refine listSetter_ends [.overflow] (by decide) rfl (mem1 _ _) (by decide) (by decide) fun e h => ?_
    split at h
    · simp at h; simp [← h]
    · simp at h
  | setMask =>
    exact fixedSetter_ends (by decide) rfl (mem1 _ _) (by simp [encWords_length]) (by simp) (by simp) (by simp)
  | setRwm =>
    exact listSetter_ends _ (by decide) rfl (mem1 _ _) (by decide) (by decide)
      fun _ h => valueList_error (withFields_error h)
  | setFifo =>
    exact fixedSetter_ends (by decide) rfl (mem1 _ _) (by simp [enc16_length]) (by simp) (by simp) (by simp)
  | setRfr =>
    exact listSetter_ends _ (by decide) rfl (mem1 _ _) (by decide) (by decide) fun _ h => readFilePayload_error h
  | setWfr =>
    exact listSetter_ends _ (by decide) rfl (mem1 _ _) (by decide) (by decide) fun _ h => writeFilePayload_error h
  | getSpan => exact execGetSpan_ends
  | rtuEncReq => exact emitFrame_ends (by decide) rfl (by decide) (by decide) _
  | rtuEncRsp => exact emitFrame_ends (by decide) rfl (by decide) (by decide) _
  | rtuDecReq =>
    exact decodeFrame_ends rfl
      (fun e h => (by decide : ∀ e ∈ ([.overflow, .length, .crc] : List Err), e ≠ .none ∧ e ∈ listedErrors .rtuDecReq)
        e (rtuMessage_error h))
      fun d h => decodeRequest_ends (by decide) rfl (rtuMessage_ok h)
  | rtuDecRsp =>
    exact decodeFrame_ends rfl
      (fun e h => (by decide : ∀ e ∈ ([.overflow, .length, .crc] : List Err), e ≠ .none ∧ e ∈ listedErrors .rtuDecRsp)
        e (rtuMessage_error h))
      fun d h => decodeResponse_ends (by decide) rfl (by decide) (rtuMessage_ok h)
  | rtuChkReq => exact checkComplete_ends (by decide) rfl (by decide) _
  | rtuChkRsp => exact checkComplete_ends (by decide) rfl (by decide) _
  | ascEncReq => exact emitFrame_ends (by decide) rfl (by decide) (by decide) _
  | ascEncRsp => exact emitFrame_ends (by decide) rfl (by decide) (by decide) _
  | ascDecReq =>
    exact decodeFrame_ends rfl
      (fun e h => (by decide : ∀ e ∈ ([.overflow, .start, .delim, .hexOdd, .hexChar, .lrc, .length] : List Err),
        e ≠ .none ∧ e ∈ listedErrors .ascDecReq) e (asciiMessage_error h))
      fun d h => decodeRequest_ends (by decide) rfl (asciiMessage_ok h)
  | ascDecRsp =>
    exact decodeFrame_ends rfl
      (fun e h => (by decide : ∀ e ∈ ([.overflow, .start, .delim, .hexOdd, .hexChar, .lrc, .length] : List Err),
        e ≠ .none ∧ e ∈ listedErrors .ascDecRsp) e (asciiMessage_error h))
      fun d h => decodeResponse_ends (by decide) rfl (by decide) (asciiMessage_ok h)
  | ascChk => exact execAscChk_ends

/-- A next state of a command has one of the forms of `Ends`. -/
theorem ends_of_exec {i : Instr} {s t : State} (h : exec i s = .next t) : Ends i s t := by
  obtain ⟨t', h', he⟩ := exec_ends i s
  rw [h', Host.Outcome.next.injEq] at h
  exact h ▸ he

end Sys2Proof.Machine
end

