-- ==== Sys2Proof/Laws/Reference.lean ====
section
/-! SUPPORT. The functions the meanings call are the functions the claims are stated with (Safety.lean): 16-bit and
32-bit wire order, checksums, host lists, header bytes. -/

namespace Sys2Proof.Machine

/-- A reset leaves the values of 10_state.md R46, whatever the state it is taken in. -/
theorem applyReset_hasResetValues (s : State) : (applyReset s).HasResetValues where
  engine := rfl
  ctrl := (by decide : State.reset.ctrlWord = 0)
  status := (by decide : State.reset.statusWord = 0)
  slave := rfl
  fc := rfl
  exc := rfl
  args := ⟨rfl, rfl, rfl, rfl⟩
  result := rfl
  lengths := ⟨rfl, rfl, rfl⟩
  view := ⟨rfl, rfl, rfl⟩
  bytes := fun b _ => by cases b <;> rfl

/-! ### Wire order -/

theorem highByte_toNat (v : Half) : (highByte v).toNat = v.toNat / 256 := by
  simp [highByte, Nat.shiftRight_eq_div_pow]; omega

theorem lowByte_toNat (v : Half) : (lowByte v).toNat = v.toNat % 256 := by simp [lowByte]

theorem highByte_eq (v : Half) : highByte v = BitVec.ofNat 8 (v.toNat / 256) := by
  apply BitVec.eq_of_toNat_eq
  have := v.isLt
  simp only [highByte_toNat, BitVec.toNat_ofNat]
  omega

theorem lowByte_eq (v : Half) : lowByte v = BitVec.ofNat 8 (v.toNat % 256) := by
  apply BitVec.eq_of_toNat_eq
  simp only [lowByte_toNat, BitVec.toNat_ofNat]
  omega

theorem enc16_eq (v : Half) (bo : ByteOrder) : enc16 v bo = wire16 v bo := by
  cases bo <;> simp [enc16, wire16, highByte_eq, lowByte_eq]

theorem encWords_eq (bo : ByteOrder) (ws : List Half) : encWords bo ws = wireList bo ws := by
  simp [encWords, wireList, enc16_eq]

theorem arg16_eq (a : Word) : arg16 a = low16 a := by
  apply BitVec.eq_of_toNat_eq
  simp [arg16, low16]

theorem argBit_iff (a : Word) : argBit a = true ↔ a.toNat % 2 = 1 := by
  simp [argBit, BitVec.getLsbD, Nat.testBit_zero]

/-- Two bytes joined, the first the higher. -/
theorem joinBytes_toNat (h l : Byte) : ((h.setWidth 16 <<< 8) ||| l.setWidth 16).toNat = 256 * h.toNat + l.toNat := by
  have hh := h.isLt
  have hl := l.isLt
  rw [BitVec.toNat_or, BitVec.toNat_shiftLeft, BitVec.toNat_setWidth, BitVec.toNat_setWidth,
    Nat.mod_eq_of_lt (by omega : h.toNat < 2 ^ 16), Nat.mod_eq_of_lt (by omega : l.toNat < 2 ^ 16),
    Nat.shiftLeft_eq, Nat.mod_eq_of_lt (by omega : h.toNat * 2 ^ 8 < 2 ^ 16), Nat.mul_comm,
    ← Nat.two_pow_add_eq_or_of_lt (by omega : l.toNat < 2 ^ 8)]

/-- Two halves joined, the first the higher. -/
theorem joinHalves_toNat (h l : Half) :
    ((h.setWidth 32 <<< 16) ||| l.setWidth 32).toNat = 65536 * h.toNat + l.toNat := by
  have hh := h.isLt
  have hl := l.isLt
  rw [BitVec.toNat_or, BitVec.toNat_shiftLeft, BitVec.toNat_setWidth, BitVec.toNat_setWidth,
    Nat.mod_eq_of_lt (by omega : h.toNat < 2 ^ 32), Nat.mod_eq_of_lt (by omega : l.toNat < 2 ^ 32),
    Nat.shiftLeft_eq, Nat.mod_eq_of_lt (by omega : h.toNat * 2 ^ 16 < 2 ^ 32), Nat.mul_comm,
    ← Nat.two_pow_add_eq_or_of_lt (by omega : l.toNat < 2 ^ 16)]

theorem dec16_eq (b0 b1 : Byte) (bo : ByteOrder) : dec16 b0 b1 bo = read16 b0 b1 bo := by
  have h0 := b0.isLt
  have h1 := b1.isLt
  apply BitVec.eq_of_toNat_eq
  cases bo <;> simp only [dec16, read16, joinBytes_toNat, BitVec.toNat_ofNat] <;> omega

theorem read16_toNat (b0 b1 : Byte) (bo : ByteOrder) : (read16 b0 b1 bo).toNat =
    match bo with
    | .bigEndian => 256 * b0.toNat + b1.toNat
    | .littleEndian => 256 * b1.toNat + b0.toNat := by
  have h0 := b0.isLt
  have h1 := b1.isLt
  cases bo <;> simp only [read16, BitVec.toNat_ofNat] <;> omega

@[simp] theorem wire16_length (v : Half) (bo : ByteOrder) : (wire16 v bo).length = 2 := by cases bo <;> rfl

@[simp] theorem wireList_nil (bo : ByteOrder) : wireList bo [] = [] := rfl

@[simp] theorem wireList_cons (bo : ByteOrder) (v : Half) (ws : List Half) :
    wireList bo (v :: ws) = wire16 v bo ++ wireList bo ws := rfl

@[simp] theorem wireList_length (bo : ByteOrder) (ws : List Half) : (wireList bo ws).length = 2 * ws.length := by
  induction ws with
  | nil => rfl
  | cons v ws ih => simp [ih]; omega

/-- 41_codec.md R93, at 16 bits. -/
theorem read16_wire16 (v : Half) (bo : ByteOrder) :
    read16 (byteOf (wire16 v bo) 0) (byteOf (wire16 v bo) 1) bo = v := by
  have := v.isLt
  apply BitVec.eq_of_toNat_eq
  cases bo <;> simp only [read16_toNat, wire16, byteOf, List.getD_cons_zero, List.getD_cons_succ,
    BitVec.toNat_ofNat] <;> omega

theorem wire16_read16 (b0 b1 : Byte) (bo : ByteOrder) : wire16 (read16 b0 b1 bo) bo = [b0, b1] := by
  have h0 := b0.isLt
  have h1 := b1.isLt
  have e : ∀ x y : Byte, (BitVec.ofNat 8 ((256 * x.toNat + y.toNat) / 256) = x)
      ∧ BitVec.ofNat 8 ((256 * x.toNat + y.toNat) % 256) = y := by
    intro x y
    have hx := x.isLt
    have hy := y.isLt
    constructor <;> apply BitVec.eq_of_toNat_eq <;> simp only [BitVec.toNat_ofNat] <;> omega
  cases bo <;> simp only [wire16, read16_toNat, e]

theorem enc32_eq (v : Word) (bo : ByteOrder) (wo : WordOrder) : enc32 v bo wo = wireList bo (wireWords v wo) := by
  have h1 : v.extractLsb' 16 16 = BitVec.ofNat 16 (v.toNat / 65536) := by
    apply BitVec.eq_of_toNat_eq
    simp [Nat.shiftRight_eq_div_pow]
  have h2 : v.extractLsb' 0 16 = BitVec.ofNat 16 (v.toNat % 65536) := by
    apply BitVec.eq_of_toNat_eq
    simp
  cases wo <;> simp [enc32, wireWords, enc16_eq, h1, h2]

@[simp] theorem wireWords_length (v : Word) (wo : WordOrder) : (wireWords v wo).length = 2 := by cases wo <;> rfl

/-- The words of a 32-bit decode are the two 16-bit fields received (41_codec.md R86). -/
theorem wireWords_dec32 (b0 b1 b2 b3 : Byte) (bo : ByteOrder) (wo : WordOrder) :
    wireWords (dec32 b0 b1 b2 b3 bo wo) wo = [read16 b0 b1 bo, read16 b2 b3 bo] := by
  have e : ∀ h l : Half, BitVec.ofNat 16 ((65536 * h.toNat + l.toNat) / 65536) = h
      ∧ BitVec.ofNat 16 ((65536 * h.toNat + l.toNat) % 65536) = l := by
    intro h l
    have hh := h.isLt
    have hl := l.isLt
    constructor <;> apply BitVec.eq_of_toNat_eq <;> simp only [BitVec.toNat_ofNat] <;> omega
  cases wo <;> simp only [wireWords, dec32, joinHalves_toNat, e, dec16_eq]

theorem wireWords_inj {v w : Word} {wo : WordOrder} (h : wireWords v wo = wireWords w wo) : v = w := by
  have hv := v.isLt
  have hw := w.isLt
  apply BitVec.eq_of_toNat_eq
  have key : ∀ a b : Nat, BitVec.ofNat 16 a = BitVec.ofNat 16 b → a % 65536 = b % 65536 := by
    intro a b hab
    simpa using congrArg BitVec.toNat hab
  cases wo <;> simp only [wireWords, List.cons.injEq, and_true] at h <;>
    (have h1 := key _ _ h.1; have h2 := key _ _ h.2; omega)

theorem packHalves_eq (a b : Half) : packHalves a b = BitVec.ofNat 32 (a.toNat + 65536 * b.toNat) := by
  have ha := a.isLt
  have hb := b.isLt
  apply BitVec.eq_of_toNat_eq
  rw [packHalves, BitVec.or_comm, joinHalves_toNat, BitVec.toNat_ofNat]
  omega

/-- `dec16` undoes `enc16`, in either byte order (41_codec.md R93). -/
theorem dec16_enc16 (v : Half) (bo : ByteOrder) : dec16 (byteOf (enc16 v bo) 0) (byteOf (enc16 v bo) 1) bo = v := by
  rw [enc16_eq, dec16_eq, read16_wire16]

/-- Two words in wire order, read back word by word (41_codec.md R93). -/
theorem read16_wireList_pair (x y : Half) (bo : ByteOrder) :
    [read16 (byteOf (wireList bo [x, y]) 0) (byteOf (wireList bo [x, y]) 1) bo,
      read16 (byteOf (wireList bo [x, y]) 2) (byteOf (wireList bo [x, y]) 3) bo] = [x, y] := by
  have hx := read16_wire16 x bo
  have hy := read16_wire16 y bo
  cases bo <;> simpa [wireList, wire16, byteOf] using ⟨hx, hy⟩

/-- `dec32` undoes `enc32`, in every byte and word order, bit for bit (41_codec.md R93). -/
theorem dec32_enc32 (v : Word) (bo : ByteOrder) (wo : WordOrder) :
    dec32 (byteOf (enc32 v bo wo) 0) (byteOf (enc32 v bo wo) 1) (byteOf (enc32 v bo wo) 2) (byteOf (enc32 v bo wo) 3)
      bo wo = v := by
  apply wireWords_inj (wo := wo)
  rw [wireWords_dec32, enc32_eq]
  match wireWords v wo, wireWords_length v wo with
  | [x, y], _ => exact read16_wireList_pair x y bo

/-! ### Checksums -/

theorem crcBit_eq (c : Half) : crcBit c = if c.toNat % 2 = 1 then (c >>> 1) ^^^ 0xA001 else c >>> 1 := by
  simp [crcBit, BitVec.getLsbD, Nat.testBit_zero]

theorem crcFrom_append (c : Half) (l m : List Byte) : crcFrom c (l ++ m) = crcFrom (crcFrom c l) m := by
  induction l generalizing c with
  | nil => rfl
  | cons b l ih => exact ih _

theorem crcFrom_eq_foldl (c : Half) (l : List Byte) : crcFrom c l = l.foldl crcByte c := by
  induction l generalizing c with
  | nil => rfl
  | cons b l ih => exact ih _

theorem crc16_eq (l : List Byte) : crc16 l = crcRef l := by
  rw [crc16, crcFrom_eq_foldl, crcRef]
  congr 1
  funext c b
  have h : b.setWidth 16 = BitVec.ofNat 16 b.toNat := by
    apply BitVec.eq_of_toNat_eq
    simp
  simp only [crcByte, crcBits, h, crcBit_eq]
  rfl

theorem crcWire_eq (l : List Byte) : crcWire (crc16 l) = crcTail l := by
  simp [crcWire, crcTail, lowByte_eq, highByte_eq, crc16_eq]

@[simp] theorem crcTail_length (l : List Byte) : (crcTail l).length = 2 := rfl

/-- A sequence of two bytes or more is a body and two bytes. -/
theorem split_tail {l : List Byte} (h : 2 ≤ l.length) :
    l = l.take (l.length - 2) ++ [byteOf l (l.length - 2), byteOf l (l.length - 1)] := by
  refine eq_of_byteOf_eq (by simp; omega) fun i hi => ?_
  rcases Nat.lt_or_ge i (l.length - 2) with h1 | h1
  · simp only [byteOf, List.getD_eq_getElem?_getD]
    rw [List.getElem?_append_left (by simp; omega), List.getElem?_take_of_lt h1]
  · simp only [byteOf, List.getD_eq_getElem?_getD]
    rw [List.getElem?_append_right (by simp; omega)]
    have : i = l.length - 2 ∨ i = l.length - 1 := by omega
    rcases this with rfl | rfl
    · simp
    · rw [List.length_take, show l.length - 1 - min (l.length - 2) l.length = 1 by omega]; rfl

theorem crcTail_eq_iff (d : List Byte) (x y : Byte) :
    crcTail d = [x, y] ↔ crc16 d = dec16 x y .littleEndian := by
  rw [← crcWire_eq, dec16_eq]
  constructor
  · intro h
    rw [crcWire, List.cons.injEq, List.cons.injEq] at h
    apply BitVec.eq_of_toNat_eq
    rw [read16_toNat, ← h.1, ← h.2.1, lowByte_toNat, highByte_toNat]
    exact (Nat.div_add_mod _ 256).symm
  · intro h
    have := wire16_read16 x y .littleEndian
    rw [← h, ← enc16_eq] at this
    exact this

/-- The check of 42_checksum.md R99: a body followed by its own CRC. -/
theorem crcMatches_iff {l : List Byte} (h : 2 ≤ l.length) : crcMatches l = true ↔ ∃ d, l = d ++ crcTail d := by
  rw [crcMatches, beq_iff_eq, ← crcTail_eq_iff]
  constructor
  · intro he
    exact ⟨_, (split_tail h).trans (by rw [he])⟩
  · rintro ⟨d, hd⟩
    have hs := split_tail h
    rw [hd] at hs
    have hlen : d.length = (d ++ crcTail d).length - 2 := by simp
    rw [hd]
    have := List.append_inj hs (by simp)
    rw [← this.1]
    exact this.2

theorem crcMatches_append (d : List Byte) : crcMatches (d ++ crcTail d) = true :=
  (crcMatches_iff (by simp)).mpr ⟨d, rfl⟩

theorem take_append_crcTail (d : List Byte) : (d ++ crcTail d).take ((d ++ crcTail d).length - 2) = d := by simp

theorem sum8_toNat (l : List Byte) : (sum8 l).toNat = byteSum l % 256 := by
  induction l with
  | nil => rfl
  | cons b l ih => simp [sum8, byteSum] at ih ⊢; omega

theorem sum8_eq_zero_iff (l : List Byte) : sum8 l = 0 ↔ byteSum l % 256 = 0 := by
  rw [← sum8_toNat]
  constructor
  · intro h; rw [h]; rfl
  · intro h; exact BitVec.eq_of_toNat_eq h

theorem sum8_append (l m : List Byte) : sum8 (l ++ m) = sum8 l + sum8 m := by
  induction l with
  | nil => simp [sum8]
  | cons b l ih => simp only [List.cons_append, sum8, ih, BitVec.add_assoc]

theorem lrc8_eq (l : List Byte) : lrc8 l = lrcRef l := by
  apply BitVec.eq_of_toNat_eq
  simp [lrc8, lrcRef, sum8_toNat, BitVec.toNat_neg]

theorem sum8_lrc (l : List Byte) : sum8 (l ++ [lrc8 l]) = 0 := by
  rw [sum8_append]
  simp [sum8, lrc8]

/-! ### Header bytes -/

theorem code7_toNat (f : Byte) : (code7 f).toNat = f.toNat % 128 := by
  rw [code7, BitVec.toNat_and]
  exact Nat.and_two_pow_sub_one_eq_mod f.toNat 7

theorem code7_of_lt {f : Byte} (h : f.toNat < 128) : code7 f = f := by
  apply BitVec.eq_of_toNat_eq
  rw [code7_toNat, Nat.mod_eq_of_lt h]

theorem exceptionBit_eq (f : Byte) : exceptionBit f = decide (128 ≤ f.toNat) := by
  have := f.isLt
  simp [exceptionBit, BitVec.getLsbD, Nat.testBit_eq_decide_div_mod_eq]
  omega

theorem orBit7_toNat {f : Byte} (h : f.toNat < 128) : (f ||| 0x80).toNat = f.toNat + 128 := by
  rw [BitVec.or_comm, BitVec.toNat_or]
  have := Nat.two_pow_add_eq_or_of_lt (i := 7) h 1
  simp only [Nat.mul_one] at this
  rw [show (0x80 : Byte).toNat = 2 ^ 7 from rfl, ← this]
  omega

theorem exc_real_iff (s : State) : s.exc.real s.cfg.ackCode = true ↔ RealException s := by
  simp [Exc.real, RealException]

theorem knownCode_eq (p : Params) (f : Byte) : knownCode p f = decide (f ∈ p.supportedFc) := by
  simp [knownCode]

/-! ### Host lists -/

@[simp] theorem hostList_nil : hostList [] = [] := rfl

theorem hostList_cons (v : Half) (ws : List Half) :
    hostList (v :: ws) = [BitVec.ofNat 8 (v.toNat % 256), BitVec.ofNat 8 (v.toNat / 256)] ++ hostList ws := rfl

@[simp] theorem hostList_append (ws vs : List Half) : hostList (ws ++ vs) = hostList ws ++ hostList vs := by
  simp [hostList]

@[simp] theorem hostList_length (ws : List Half) : (hostList ws).length = 2 * ws.length := by
  induction ws with
  | nil => rfl
  | cons v ws ih => simp [hostList_cons, ih]; omega

theorem host16_eq (l : List Byte) (k : Nat) :
    host16 l k = read16 (byteOf l (2 * k)) (byteOf l (2 * k + 1)) .littleEndian := by
  rw [host16, BitVec.or_comm, ← dec16_eq]; rfl

theorem byteOf_append_left {l m : List Byte} {i : Nat} (h : i < l.length) : byteOf (l ++ m) i = byteOf l i := by
  simp [byteOf, List.getElem?_append_left h]

theorem byteOf_append_right (l m : List Byte) (i : Nat) : byteOf (l ++ m) (l.length + i) = byteOf m i := by
  simp only [byteOf, List.getD_eq_getElem?_getD]
  rw [List.getElem?_append_right (by omega), Nat.add_sub_cancel_left]

/-- Element k of the host's list (20_memory.md R62). -/
theorem host16_hostList_append (pre : List Byte) (ws : List Half) (post : List Byte) {k : Nat} (hk : k < ws.length)
    {n : Nat} (hn : pre.length = 2 * n) :
    host16 (pre ++ (hostList ws ++ post)) (n + k) = ws[k] := by
  rw [host16_eq, show 2 * (n + k) + 1 = pre.length + (2 * k + 1) by omega,
    show 2 * (n + k) = pre.length + 2 * k by omega, byteOf_append_right, byteOf_append_right]
  clear hn
  induction ws generalizing k with
  | nil => simp at hk
  | cons v ws ih =>
    cases k with
    | zero => exact read16_wire16 v .littleEndian
    | succ k =>
      have := ih (k := k) (by simpa using hk)
      simpa [hostList_cons, byteOf, Nat.mul_add] using this

theorem host16_hostList (ws : List Half) {k : Nat} (hk : k < ws.length) : host16 (hostList ws) k = ws[k] := by
  have := host16_hostList_append [] ws [] hk (n := 0) rfl
  simpa using this

/-- The whole list read back. -/
theorem map_host16_hostList (ws : List Half) : (List.range ws.length).map (host16 (hostList ws)) = ws := by
  refine List.ext_getElem (by simp) fun i h1 h2 => ?_
  simp [host16_hostList ws h2]

/-- Every byte sequence of even length is a host list. -/
theorem exists_hostList {l : List Byte} {n : Nat} (h : l.length = 2 * n) : ∃ ws, ws.length = n ∧ l = hostList ws := by
  induction n generalizing l with
  | zero => exact ⟨[], rfl, List.length_eq_zero_iff.mp h⟩
  | succ n ih =>
    match l, h with
    | a :: b :: l, h =>
      obtain ⟨ws, hn, rfl⟩ := ih (l := l) (by simp at h; omega)
      refine ⟨read16 a b .littleEndian :: ws, by simp [hn], ?_⟩
      rw [hostList_cons]
      have := wire16_read16 a b .littleEndian
      simp only [wire16] at this
      rw [this]; rfl

/-! ### One changed byte -/

theorem byteOf_set_ne {l : List Byte} {k i : Nat} {x : Byte} (h : i ≠ k) : byteOf (l.set k x) i = byteOf l i := by
  simp [byteOf, Ne.symm h]

theorem byteOf_set_eq {l : List Byte} {k : Nat} {x : Byte} (h : k < l.length) : byteOf (l.set k x) k = x := by
  simp [byteOf, h]

theorem sum8_set (l : List Byte) (k : Nat) (hk : k < l.length) (x : Byte) :
    sum8 (l.set k x) = sum8 l - byteOf l k + x := by
  induction l generalizing k with
  | nil => simp at hk
  | cons b l ih =>
    cases k with
    | zero => simp only [List.set_cons_zero, sum8, byteOf, List.getD_cons_zero]; bv_omega
    | succ k =>
      have := ih k (by simpa using hk)
      simp only [List.set_cons_succ, sum8, this, byteOf, List.getD_cons_succ]
      bv_omega

end Sys2Proof.Machine
end

