-- ==== Sys2Proof/Laws/Framing.lean ====
section
/-! SUPPORT. Frames: the message of an encoder, the commit of a decoder, and hex text (44_rtu.md, 45_ascii.md). -/

namespace Sys2Proof.Machine

/-! ### Messages -/

theorem requestMessage_eq (s : State) : requestMessage s = RequestMessage s := rfl

theorem requestMessage_length (s : State) : (RequestMessage s).length = s.pduLen.toNat + 2 := by
  simp [RequestMessage]

theorem responseMessage_real {s : State} (h : RealException s) : responseMessage s = ExceptionMessage s := by
  rw [responseMessage, if_pos ((exc_real_iff s).mpr h)]; rfl

theorem responseMessage_normal {s : State} (h : ¬ RealException s) : responseMessage s = RequestMessage s := by
  rw [responseMessage, if_neg (fun hr => h ((exc_real_iff s).mp hr))]; rfl

/-- The view a request decode sets is the view of its payload (44_rtu.md R131). -/
theorem parseView_viewOf (o : CoilOther) (bo : ByteOrder) (fc : Byte) (p : List Byte) :
    ViewOf o bo fc p (parseView o bo fc p).1 (parseView o bo fc p).2.1 (parseView o bo fc p).2.2 := by
  simp only [ViewOf, parseView, dec16_eq]
  generalize read16 (byteOf p 0) (byteOf p 1) bo = a
  generalize read16 (byteOf p 2) (byteOf p 3) bo = v
  by_cases hp : p.length < 4
  · simp [hp, Nat.not_le.mpr hp]
  · have hp' : 4 ≤ p.length := by omega
    simp only [hp, hp', if_false, true_and]
    have hm : fc ∈ ([0x01, 0x02, 0x03, 0x04] : List Byte) ↔ fc = 0x01 ∨ fc = 0x02 ∨ fc = 0x03 ∨ fc = 0x04 := by simp
    rw [if_congr hm rfl rfl]
    by_cases h1 : fc = 0x01 ∨ fc = 0x02 ∨ fc = 0x03 ∨ fc = 0x04
    · rw [if_pos h1, if_pos h1]; exact ⟨rfl, rfl, rfl⟩
    · rw [if_neg h1, if_neg h1]
      by_cases h6 : fc = 0x06
      · rw [if_pos h6, if_pos h6]; exact ⟨rfl, rfl, rfl⟩
      · rw [if_neg h6, if_neg h6]
        by_cases h5 : fc = 0x05
        · simp only [h5, if_true, true_and]
          by_cases hv : v = 0xFF00
          · rw [if_pos hv, if_pos hv]; exact ⟨rfl, rfl, rfl⟩
          · rw [if_neg hv, if_neg hv]
            by_cases hz : v = 0x0000
            · rw [if_pos (.inl hz), if_pos hz]; exact ⟨rfl, rfl, rfl⟩
            · by_cases ho : o = .off
              · rw [if_pos (.inr ho), if_neg hz, if_pos ho]; exact ⟨rfl, rfl, rfl⟩
              · rw [if_neg (by tauto), if_neg hz, if_neg ho]; exact ⟨rfl, rfl, rfl⟩
        · rw [if_neg h5, if_neg (by tauto), if_neg (by tauto)]; exact ⟨rfl, rfl, rfl⟩

/-- Two states hold the same structured view of the same payload. -/
theorem viewOf_unique {o : CoilOther} {bo : ByteOrder} {fc : Byte} {p : List Byte} {k k' : FieldKind}
    {a a' b b' : Half} (h : ViewOf o bo fc p k a b) (h' : ViewOf o bo fc p k' a' b') : k = k' ∧ a = a' ∧ b = b' := by
  simp only [ViewOf] at h h'
  split at h
  · next c => rw [if_pos c] at h'; simp [h, h']
  · next c =>
    rw [if_neg c] at h'
    split at h
    · next c => rw [if_pos c] at h'; simp [h, h']
    · next c =>
      rw [if_neg c] at h'
      split at h
      · next c => rw [if_pos c] at h'; simp [h, h']
      · next c =>
        rw [if_neg c] at h'
        split at h
        · next c => rw [if_pos c] at h'; simp [h, h']
        · next c => rw [if_neg c] at h'; simp [h, h']

theorem decodeRequest_spec {d : List Byte} (hd : d.length < 65536) (s : State) :
    ∃ t k a b, decodeRequest d s = .next t ∧ WroteMessage d (d.drop 2) ⟨false, 0⟩ k a b s t
      ∧ t.fc = code7 (byteOf d 1) ∧ ViewOf s.cfg.coilOther s.bo (code7 (byteOf d 1)) (d.drop 2) k a b := by
  have hl : (d.drop 2).length < 65536 := by simp; omega
  refine ⟨_, _, _, _, rfl, ?_, rfl, parseView_viewOf _ _ _ _⟩
  refine ⟨succeeded_finishOk _ _, rfl, code7_toNat _, exceptionBit_eq _, knownCode_eq _ _, rfl, toNat_ofNat_length hl,
    ?_, ?_, rfl, rfl, rfl, rfl, ?_, ?_⟩
  · refine Eq.trans (bytes_congr fun i _ => ?_) (payload_putPayload hl (putMessageHeader d ⟨false, 0⟩ s))
    simp
  · intro i hi
    rw [byteAt_finishOk, byteAt_putView, byteAt_putPayload, if_neg (by omega)]
    simp [putMessageHeader]
  all_goals constructor <;> first | rfl | (intro i; simp [putMessageHeader])

theorem decodeResponse_normal {d : List Byte} (hd : d.length < 65536) (he : (byteOf d 1).toNat < 128) (s : State) :
    ∃ t, decodeResponse d s = .next t ∧ WroteMessage d (d.drop 2) ⟨true, s.cfg.ackCode⟩ .none 0 0 s t := by
  have hl : (d.drop 2).length < 65536 := by simp; omega
  have hb : exceptionBit (byteOf d 1) = false := by rw [exceptionBit_eq]; simpa using he
  refine ⟨_, by simp only [decodeResponse, hb]; rfl, ?_⟩
  refine ⟨succeeded_finishOk _ _, rfl, code7_toNat _, exceptionBit_eq _, knownCode_eq _ _, rfl, toNat_ofNat_length hl,
    ?_, ?_, rfl, rfl, rfl, rfl, ?_, ?_⟩
  · refine Eq.trans (bytes_congr fun i _ => ?_) (payload_putPayload hl (putMessageHeader d ⟨true, s.cfg.ackCode⟩ s))
    simp
  · intro i hi
    rw [byteAt_finishOk, byteAt_putView, byteAt_putPayload, if_neg (by omega)]
    simp [putMessageHeader]
  all_goals constructor <;> first | rfl | (intro i; simp [putMessageHeader])

theorem decodeResponse_exception {d : List Byte} (hd : 3 ≤ d.length) (he : 128 ≤ (byteOf d 1).toNat) (s : State) :
    ∃ t, decodeResponse d s = .next t ∧ WroteMessage d [] ⟨true, byteOf d 2⟩ .none 0 0 s t := by
  have hb : exceptionBit (byteOf d 1) = true := by rw [exceptionBit_eq]; simpa using he
  refine ⟨_, by simp only [decodeResponse, hb, if_true, if_neg (Nat.not_lt.mpr hd)]; rfl, ?_⟩
  refine ⟨succeeded_finishOk _ _, rfl, code7_toNat _, exceptionBit_eq _, knownCode_eq _ _, rfl, rfl,
    rfl, ?_, rfl, rfl, rfl, rfl, ?_, ?_⟩
  · intro i hi; simp [putMessageHeader]
  all_goals constructor <;> first | rfl | (intro i; simp [putMessageHeader])

theorem decodeResponse_short {d : List Byte} (hd : d.length < 3) (he : 128 ≤ (byteOf d 1).toNat) (s : State) :
    decodeResponse d s = .next (afterError .length s) := by
  have hb : exceptionBit (byteOf d 1) = true := by rw [exceptionBit_eq]; simpa using he
  simp only [decodeResponse, hb, if_true, if_pos hd, raiseError_eq]

/-- The host's copy of OUT is what it reads as IN (70_reset_and_hazards.md R189). -/
theorem input_of_copiedBack {t u : State} (h : CopiedBack t u) : u.input = t.output := by
  rw [State.input, State.output, h.inLen]
  exact bytes_congr h.bytes

/-! ### RTU -/

theorem rtuFrame_eq (m : List Byte) : rtuFrame m = m ++ crcTail m := by rw [rtuFrame, crcWire_eq]

theorem rtuMessage_good {s : State} (h : s.inLen.toNat ≤ s.cfg.bufBytes) {d : List Byte}
    (hd : s.input = d ++ crcTail d) (h2 : 2 ≤ d.length) : rtuMessage s = .ok d := by
  have hl : s.inLen.toNat = d.length + 2 := by rw [← input_length, hd]; simp
  rw [rtuMessage, inputTooLong_eq_false h, if_neg (by simp), if_neg (by omega), hd, crcMatches_append, if_pos rfl, hl]
  simp

/-! ### Hex text -/

theorem hexDigit_eq : ∀ d, d < 16 → upperHex[d]? = some (hexDigit d) := by decide

theorem hexVal_upper : ∀ (d : Nat) (c : Byte), upperHex[d]? = some c → hexVal c = some d := by
  intro d c h
  have hd : d < 16 := by
    by_contra hn
    rw [List.getElem?_eq_none (by simp [upperHex]; omega)] at h
    cases h
  have key : ∀ d, d < 16 → hexVal (hexDigit d) = some d := by decide
  rw [hexDigit_eq d hd, Option.some.injEq] at h
  exact h ▸ key d hd

theorem hexVal_lower : ∀ (d : Nat) (c : Byte), lowerHex[d]? = some c → hexVal c = some d := by
  intro d c h
  have hd : d < 16 := by
    by_contra hn
    rw [List.getElem?_eq_none (by simp [lowerHex]; omega)] at h
    cases h
  have key : ∀ d, d < 16 → ∃ c, lowerHex[d]? = some c ∧ hexVal c = some d := by decide
  obtain ⟨c', h1, h2⟩ := key d hd
  rw [h1, Option.some.injEq] at h
  exact h ▸ h2

theorem hexVal_table (c : Byte) : match hexVal c with
    | some d => d < 16 ∧ (upperHex[d]? = some c ∨ lowerHex[d]? = some c)
    | none => c ∉ upperHex ∧ c ∉ lowerHex := by
  have key : ∀ c : Byte, (∀ d, hexVal c = some d → d < 16 ∧ (upperHex[d]? = some c ∨ lowerHex[d]? = some c))
      ∨ (hexVal c = none ∧ c ∉ upperHex ∧ c ∉ lowerHex) := by
    have key' : ∀ c : Byte, ((hexVal c).any fun d =>
        decide (d < 16) && (upperHex[d]? == some c || lowerHex[d]? == some c)) = true
        ∨ (hexVal c = none ∧ c ∉ upperHex ∧ c ∉ lowerHex) := by decide
    intro c
    rcases key' c with h | h
    · left
      intro d hd
      simpa [hd] using h
    · exact .inr h
  split
  · next d hd =>
    rcases key c with h | h
    · exact h d hd
    · rw [hd] at h; cases h.1
  · next hd =>
    rcases key c with h | h
    · have key2 : ∀ c : Byte, hexVal c = none → c ∉ upperHex ∧ c ∉ lowerHex := by decide
      exact key2 c hd
    · exact h.2

/-- `VAL` accepts the digits of both letter cases (45_ascii.md R142). -/
theorem hexVal_some_iff (c : Byte) (d : Nat) : hexVal c = some d ↔ DigitOf c d := by
  constructor
  · intro h
    have := hexVal_table c
    rw [h] at this
    exact this.2
  · rintro (h | h)
    · exact hexVal_upper d c h
    · exact hexVal_lower d c h

theorem hexVal_none_iff (c : Byte) : hexVal c = none ↔ NoDigit c := by
  have ht := hexVal_table c
  constructor
  · intro h; rw [h] at ht; exact ht
  · rintro ⟨h1, h2⟩
    cases hv : hexVal c with
    | none => rfl
    | some d =>
      rw [hv] at ht
      rcases ht.2 with h | h
      · exact absurd (List.mem_of_getElem? h) h1
      · exact absurd (List.mem_of_getElem? h) h2

theorem digitOf_lt {c : Byte} {d : Nat} (h : DigitOf c d) : d < 16 := by
  have := hexVal_table c
  rw [(hexVal_some_iff c d).mpr h] at this
  exact this.1

theorem digitOf_unique {c : Byte} {d e : Nat} (h : DigitOf c d) (h' : DigitOf c e) : d = e := by
  have h1 := (hexVal_some_iff c d).mpr h
  have h2 := (hexVal_some_iff c e).mpr h'
  rw [h1, Option.some.injEq] at h2
  exact h2

/-- A hex digit is neither ':' nor CR nor LF. -/
theorem digitOf_ne {c : Byte} {d : Nat} (h : DigitOf c d) : c ≠ 0x3A ∧ c ≠ 0x0D ∧ c ≠ 0x0A := by
  have key : ∀ c : Byte, hexVal c ≠ none → c ≠ 0x3A ∧ c ≠ 0x0D ∧ c ≠ 0x0A := by decide
  exact key c (by rw [(hexVal_some_iff c d).mpr h]; simp)

theorem spells_nil : Spells [] [] := ⟨rfl, by simp⟩

theorem spells_cons_iff (x y : Byte) (t : List Byte) (b : Byte) (m : List Byte) :
    Spells (x :: y :: t) (b :: m) ↔ DigitOf x (b.toNat / 16) ∧ DigitOf y (b.toNat % 16) ∧ Spells t m := by
  constructor
  · rintro ⟨hl, h⟩
    have h0 := h 0 (by simp)
    refine ⟨by simpa [byteOf] using h0.1, by simpa [byteOf] using h0.2, by simp at hl; omega, fun k hk => ?_⟩
    have := h (k + 1) (by simpa using hk)
    simpa [byteOf, Nat.mul_add] using this
  · rintro ⟨hx, hy, hl, h⟩
    refine ⟨by simp; omega, fun k hk => ?_⟩
    cases k with
    | zero => exact ⟨by simpa [byteOf] using hx, by simpa [byteOf] using hy⟩
    | succ k =>
      have := h k (by simpa using hk)
      simpa [byteOf, Nat.mul_add] using this

theorem hexPairs_of_spells : ∀ {t m : List Byte}, Spells t m → hexPairs t = some m
  | [], m, h => by
    have : m = [] := List.eq_nil_of_length_eq_zero (by have := h.1; simp only [List.length_nil] at this; omega)
    subst this; rfl
  | [_], m, h => by have := h.1; simp at this; omega
  | x :: y :: t, [], h => by have := h.1; simp at this
  | x :: y :: t, b :: m, h => by
    obtain ⟨hx, hy, ht⟩ := (spells_cons_iff x y t b m).mp h
    simp only [hexPairs, (hexVal_some_iff _ _).mpr hx, (hexVal_some_iff _ _).mpr hy, hexPairs_of_spells ht]
    congr 2
    apply BitVec.eq_of_toNat_eq
    have := b.isLt
    rw [BitVec.toNat_ofNat]
    omega

theorem spells_of_hexPairs : ∀ {t m : List Byte}, hexPairs t = some m → Spells t m
  | [], m, h => by simp only [hexPairs, Option.some.injEq] at h; subst h; exact spells_nil
  | [_], m, h => by simp [hexPairs] at h
  | x :: y :: t, m, h => by
    simp only [hexPairs] at h
    split at h
    · next a b m' ha hb hm =>
      rw [Option.some.injEq] at h
      subst h
      have hx := (hexVal_some_iff _ _).mp ha
      have hy := (hexVal_some_iff _ _).mp hb
      have hxa := digitOf_lt hx
      have hyb := digitOf_lt hy
      have hv : (BitVec.ofNat 8 (16 * a + b)).toNat = 16 * a + b := by rw [BitVec.toNat_ofNat]; omega
      refine (spells_cons_iff x y t _ m').mpr ⟨?_, ?_, spells_of_hexPairs hm⟩
      · rw [hv, show (16 * a + b) / 16 = a by omega]; exact hx
      · rw [hv, show (16 * a + b) % 16 = b by omega]; exact hy
    · simp at h

/-- Text of even length without a byte it spells has a character that is no digit. -/
theorem hexPairs_none : ∀ {t : List Byte}, t.length % 2 = 0 → (hexPairs t = none ↔ ∃ c ∈ t, NoDigit c)
  | [], _ => by simp [hexPairs]
  | [_], h => by simp at h
  | x :: y :: t, h => by
    have ih := hexPairs_none (t := t) (by simp only [List.length_cons] at h; omega)
    simp only [hexPairs]
    split
    · next a b m ha hb hm =>
      rw [hm] at ih
      simp only [reduceCtorEq, false_iff] at ih ⊢
      rintro ⟨c, hc, hn⟩
      rw [← hexVal_none_iff] at hn
      rcases List.mem_cons.mp hc with rfl | hc
      · rw [hn] at ha; cases ha
      · rcases List.mem_cons.mp hc with rfl | hc
        · rw [hn] at hb; cases hb
        · exact ih ⟨c, hc, (hexVal_none_iff c).mp hn⟩
    · next hno =>
      simp only [true_iff]
      cases hx : hexVal x with
      | none => exact ⟨x, by simp, (hexVal_none_iff x).mp hx⟩
      | some a =>
        cases hy : hexVal y with
        | none => exact ⟨y, by simp, (hexVal_none_iff y).mp hy⟩
        | some b =>
          cases hm : hexPairs t with
          | some m => exact absurd hm (hno a b m hx hy)
          | none =>
            obtain ⟨c, hc, hn⟩ := ih.mp hm
            exact ⟨c, by simp [hc], hn⟩

theorem upperHexOf_hexEnc (m : List Byte) : UpperHexOf (hexEnc m) m := by
  induction m with
  | nil => exact ⟨rfl, by simp⟩
  | cons b m ih =>
    have he : hexEnc (b :: m) = hexDigit (b.toNat / 16) :: hexDigit (b.toNat % 16) :: hexEnc m := rfl
    rw [he]
    have hb := b.isLt
    refine ⟨by have := ih.1; simp; omega, fun k hk => ?_⟩
    cases k with
    | zero =>
      exact ⟨hexDigit_eq _ (by omega), hexDigit_eq _ (by omega)⟩
    | succ k =>
      have := ih.2 k (by simpa using hk)
      simpa [byteOf, Nat.mul_add] using this

theorem spells_of_upperHexOf {t m : List Byte} (h : UpperHexOf t m) : Spells t m :=
  ⟨h.1, fun k hk => ⟨.inl (h.2 k hk).1, .inl (h.2 k hk).2⟩⟩

theorem spells_hexEnc (m : List Byte) : Spells (hexEnc m) m := spells_of_upperHexOf (upperHexOf_hexEnc m)

theorem hexEnc_length (m : List Byte) : (hexEnc m).length = 2 * m.length := (upperHexOf_hexEnc m).1

/-- Hex text holds no ':', CR or LF. -/
theorem not_mem_of_spells : ∀ {t m : List Byte}, Spells t m → ∀ c ∈ t, c ≠ 0x3A ∧ c ≠ 0x0D ∧ c ≠ 0x0A
  | [], _, _, c, hc => by simp at hc
  | [_], m, h, _, _ => by have := h.1; simp at this; omega
  | x :: y :: t, [], h, _, _ => by have := h.1; simp at this
  | x :: y :: t, b :: m, h, c, hc => by
    obtain ⟨hx, hy, ht⟩ := (spells_cons_iff x y t b m).mp h
    rcases List.mem_cons.mp hc with rfl | hc
    · exact digitOf_ne hx
    · rcases List.mem_cons.mp hc with rfl | hc
      · exact digitOf_ne hy
      · exact not_mem_of_spells ht c hc

/-- A text spells one message. -/
theorem spells_unique {t m m' : List Byte} (h : Spells t m) (h' : Spells t m') : m = m' := by
  have := hexPairs_of_spells h
  rw [hexPairs_of_spells h', Option.some.injEq] at this
  exact this.symm

/-- One changed digit changes one byte of the message. -/
theorem spells_set {t m : List Byte} (h : Spells t m) {k : Nat} (hk : k < t.length) {c : Byte} {d d' : Nat}
    (hd : DigitOf (byteOf t k) d) (hd' : DigitOf c d') (hne : d ≠ d') :
    ∃ i x, i < m.length ∧ x ≠ byteOf m i ∧ Spells (t.set k c) (m.set i x) := by
  induction m generalizing t k with
  | nil => have := h.1; simp at this; simp [this] at hk
  | cons b m ih =>
    match t, h with
    | [], h => simp at hk
    | [_], h => have := h.1; simp at this; omega
    | x :: y :: t, h =>
      obtain ⟨hx, hy, ht⟩ := (spells_cons_iff x y t b m).mp h
      have hb := b.isLt
      match k with
      | 0 =>
        have e := digitOf_unique hd hx
        have hl := digitOf_lt hd'
        have hv : (BitVec.ofNat 8 (16 * d' + b.toNat % 16)).toNat = 16 * d' + b.toNat % 16 := by rw [BitVec.toNat_ofNat]; omega
        refine ⟨0, BitVec.ofNat 8 (16 * d' + b.toNat % 16), by simp, ?_, ?_⟩
        · intro hh
          have := congrArg BitVec.toNat hh
          rw [hv] at this
          simp only [byteOf, List.getD_cons_zero] at this
          omega
        · refine (spells_cons_iff _ _ _ _ _).mpr ⟨?_, ?_, ht⟩
          · rw [hv, show (16 * d' + b.toNat % 16) / 16 = d' by omega]; exact hd'
          · rw [hv, show (16 * d' + b.toNat % 16) % 16 = b.toNat % 16 by omega]; exact hy
      | 1 =>
        have e := digitOf_unique hd hy
        have hl := digitOf_lt hd'
        have hv : (BitVec.ofNat 8 (16 * (b.toNat / 16) + d')).toNat = 16 * (b.toNat / 16) + d' := by rw [BitVec.toNat_ofNat]; omega
        refine ⟨0, BitVec.ofNat 8 (16 * (b.toNat / 16) + d'), by simp, ?_, ?_⟩
        · intro hh
          have := congrArg BitVec.toNat hh
          rw [hv] at this
          simp only [byteOf, List.getD_cons_zero] at this
          omega
        · refine (spells_cons_iff _ _ _ _ _).mpr ⟨?_, ?_, ht⟩
          · rw [hv, show (16 * (b.toNat / 16) + d') / 16 = b.toNat / 16 by omega]; exact hx
          · rw [hv, show (16 * (b.toNat / 16) + d') % 16 = d' by omega]; exact hd'
      | k + 2 =>
        obtain ⟨i, x', hi, hn, hs⟩ := ih ht (k := k) (by simpa using hk) (by simpa [byteOf] using hd)
        refine ⟨i + 1, x', by simpa using hi, by simpa [byteOf] using hn, ?_⟩
        exact (spells_cons_iff _ _ _ _ _).mpr ⟨hx, hy, hs⟩

theorem spells_append {t u m n : List Byte} (h : Spells t m) (h' : Spells u n) : Spells (t ++ u) (m ++ n) := by
  induction m generalizing t with
  | nil =>
    have : t = [] := List.eq_nil_of_length_eq_zero (by have := h.1; simp at this; simp [this])
    subst this; exact h'
  | cons b m ih =>
    match t, h with
    | [], h => have := h.1; simp at this
    | [_], h => have := h.1; simp at this; omega
    | x :: y :: t, h =>
      obtain ⟨hx, hy, ht⟩ := (spells_cons_iff x y t b m).mp h
      exact (spells_cons_iff _ _ _ _ _).mpr ⟨hx, hy, ih ht⟩

theorem hexEnc_append (l m : List Byte) : hexEnc (l ++ m) = hexEnc l ++ hexEnc m := by simp [hexEnc]

/-! ### ASCII scanning -/

theorem firstIndex_none {p : Byte → Bool} {l : List Byte} : firstIndex p l = none ↔ ∀ b ∈ l, p b = false := by
  induction l with
  | nil => simp [firstIndex]
  | cons b l ih =>
    simp only [firstIndex]
    cases hb : p b with
    | true => simp [hb]
    | false =>
      simp only [List.mem_cons, forall_eq_or_imp, hb, true_and]
      cases hl : firstIndex p l with
      | none => simpa [hl] using ih
      | some k => simpa [hl] using ih

theorem firstIndex_append {p : Byte → Bool} {l : List Byte} (hl : ∀ b ∈ l, p b = false) {c : Byte} (hc : p c = true)
    (r : List Byte) : firstIndex p (l ++ c :: r) = some l.length := by
  induction l with
  | nil => simp [firstIndex, hc]
  | cons b l ih =>
    have := ih fun x hx => hl x (by simp [hx])
    simp [firstIndex, hl b (by simp), this]

theorem asciiText_no_colon {l : List Byte} (h : l.head? ≠ some 0x3A) : asciiText l = .error .start := by
  cases l with
  | nil => rfl
  | cons c r =>
    rw [asciiText, if_pos]
    intro hc
    exact h (by rw [hc]; rfl)

theorem asciiText_no_cr {text : List Byte} (h : 0x0D ∉ text) : asciiText (0x3A :: text) = .error .delim := by
  have : firstIndex (fun b => b == cr) text = none :=
    firstIndex_none.mpr fun b hb => by
      simp only [beq_eq_false_iff_ne]
      rintro rfl
      exact h hb
  simp [asciiText, colon, this]

theorem asciiText_cr {text tail : List Byte} (h : 0x0D ∉ text) :
    asciiText (0x3A :: text ++ 0x0D :: tail) = if tail.head? = some 0x0A then .ok text else .error .delim := by
  have hf : firstIndex (fun b => b == cr) (text ++ 0x0D :: tail) = some text.length :=
    firstIndex_append (fun b hb => by
      simp only [beq_eq_false_iff_ne]
      rintro rfl
      exact h hb) (by rfl) _
  have hb : byteOf (text ++ 0x0D :: tail) (text.length + 1) = byteOf tail 0 := by
    rw [byteOf_append_right]; rfl
  simp only [List.cons_append, asciiText, colon, hf, hb, lf]
  cases tail with
  | nil => simp
  | cons c r =>
    by_cases hc : c = 0x0A
    · simp [hc, byteOf]
    · simp only [byteOf, List.getD_cons_zero, List.head?_cons, Option.some.injEq, hc, if_false]
      simp
      exact hc

theorem textMessage_odd {t : List Byte} (h : t.length % 2 = 1) : textMessage t = .error .hexOdd := by
  simp [textMessage, hexDec, h]

theorem textMessage_noDigit {t : List Byte} (h : t.length % 2 = 0) (hc : ∃ c ∈ t, NoDigit c) :
    textMessage t = .error .hexChar := by
  simp [textMessage, hexDec, h, (hexPairs_none h).mpr hc]

theorem textMessage_spells {t m : List Byte} (h : Spells t m) :
    textMessage t = if m = [] ∨ byteSum m % 256 ≠ 0 then .error .lrc
      else if m.length < 3 then .error .length else .ok m.dropLast := by
  have hl : t.length % 2 = 0 := by have := h.1; omega
  simp only [textMessage, hexDec, hl, hexPairs_of_spells h, ne_eq, List.length_eq_zero_iff, sum8_eq_zero_iff]
  simp

/-- A frame whose text spells a message and its LRC (45_ascii.md R146). -/
theorem asciiMessage_good {s : State} (h : s.inLen.toNat ≤ s.cfg.bufBytes) {d text junk : List Byte}
    (hs : Spells text (d ++ [lrcRef d])) (hi : s.input = 0x3A :: text ++ 0x0D :: 0x0A :: junk) (h2 : 2 ≤ d.length) :
    asciiMessage s = .ok d := by
  have hcr : 0x0D ∉ text := fun hm => (not_mem_of_spells hs _ hm).2.1 rfl
  have hsum : byteSum (d ++ [lrcRef d]) % 256 = 0 := by
    rw [← sum8_eq_zero_iff, ← lrc8_eq]; exact sum8_lrc d
  rw [asciiMessage, inputTooLong_eq_false h, if_neg (by simp), hi, asciiText_cr hcr, List.head?_cons, if_pos rfl]
  simp only
  rw [textMessage_spells hs, if_neg (by simp [hsum]), if_neg (by simp; omega)]
  simp

theorem asciiFrame_eq (m : List Byte) : asciiFrame m = 0x3A :: hexEnc (m ++ [lrcRef m]) ++ [0x0D, 0x0A] := by
  rw [asciiFrame, lrc8_eq]; rfl

theorem asciiFrame_length (m : List Byte) : (asciiFrame m).length = 2 * m.length + 5 := by
  simp [asciiFrame, hexEnc_length]; omega

theorem firstCrLf_none {l : List Byte} (h : ¬ [0x0D, 0x0A] <:+: l) : firstCrLf l = none := by
  induction l with
  | nil => rfl
  | cons b l ih =>
    rw [firstCrLf, if_neg, ih fun hl => h (hl.trans (List.infix_cons (List.infix_refl l)))]
    rintro ⟨hb, hl⟩
    cases l with
    | nil => simp at hl
    | cons c l =>
      simp only [List.head?_cons, Option.some.injEq] at hl
      subst hb hl
      exact h ⟨[], l, rfl⟩

theorem firstCrLf_append {l : List Byte} (h : ¬ [0x0D, 0x0A] <:+: l) (r : List Byte) :
    firstCrLf (l ++ 0x0D :: 0x0A :: r) = some l.length := by
  induction l with
  | nil => rfl
  | cons b l ih =>
    have ih := ih fun hl => h (hl.trans (List.infix_cons (List.infix_refl l)))
    rw [List.cons_append, firstCrLf, if_neg, ih]
    · rfl
    · rintro ⟨hb, hl⟩
      cases l with
      | nil => simp [lf] at hl
      | cons c l =>
        simp only [List.cons_append, List.head?_cons, Option.some.injEq] at hl
        subst hb hl
        exact h ⟨[], l, rfl⟩

end Sys2Proof.Machine
end

