-- ==== Sys2Proof/Laws/Agree.lean ====
section
/-! SUPPORT. Each shared operation on two states that agree inside the lengths (10_state.md R41): it ends in two states
that agree, and an encoder that succeeds in the same OUT. -/

namespace Sys2Proof.Machine

/-- Two answers are next states that agree inside the lengths. -/
def AnswersAgree (a a' : Answer) : Prop := ∃ t t', a = .next t ∧ a' = .next t' ∧ AgreeWithinLengths t t'

theorem agree_fields {s s' : State} (h : AgreeWithinLengths s s') :
    s'.cfg = s.cfg ∧ s'.bo = s.bo ∧ s'.wo = s.wo ∧ s'.slave = s.slave ∧ s'.fc = s.fc ∧ s'.exc = s.exc
      ∧ s'.arg0 = s.arg0 ∧ s'.arg1 = s.arg1 ∧ s'.arg2 = s.arg2 ∧ s'.arg3 = s.arg3 ∧ s'.inLen = s.inLen
      ∧ s'.pduLen = s.pduLen := by
  have := h.2.2
  simp only [State.mk.injEq] at this
  simp_all

theorem input_congr {s t : State} (hd : t.draws = s.draws) (h1 : t.inLen = s.inLen) (h2 : t.inBuf = s.inBuf) :
    t.input = s.input := by
  rw [State.input, State.input, h1]
  exact bytes_congr fun i _ => by simp only [State.byteAt, State.buffer, h2, hd]

theorem output_congr {s t : State} (hd : t.draws = s.draws) (h1 : t.outLen = s.outLen) (h2 : t.outBuf = s.outBuf) :
    t.output = s.output := by
  rw [State.output, State.output, h1]
  exact bytes_congr fun i _ => by simp only [State.byteAt, State.buffer, h2, hd]

theorem payload_congr {s t : State} (hd : t.draws = s.draws) (h1 : t.pduLen = s.pduLen) (h2 : t.pduBuf = s.pduBuf) :
    t.payload = s.payload := by
  rw [State.payload, State.payload, h1]
  exact bytes_congr fun i _ => by simp only [State.byteAt, State.buffer, h2, hd]

/-- A register write that touches no buffer, no length and no draw count. -/
theorem agree_of {f : State → State} {s s' : State} (h : AgreeWithinLengths s s')
    (hi : ∀ s, (f s).input = s.input) (hp : ∀ s, (f s).payload = s.payload)
    (hf : ∀ s : State, { f s with inBuf := [], outBuf := [], pduBuf := [], outLen := 0, draws := 0 }
      = { f { s with inBuf := [], outBuf := [], pduBuf := [], outLen := 0, draws := 0 } with
          inBuf := [], outBuf := [], pduBuf := [], outLen := 0, draws := 0 }) :
    AgreeWithinLengths (f s) (f s') := by
  refine ⟨by rw [hi, hi, h.1], by rw [hp, hp, h.2.1], ?_⟩
  rw [hf s, hf s', h.2.2]

section
variable {s s' : State} (h : AgreeWithinLengths s s')
include h

theorem inputTooLong_agree : s'.inputTooLong = s.inputTooLong := by
  obtain ⟨hcfg, -, -, -, -, -, -, -, -, -, hin, -⟩ := agree_fields h
  simp only [State.inputTooLong, hcfg, hin]

theorem raiseError_agree (e : Err) : AnswersAgree (.next (raiseError e s)) (.next (raiseError e s')) :=
  ⟨_, _, rfl, rfl, agree_of (f := raiseError e) h (fun _ => input_congr rfl rfl rfl)
    (fun _ => payload_congr rfl rfl rfl) (fun _ => rfl)⟩

theorem raiseFault_agree (c : FaultCause) : AnswersAgree (.next (raiseFault c s)) (.next (raiseFault c s')) :=
  ⟨_, _, rfl, rfl, agree_of (f := raiseFault c) h (fun _ => input_congr rfl rfl rfl)
    (fun _ => payload_congr rfl rfl rfl) (fun _ => rfl)⟩

theorem finishOk_agree (b : Bool) : AnswersAgree (.next (finishOk b s)) (.next (finishOk b s')) :=
  ⟨_, _, rfl, rfl, agree_of (f := finishOk b) h (fun _ => input_congr rfl rfl rfl)
    (fun _ => payload_congr rfl rfl rfl) (fun _ => rfl)⟩

theorem putResult_agree (b : Bool) (v : Word) :
    AnswersAgree (.next (finishOk b (putResult v s))) (.next (finishOk b (putResult v s'))) :=
  ⟨_, _, rfl, rfl, agree_of (f := fun s => finishOk b (putResult v s)) h (fun _ => input_congr rfl rfl rfl)
    (fun _ => payload_congr rfl rfl rfl) (fun _ => rfl)⟩

theorem putOut_agree (p : List Byte) :
    AnswersAgree (.next (finishOk true (putOut p s))) (.next (finishOk true (putOut p s'))) := by
  refine ⟨_, _, rfl, rfl, (input_congr rfl rfl rfl).trans (h.1.trans (input_congr rfl rfl rfl).symm),
    (payload_congr rfl rfl rfl).trans (h.2.1.trans (payload_congr rfl rfl rfl).symm), ?_⟩
  have := h.2.2
  simp only [State.mk.injEq] at this
  simp only [finishOk, putOut, State.mk.injEq, true_and]
  simp_all

theorem putPayload_agree {p : List Byte} (hp : p.length < 65536) (k : FieldKind) (a b : Half) :
    AnswersAgree (.next (finishOk true (putView k a b (putPayload p s))))
      (.next (finishOk true (putView k a b (putPayload p s')))) := by
  have ho : ∀ s, (finishOk true (putView k a b (putPayload p s))).payload = p :=
    fun s => (payload_congr rfl rfl rfl).trans (payload_putPayload hp s)
  refine ⟨_, _, rfl, rfl, (input_congr rfl rfl rfl).trans (h.1.trans (input_congr rfl rfl rfl).symm),
    by rw [ho, ho], ?_⟩
  have := h.2.2
  simp only [State.mk.injEq] at this
  simp only [finishOk, putPayload, putView, State.mk.injEq, true_and]
  simp_all

theorem putMessage_agree {p : List Byte} (hp : p.length < 65536) (k : FieldKind) (a b : Half) (sl fc : Byte)
    (exb fck : Bool) (e : Exc) :
    AnswersAgree (.next (finishOk true (putView k a b (putPayload p (putHeader sl fc exb fck e s)))))
      (.next (finishOk true (putView k a b (putPayload p (putHeader sl fc exb fck e s'))))) := by
  have ho : ∀ s, (finishOk true (putView k a b (putPayload p (putHeader sl fc exb fck e s)))).payload = p :=
    fun s => (payload_congr rfl rfl rfl).trans (payload_putPayload hp _)
  refine ⟨_, _, rfl, rfl, (input_congr rfl rfl rfl).trans (h.1.trans (input_congr rfl rfl rfl).symm),
    by rw [ho, ho], ?_⟩
  have := h.2.2
  simp only [State.mk.injEq] at this
  simp only [finishOk, putPayload, putView, putHeader, State.mk.injEq, true_and]
  simp_all

theorem dropPayload_agree (sl fc : Byte) (exb fck : Bool) (e : Exc) :
    AnswersAgree (.next (finishOk true (putView .none 0 0 (dropPayload (putHeader sl fc exb fck e s)))))
      (.next (finishOk true (putView .none 0 0 (dropPayload (putHeader sl fc exb fck e s'))))) := by
  refine ⟨_, _, rfl, rfl, (input_congr rfl rfl rfl).trans (h.1.trans (input_congr rfl rfl rfl).symm),
    rfl, ?_⟩
  have := h.2.2
  simp only [State.mk.injEq] at this
  simp only [finishOk, dropPayload, putView, putHeader, State.mk.injEq, true_and]
  simp_all

theorem structuredSetter_agree (hw : s.cfg.wf = true) (c : Bool) (k : FieldKind) (a b : Half) {p p' : Payload}
    (hp : p' = p) : AnswersAgree (structuredSetter c k a b p s) (structuredSetter c k a b p' s') := by
  obtain ⟨hcfg, -⟩ := agree_fields h
  subst hp
  have := (params_bufBytes hw).2
  unfold structuredSetter commitPayload
  rw [hcfg]
  split
  · split
    · exact raiseError_agree h _
    · split
      · exact raiseError_agree h _
      · exact putPayload_agree h (by omega) _ _ _
  · exact raiseFault_agree h _

theorem emitFrame_agree {p p' : List Byte} (hp : p' = p) :
    AnswersAgree (emitFrame p s) (emitFrame p' s') := by
  obtain ⟨hcfg, -, -, -, hfc, -⟩ := agree_fields h
  subst hp
  unfold emitFrame
  rw [hcfg, hfc]
  split
  · exact raiseError_agree h _
  · split
    · exact raiseError_agree h _
    · exact putOut_agree h _

theorem decodeValue_agree (n : Nat) {v v' : List Byte → Word} (hv : v' = v) :
    AnswersAgree (decodeValue n v s) (decodeValue n v' s') := by
  obtain ⟨-, -, -, -, -, -, -, -, -, -, hin, -⟩ := agree_fields h
  subst hv
  unfold decodeValue
  rw [inputTooLong_agree h, hin, ← h.1]
  split
  · exact raiseError_agree h _
  · split
    · exact raiseError_agree h _
    · exact putResult_agree h _ _

theorem calcResult_agree (v : List Byte → Word) : AnswersAgree (calcResult v s) (calcResult v s') := by
  unfold calcResult
  rw [inputTooLong_agree h, ← h.1]
  split
  · exact raiseError_agree h _
  · exact putResult_agree h _ _

theorem verdict_agree (v : List Byte → Bool) : AnswersAgree (verdict v s) (verdict v s') := by
  unfold verdict
  rw [inputTooLong_agree h, ← h.1]
  split
  · exact raiseError_agree h _
  · exact finishOk_agree h _

theorem checkComplete_agree {n n' : Option Nat} (hn : n' = n) :
    AnswersAgree (checkComplete n s) (checkComplete n' s') := by
  obtain ⟨-, -, -, -, -, -, -, -, -, -, hin, -⟩ := agree_fields h
  subst hn
  unfold checkComplete
  rw [inputTooLong_agree h, hin]
  split
  · exact raiseError_agree h _
  · split <;> exact putResult_agree h _ _

theorem decodeFrame_agree {m m' : Except Err (List Byte)} (hm : m' = m) {c : List Byte → State → Answer}
    (hc : ∀ d, m = .ok d → AnswersAgree (c d s) (c d s')) :
    AnswersAgree (decodeFrame m c s) (decodeFrame m' c s') := by
  subst hm
  unfold decodeFrame
  split
  · exact raiseError_agree h _
  · exact hc _ rfl

theorem decodeRequest_agree {d : List Byte} (hd : d.length < 65536) :
    AnswersAgree (decodeRequest d s) (decodeRequest d s') := by
  obtain ⟨hcfg, hbo, -⟩ := agree_fields h
  unfold decodeRequest putMessageHeader
  rw [hcfg, hbo]
  exact putMessage_agree h (by simp; omega) _ _ _ _ _ _ _ _

theorem decodeResponse_agree {d : List Byte} (hd : d.length < 65536) :
    AnswersAgree (decodeResponse d s) (decodeResponse d s') := by
  obtain ⟨hcfg, -⟩ := agree_fields h
  unfold decodeResponse putMessageHeader
  rw [hcfg]
  split
  · split
    · exact raiseError_agree h _
    · exact dropPayload_agree h _ _ _ _ _
  · exact putMessage_agree h (by simp; omega) _ _ _ _ _ _ _ _

/-- Agreeing states have succeeded together. -/
theorem succeeded_agree {b : Bool} (ht : Succeeded b s) : Succeeded b s' := by
  have := h.2.2
  simp only [State.mk.injEq] at this
  simp_all [Succeeded]

end

/-- A frame encoder that succeeds leaves exactly its frame in OUT. -/
theorem emitFrame_output {p : List Byte} {s t : State} (hw : s.cfg.wf = true) (h : emitFrame p s = .next t)
    (ht : Succeeded true t) : t.outLen = BitVec.ofNat 16 p.length ∧ t.output = p := by
  have := (params_bufBytes hw).2
  unfold emitFrame at h
  split at h
  · simp only [Host.Outcome.next.injEq] at h
    subst h
    exact absurd ht.2.2.1 Bool.false_ne_true
  · split at h
    · simp only [Host.Outcome.next.injEq] at h
      subst h
      exact absurd ht.2.2.1 Bool.false_ne_true
    · simp only [Host.Outcome.next.injEq] at h
      subst h
      exact ⟨rfl, (output_congr rfl rfl rfl).trans (output_putOut (by omega) s)⟩

/-- A codec encode leaves exactly its bytes in OUT. -/
theorem encodeValue_output {p : List Byte} {s t : State} (hp : p.length < 65536) (h : encodeValue p s = .next t) :
    t.outLen = BitVec.ofNat 16 p.length ∧ t.output = p := by
  simp only [encodeValue, Host.Outcome.next.injEq] at h
  subst h
  exact ⟨rfl, (output_congr rfl rfl rfl).trans (output_putOut hp s)⟩

end Sys2Proof.Machine
end

