-- ==== Sys2Proof/Laws/Crc.lean ====
section
/-! SUPPORT. The CRC of 42_checksum.md R95 as a linear map: it loses nothing, its residue is 0 (R104), and a change of
one byte changes it (R103). -/

namespace Sys2Proof.Machine

theorem crcBit_xor (a b : Half) : crcBit (a ^^^ b) = crcBit a ^^^ crcBit b := by
  have h : (a ^^^ b).getLsbD 0 = (a.getLsbD 0 ^^ b.getLsbD 0) := BitVec.getLsbD_xor
  simp only [crcBit, h]
  cases a.getLsbD 0 <;> cases b.getLsbD 0 <;> simp only [Bool.xor_false, Bool.xor_true, Bool.not_true, Bool.not_false,
    Bool.false_eq_true, if_true, if_false, BitVec.ushiftRight_xor_distrib]
  · rw [BitVec.xor_assoc]
  · rw [BitVec.xor_assoc, BitVec.xor_assoc, BitVec.xor_comm (b >>> 1)]
  · rw [BitVec.xor_assoc, ← BitVec.xor_assoc 0xA001, BitVec.xor_comm 0xA001, BitVec.xor_assoc, BitVec.xor_self,
      BitVec.xor_zero]

theorem crcBits_xor (n : Nat) (a b : Half) : crcBits n (a ^^^ b) = crcBits n a ^^^ crcBits n b := by
  induction n generalizing a b with
  | zero => rfl
  | succ n ih => simp only [crcBits, crcBit_xor, ih]

theorem crcBits_zero (n : Nat) : crcBits n 0 = 0 := by
  have := crcBits_xor n 0 0
  simpa using this

/-- A bit step that shifts out a 0. -/
theorem crcBit_even {c : Half} (h : c.toNat % 2 = 0) : crcBit c = c >>> 1 := by
  rw [crcBit_eq, if_neg (by omega)]

/-- Bit steps that shift out only 0s. -/
theorem crcBits_shift (n : Nat) {c : Half} (h : c.toNat % 2 ^ n = 0) : crcBits n c = c >>> n := by
  induction n generalizing c with
  | zero => simp [crcBits]
  | succ n ih =>
    have h2 : c.toNat % 2 = 0 := by
      have : 2 ∣ 2 ^ (n + 1) := Dvd.intro_left (2 ^ n) rfl
      have := Nat.mod_mod_of_dvd c.toNat this
      omega
    rw [crcBits, crcBit_even h2, ih]
    · rw [Nat.add_comm n 1, BitVec.shiftRight_add]
    · rw [BitVec.toNat_ushiftRight, Nat.shiftRight_eq_div_pow, pow_one]
      obtain ⟨k, hk⟩ := Nat.dvd_of_mod_eq_zero h
      rw [hk, pow_succ, Nat.mul_assoc, Nat.mul_comm 2 k, ← Nat.mul_assoc, Nat.mul_div_cancel _ (by omega)]
      exact Nat.mul_mod_right _ _

/-- The bytes a CRC register is made of. -/
theorem half_split (c : Half) : c = ((highByte c).setWidth 16 <<< 8) ^^^ (lowByte c).setWidth 16 := by
  apply BitVec.eq_of_getLsbD_eq
  intro i hi
  simp only [highByte, lowByte, BitVec.getLsbD_xor, BitVec.getLsbD_shiftLeft, BitVec.getLsbD_setWidth,
    BitVec.getLsbD_extractLsb']
  rcases Nat.lt_or_ge i 8 with h | h
  · simp [h, hi]
  · obtain ⟨k, rfl⟩ := Nat.exists_eq_add_of_le h
    simp [hi, show k < 8 by omega, show k < 16 by omega]

theorem shift_high (h : Byte) : (h.setWidth 16 <<< 8) >>> 8 = h.setWidth 16 := by
  apply BitVec.eq_of_toNat_eq
  have := h.isLt
  simp [Nat.shiftRight_eq_div_pow, Nat.shiftLeft_eq]
  omega

/-- Eight bit steps: the high byte moves down, the low byte is replaced by its table value. -/
theorem crcBits_eight (c : Half) : crcBits 8 c = (highByte c).setWidth 16 ^^^ crcBits 8 ((lowByte c).setWidth 16) := by
  conv => lhs; rw [half_split c]
  rw [crcBits_xor, crcBits_shift 8, shift_high]
  rw [BitVec.toNat_shiftLeft, Nat.shiftLeft_eq]
  have := (highByte c).isLt
  simp

/-- The table value of a byte has high byte 0 only for the byte 0. -/
theorem crcTable_high : ∀ b : Byte, highByte (crcBits 8 (b.setWidth 16)) = 0 → b = 0 := by decide

theorem highByte_xor (a b : Half) : highByte (a ^^^ b) = highByte a ^^^ highByte b := by
  simp only [highByte]
  apply BitVec.eq_of_getLsbD_eq
  intro i hi
  simp [hi]

theorem lowByte_xor (a b : Half) : lowByte (a ^^^ b) = lowByte a ^^^ lowByte b := by
  simp only [lowByte]
  apply BitVec.eq_of_getLsbD_eq
  intro i hi
  simp [hi]

@[simp] theorem highByte_setWidth (b : Byte) : highByte (b.setWidth 16) = 0 := by
  apply BitVec.eq_of_toNat_eq
  have := b.isLt
  rw [highByte_toNat]
  simp
  omega

@[simp] theorem lowByte_setWidth (b : Byte) : lowByte (b.setWidth 16) = b := by
  apply BitVec.eq_of_toNat_eq
  have := b.isLt
  rw [lowByte_toNat]
  simp
  omega

/-- A result with high byte 0 came from a register with low byte 0. -/
theorem crcBits_eight_high {c : Half} (h : highByte (crcBits 8 c) = 0) : lowByte c = 0 := by
  rw [crcBits_eight, highByte_xor, highByte_setWidth] at h
  exact crcTable_high _ (by simpa using h)

theorem crcBits_eight_eq_zero {c : Half} (h : crcBits 8 c = 0) : c = 0 := by
  have hl : lowByte c = 0 := crcBits_eight_high (by rw [h]; rfl)
  rw [crcBits_eight, hl] at h
  have hh : (highByte c).setWidth 16 = 0 := by
    have e : crcBits 8 ((0 : Byte).setWidth 16) = 0 := crcBits_zero 8
    rw [e] at h
    simpa using h
  rw [half_split c, hl, hh]
  rfl

theorem crcBits_eight_injective {a b : Half} (h : crcBits 8 a = crcBits 8 b) : a = b := by
  have : crcBits 8 (a ^^^ b) = 0 := by rw [crcBits_xor, h, BitVec.xor_self]; rfl
  exact BitVec.xor_eq_zero_iff.mp (crcBits_eight_eq_zero this)

theorem crcByte_injective_left {c d : Half} {b : Byte} (h : crcByte c b = crcByte d b) : c = d := by
  have := crcBits_eight_injective h
  have := congrArg (· ^^^ b.setWidth 16) this
  simpa [BitVec.xor_assoc] using this

theorem crcByte_injective_right {c : Half} {a b : Byte} (h : crcByte c a = crcByte c b) : a = b := by
  have h1 := crcBits_eight_injective h
  have h2 := congrArg lowByte h1
  simp only [lowByte_xor, lowByte_setWidth] at h2
  have := congrArg (lowByte c ^^^ ·) h2
  simpa [← BitVec.xor_assoc] using this

theorem crcFrom_injective {c d : Half} {l : List Byte} (h : crcFrom c l = crcFrom d l) : c = d := by
  induction l generalizing c d with
  | nil => exact h
  | cons b l ih => exact crcByte_injective_left (ih h)

/-- 42_checksum.md R103 for the register: one changed byte changes the CRC. -/
theorem crcFrom_set_ne (c : Half) {l : List Byte} {k : Nat} (hk : k < l.length) {x : Byte} (hx : x ≠ byteOf l k) :
    crcFrom c (l.set k x) ≠ crcFrom c l := by
  induction l generalizing c k with
  | nil => simp at hk
  | cons b l ih =>
    cases k with
    | zero =>
      intro h
      simp only [List.set_cons_zero, crcFrom] at h
      exact hx (crcByte_injective_right (crcFrom_injective h))
    | succ k => exact ih _ (by simpa using hk) (by simpa [byteOf] using hx)

theorem crcByte_lowByte (c : Half) : crcByte c (lowByte c) = (highByte c).setWidth 16 := by
  have h : c ^^^ (lowByte c).setWidth 16 = (highByte c).setWidth 16 <<< 8 := by
    conv => lhs; lhs; rw [half_split c]
    rw [BitVec.xor_assoc, BitVec.xor_self, BitVec.xor_zero]
  rw [crcByte, h, crcBits_shift 8, shift_high]
  rw [BitVec.toNat_shiftLeft, Nat.shiftLeft_eq]
  have := (highByte c).isLt
  simp

/-- 42_checksum.md R104: the residue of a CRC over itself. -/
theorem crcFrom_wire (c : Half) : crcFrom c (crcWire c) = 0 := by
  simp only [crcWire, crcFrom, crcByte_lowByte]
  rw [crcByte, BitVec.xor_self]
  exact crcBits_zero 8

theorem crcFrom_two_eq_zero {c : Half} {x y : Byte} (h : crcFrom c [x, y] = 0) : [x, y] = crcWire c := by
  simp only [crcFrom] at h
  have h1 : crcByte c x = y.setWidth 16 := by
    have := crcBits_eight_eq_zero (c := crcByte c x ^^^ y.setWidth 16) h
    exact BitVec.xor_eq_zero_iff.mp this
  have h2 : lowByte (c ^^^ x.setWidth 16) = 0 := crcBits_eight_high (by rw [← crcByte, h1, highByte_setWidth])
  rw [lowByte_xor, lowByte_setWidth] at h2
  have hx : x = lowByte c := (BitVec.xor_eq_zero_iff.mp h2).symm
  subst hx
  rw [crcByte_lowByte] at h1
  have hy := congrArg lowByte h1
  simp only [lowByte_setWidth] at hy
  rw [crcWire, hy]

end Sys2Proof.Machine
end

