-- ==== Sys2Proof/Laws/Pdu.lean ====
section
/-! SUPPORT. The lists the setters read from IN (43_pdu.md R112, R113, R118, R119), against the lists the
host staged. -/

namespace Sys2Proof.Machine

/-! ### Value lists, coils and sub-requests -/

/-- The value list of a setter, on the list the host staged (43_pdu.md R112, R116). -/
theorem valueList_ok {s : State} {ws : List Half} {n : Half} (h : s.inLen.toNat ≤ s.cfg.bufBytes)
    (hi : s.input = hostList ws) :
    (ws.length ≠ n.toNat → valueList s n = .error .mismatch)
      ∧ (ws.length = n.toNat → 127 < ws.length → valueList s n = .error .limit)
      ∧ (ws.length = n.toNat → ws.length ≤ 127 →
        valueList s n = .ok (BitVec.ofNat 8 (2 * ws.length) :: wireList s.bo ws)) := by
  have hl : s.inLen.toNat = 2 * ws.length := by rw [← input_length, hi, hostList_length]
  have hd : s.inLen.toNat / 2 = ws.length := by omega
  unfold valueList
  rw [inputTooLong_eq_false h, hd]
  refine ⟨fun h1 => ?_, fun h1 h2 => ?_, fun h1 h2 => ?_⟩
  · rw [if_neg (by simp), if_neg (by omega), if_pos h1]
  · rw [if_neg (by simp), if_neg (by omega), if_neg (by omega), if_pos (by omega)]
  · rw [if_neg (by simp), if_neg (by omega), if_neg (by omega), if_neg (by omega), hi, map_host16_hostList,
      encWords_eq, h1]

/-- Bit b of a packed coil byte (43_pdu.md R113). -/
theorem packedCoil_bit (coils : List Byte) (j b : Nat) (hb : b < 8) :
    (packedCoil coils j).getLsbD b = decide (8 * j + b < coils.length ∧ byteOf coils (8 * j + b) ≠ 0) := by
  have key : ∀ (p : Fin 8 → Bool) (b : Fin 8),
      ((List.range 8).foldl (fun acc i =>
        if h : i < 8 then (if p ⟨i, h⟩ then acc + (1#8 <<< i) else acc) else acc) 0#8).getLsbD b = p b := by
    decide +kernel
  have := key (fun i => decide (8 * j + i.val < coils.length ∧ byteOf coils (8 * j + i.val) ≠ 0)) ⟨b, hb⟩
  rw [← this]
  simp [packedCoil, show List.range 8 = [0,1,2,3,4,5,6,7] from rfl]

theorem byteOf_map_range {f : Nat → Byte} {n i : Nat} (h : i < n) : byteOf ((List.range n).map f) i = f i := by
  simp [byteOf, h]

theorem flatMap_hostList (trs : List (Half × Half × Half)) :
   trs.flatMap (fun r => hostList [r.1, r.2.1, r.2.2]) = hostList (trs.flatMap fun r => [r.1, r.2.1, r.2.2]) := by
  induction trs with
  | nil => rfl
  | cons r t ih => simp only [List.flatMap_cons, ih, hostList_append]

theorem triples_length (trs : List (Half × Half × Half)) :
    (trs.flatMap fun r => [r.1, r.2.1, r.2.2]).length = 3 * trs.length := by
  induction trs with
  | nil => rfl
  | cons r t ih => simp [ih]; omega

theorem triples_get (trs : List (Half × Half × Half)) (k : Nat) (h : k < trs.length) (i : Nat) (hi : i < 3) :
   (trs.flatMap fun r => [r.1, r.2.1, r.2.2])[3 * k + i]? = [trs[k].1, trs[k].2.1, trs[k].2.2][i]? := by
  induction trs generalizing k with
  | nil => simp at h
  | cons r t ih =>
    cases k with
    | zero =>
      simp only [List.flatMap_cons, Nat.mul_zero, Nat.zero_add, List.getElem_cons_zero]
      rw [List.getElem?_append_left (by simpa using hi)]
    | succ k =>
      have := ih k (by simpa using h)
      simp only [List.flatMap_cons, List.getElem_cons_succ]
      rw [List.getElem?_append_right (by simp; omega), ← this]
      congr 1
      simp; omega

/-! ### Write-file records -/

/-- A staged record as the meaning reads it (43_pdu.md R119). -/
def toRec (r : Half × Half × List Half) : FileRecord := ⟨r.1, r.2.1, BitVec.ofNat 16 r.2.2.length, r.2.2⟩

theorem hostRecords_cons (r : Half × Half × List Half) (rs) :
    hostRecords (r :: rs) = hostList (r.1 :: r.2.1 :: BitVec.ofNat 16 r.2.2.length :: r.2.2)
      ++ hostRecords rs := rfl

theorem fileRecords_host (recs : List (Half × Half × List Half)) (pre : List Byte) (n fuel : Nat)
    (hn : pre.length = 2 * n)
    (hf : recs.length < fuel) (hl : ∀ r ∈ recs, r.2.2.length < 65536) :
    fileRecords (pre ++ hostRecords recs) fuel pre.length = .ok (recs.map toRec) := by
  induction recs generalizing pre n fuel with
  | nil =>
    cases fuel with
    | zero => omega
    | succ f => simp [fileRecords, hostRecords]
  | cons r rs ih =>
    cases fuel with
    | zero => omega
    | succ f =>
      have hr := hl r (by simp)
      rw [hostRecords_cons]
      generalize hws : r.1 :: r.2.1 :: BitVec.ofNat 16 r.2.2.length :: r.2.2 = ws
      have hwl : ws.length = 3 + r.2.2.length := by rw [← hws]; simp; omega
      have hg : ∀ k (hk : k < ws.length), host16 (pre ++ (hostList ws ++ hostRecords rs)) (n + k) = ws[k] :=
        fun k hk => host16_hostList_append pre ws _ hk hn
      have hpos : pre.length / 2 = n := by omega
      have h2 : host16 (pre ++ (hostList ws ++ hostRecords rs)) (n + 2) = BitVec.ofNat 16 r.2.2.length := by
        rw [hg 2 (by omega)]; subst hws; rfl
      have h0 : host16 (pre ++ (hostList ws ++ hostRecords rs)) n = r.1 := by
        have := hg 0 (by omega); rw [Nat.add_zero] at this; rw [this]; subst hws; rfl
      have h1 : host16 (pre ++ (hostList ws ++ hostRecords rs)) (n + 1) = r.2.1 := by
        rw [hg 1 (by omega)]; subst hws; rfl
      have hc : (BitVec.ofNat 16 r.2.2.length).toNat = r.2.2.length := toNat_ofNat_length hr
      have hd : (List.range r.2.2.length).map
          (fun t => host16 (pre ++ (hostList ws ++ hostRecords rs)) (n + 3 + t)) = r.2.2 := by
        refine List.ext_getElem (by simp) fun i h1 h2 => ?_
        simp only [List.getElem_map, List.getElem_range]
        rw [Nat.add_assoc, hg (3 + i) (by omega)]
        subst hws
        simp [Nat.add_comm 3 i]
      have hnext := ih (pre ++ hostList ws) (n + ws.length) f (by simp; omega) (by simpa using hf)
        (fun r hr => hl r (by simp [hr]))
      have hlen : (pre ++ hostList ws).length = pre.length + 6 + 2 * r.2.2.length := by simp; omega
      rw [hlen, List.append_assoc] at hnext
      simp only [fileRecords, hpos, h2, h0, h1, hc, hd, hnext]
      have htot : (pre ++ (hostList ws ++ hostRecords rs)).length
          = pre.length + (2 * ws.length + (hostRecords rs).length) := by
        simp only [List.length_append, hostList_length]
      rw [htot, if_neg (by omega), if_neg (by omega), if_neg (by omega)]
      rfl

theorem fileRecords_ok (l : List Byte) (fuel : Nat) :
    ∀ (pos n : Nat) (recs : List FileRecord), pos = 2 * n → fileRecords l fuel pos = .ok recs →
      l.drop pos = hostRecords (recs.map fun r => (r.file, r.record, r.data)) := by
  induction fuel with
  | zero => intro pos n recs _ h; simp [fileRecords] at h
  | succ f ih =>
    intro pos n recs hn h
    simp only [fileRecords] at h
    split at h
    · next hp => simp at h; subst h; simpa [hostRecords] using hp
    · split at h
      · simp at h
      · split at h
        · simp at h
        · split at h
          · simp at h
          · next h1 h2 h3 x rs hrs =>
            simp only [Except.ok.injEq] at h
            subst h
            have hpos : pos / 2 = n := by omega
            rw [hpos] at hrs h3
            generalize hcnt : host16 l (n + 2) = cnt at hrs h3
            have hrest := ih _ (n + 3 + cnt.toNat) _ (by omega) hrs
            obtain ⟨ws, hwl, hws⟩ := exists_hostList (l := (l.drop pos).take (6 + 2 * cnt.toNat)) (n := 3 + cnt.toNat)
              (by simp; omega)
            have hsplit : l.drop pos = hostList ws ++ l.drop (pos + 6 + 2 * cnt.toNat) := by
              rw [← hws, Nat.add_assoc, ← List.drop_drop, List.take_append_drop]
            have hl : l = l.take pos ++ (hostList ws ++ l.drop (pos + 6 + 2 * cnt.toNat)) := by
              rw [← hsplit, List.take_append_drop]
            have hg : ∀ k (hk : k < ws.length), host16 l (n + k) = ws[k] := by
              intro k hk
              have := host16_hostList_append (l.take pos) ws (l.drop (pos + 6 + 2 * cnt.toNat)) hk
                (n := n) (by simp; omega)
              rwa [← hl] at this
            rw [hsplit, hrest, List.map_cons, hostRecords_cons]
            congr 2
            refine List.ext_getElem (by simp [hpos, hcnt]; omega) fun i hi1 hi2 => ?_
            rw [← hg i hi1]
            match i with
            | 0 => simp [hpos]
            | 1 => simp [hpos]
            | 2 => simp [hcnt, hpos]
            | i + 3 => simp [hpos]; congr 1; omega

theorem hostRecords_length (recs : List (Half × Half × List Half)) :
    (hostRecords recs).length + recs.length = (recs.map fun r => 7 + 2 * r.2.2.length).sum := by
  induction recs with
  | nil => rfl
  | cons r rs ih =>
    rw [hostRecords_cons, List.length_append, hostList_length, List.map_cons, List.sum_cons, ← ih]
    simp only [List.length_cons]; omega

theorem hostRecords_mem (recs : List (Half × Half × List Half)) :
    ∀ r ∈ recs, 6 + 2 * r.2.2.length ≤ (hostRecords recs).length := by
  induction recs with
  | nil => simp
  | cons r rs ih =>
    intro r' h'
    rw [hostRecords_cons, List.length_append, hostList_length]
    rcases List.mem_cons.mp h' with rfl | h'
    · simp only [List.length_cons]; omega
    · have := ih r' h'; omega

theorem recordBytes_map (recs : List (Half × Half × List Half)) (hl : ∀ r ∈ recs, r.2.2.length < 65536) :
    recordBytes (recs.map toRec) = (recs.map fun r => 7 + 2 * r.2.2.length).sum := by
  induction recs with
  | nil => rfl
  | cons r rs ih =>
    simp only [List.map_cons, recordBytes, List.sum_cons, toRec]
    rw [ih fun r hr => hl r (by simp [hr]), toNat_ofNat_length (hl r (by simp))]

end Sys2Proof.Machine
end

