-- ==== Sys2Proof/Laws/PerInstr.lean ====
section
/-! SUPPORT. Statements for all commands, one lemma a constructor: the word of a command is one that stands for a command
(30_encoding.md R70, R75), and decodes to it (R72, R73). -/

namespace Sys2Proof.Laws.EncodedWordIsWellFormed

/-- RSV is 0, OPC is assigned, and the word decodes to the command. -/
def Statement (i : Instr) : Prop := wfCommandWord (encode i) = true ∧ decode (encode i) = .ok i

theorem encU16 : Statement .encU16 := by unfold Statement; decide
theorem decU16 : Statement .decU16 := by unfold Statement; decide
theorem encU32 : Statement .encU32 := by unfold Statement; decide
theorem decU32 : Statement .decU32 := by unfold Statement; decide
theorem encF32 : Statement .encF32 := by unfold Statement; decide
theorem decF32 : Statement .decF32 := by unfold Statement; decide
theorem crc16Calc : Statement .crc16Calc := by unfold Statement; decide
theorem crc16Verify : Statement .crc16Verify := by unfold Statement; decide
theorem lrc8Calc : Statement .lrc8Calc := by unfold Statement; decide
theorem lrc8Verify : Statement .lrc8Verify := by unfold Statement; decide
theorem setRaw : Statement .setRaw := by unfold Statement; decide
theorem setSpan : Statement .setSpan := by unfold Statement; decide
theorem setWsr : Statement .setWsr := by unfold Statement; decide
theorem setWsc : Statement .setWsc := by unfold Statement; decide
theorem setWmr : Statement .setWmr := by unfold Statement; decide
theorem setWmc : Statement .setWmc := by unfold Statement; decide
theorem setDiag : Statement .setDiag := by unfold Statement; decide
theorem setMask : Statement .setMask := by unfold Statement; decide
theorem setRwm : Statement .setRwm := by unfold Statement; decide
theorem setFifo : Statement .setFifo := by unfold Statement; decide
theorem setRfr : Statement .setRfr := by unfold Statement; decide
theorem setWfr : Statement .setWfr := by unfold Statement; decide
theorem getSpan : Statement .getSpan := by unfold Statement; decide
theorem rtuEncReq : Statement .rtuEncReq := by unfold Statement; decide
theorem rtuEncRsp : Statement .rtuEncRsp := by unfold Statement; decide
theorem rtuDecReq : Statement .rtuDecReq := by unfold Statement; decide
theorem rtuDecRsp : Statement .rtuDecRsp := by unfold Statement; decide
theorem rtuChkReq : Statement .rtuChkReq := by unfold Statement; decide
theorem rtuChkRsp : Statement .rtuChkRsp := by unfold Statement; decide
theorem ascEncReq : Statement .ascEncReq := by unfold Statement; decide
theorem ascEncRsp : Statement .ascEncRsp := by unfold Statement; decide
theorem ascDecReq : Statement .ascDecReq := by unfold Statement; decide
theorem ascDecRsp : Statement .ascDecRsp := by unfold Statement; decide
theorem ascChk : Statement .ascChk := by unfold Statement; decide

end Sys2Proof.Laws.EncodedWordIsWellFormed
end

