-- ==== Sys2Proof/Laws/Step.lean ====
section
/-! SUPPORT. Everything one step of the machine can do, said once: `step_cases`, and what a host access changes. -/

namespace Sys2Proof.Machine

/-- A next state of the machine is a stutter of the engine, the end of a pending command, the answer of an admitted
host access, or a reset; each on the state without the first event. -/
theorem step_cases {s t : State} (h : step s = .next t) :
    (t = { s with inputs := s.inputs.tail } ∧ ∀ c, s.engine ≠ .pending c)
      ∨ (∃ c, s.engine = .pending c ∧ runCommand c { s with inputs := s.inputs.tail } = .next t)
      ∨ (∃ g, t = readAccess g { s with inputs := s.inputs.tail })
      ∨ (∃ g v, (∃ o n, locate s.cfg o n = .admitted g) ∧ t = writeAccess g v { s with inputs := s.inputs.tail })
      ∨ t = applyReset { s with inputs := s.inputs.tail } := by
  have turn : ∀ u : State, engineTurn u = .next t →
      (t = u ∧ ∀ c, u.engine ≠ .pending c) ∨ ∃ c, u.engine = .pending c ∧ runCommand c u = .next t := by
    intro u hu
    unfold engineTurn at hu
    split at hu
    · next c hc => exact .inr ⟨c, hc, hu⟩
    · next hc => simp only [Host.Outcome.next.injEq] at hu; exact .inl ⟨hu.symm, by simp [hc]⟩
    · next hc => simp only [Host.Outcome.next.injEq] at hu; exact .inl ⟨hu.symm, by simp [hc]⟩
  have host : ∀ (u : State) (o n : Nat) (f : Target → State → State), hostAccess o n f u = .next t →
      ∃ g, (∃ o n, locate u.cfg o n = .admitted g) ∧ t = f g u := by
    intro u o n f hu
    unfold hostAccess at hu
    split at hu
    · next g hg => simp only [Host.Outcome.next.injEq] at hu; exact ⟨g, ⟨o, n, hg⟩, hu.symm⟩
    · cases hu
    · cases hu
  unfold step at h
  split at h
  · next hi =>
    have hs : ({ s with inputs := s.inputs.tail } : State) = s := by rw [hi]; cases s; simp_all
    rw [hs]
    rcases turn s h with h | h
    · exact .inl h
    · exact .inr (.inl h)
  · next e rest hi =>
    rw [hi, List.tail_cons]
    cases e with
    | read o n =>
      obtain ⟨g, -, hg⟩ := host _ _ _ _ h
      exact .inr (.inr (.inl ⟨g, hg⟩))
    | write o n v =>
      obtain ⟨g, hg⟩ := host _ _ _ _ h
      exact .inr (.inr (.inr (.inl ⟨g, v, hg⟩)))
    | hardwareReset =>
      simp only [handleEvent, Host.Outcome.next.injEq] at h
      exact .inr (.inr (.inr (.inr h.symm)))
    | engineTurn =>
      rcases turn _ h with h | h
      · exact .inl h
      · exact .inr (.inl h)

/-- A read leaves the answer, and a hazardous one the fault. -/
theorem readAccess_cases (g : Target) (s : State) :
    (∃ v, readAccess g s = answerRead v s)
      ∨ ((∃ c, s.engine = .pending c) ∧ readAccess g s = answerRead 0 (raiseFault .hazard s)) := by
  unfold readAccess
  split
  · next c hc =>
    split
    · exact .inl ⟨_, rfl⟩
    · exact .inr ⟨⟨c, hc⟩, rfl⟩
  · exact .inl ⟨_, rfl⟩
  · exact .inl ⟨_, rfl⟩

/-- A write resets, is a hazard, or changes what `writeTarget` changes. -/
theorem writeAccess_cases (g : Target) (v : Word) (s : State) :
    writeAccess g v s = applyReset s
      ∨ ((∃ c, s.engine = .pending c) ∧ writeAccess g v s = raiseFault .hazard s)
      ∨ ((∀ c, s.engine ≠ .pending c) ∧ writeAccess g v s = writeTarget g v s) := by
  unfold writeAccess
  split
  · next c hc =>
    split
    · exact .inl rfl
    · exact .inr (.inl ⟨⟨c, hc⟩, rfl⟩)
  · next hc => exact .inr (.inr ⟨by simp [hc], rfl⟩)
  · next hc => exact .inr (.inr ⟨by simp [hc], rfl⟩)

/-- A write while no command is pending changes only the host's registers, IN_BUF and, by a CMD write, the engine. -/
theorem writeTarget_cases (g : Target) (v : Word) (s : State) (h : ∀ c, s.engine ≠ .pending c) :
    writeTarget g v s = applyReset s
      ∨ (s.engine = .idle ∧ writeTarget g v s = acceptCommand v s)
      ∨ (∃ bo wo sl fc ex a0 a1 a2 a3 n m, writeTarget g v s = { s with bo := bo, wo := wo, slave := sl, fc := fc, exc := ex, arg0 := a0, arg1 := a1, arg2 := a2, arg3 := a3, inLen := n, inBuf := m }
          ∧ (m = s.inBuf ∨ ∃ i b, g = .byte .inBuf i ∧ m = s.inBuf.store i b)) := by
  cases g with
  | reserved => exact .inr (.inr ⟨_, _, _, _, _, _, _, _, _, _, _, rfl, .inl rfl⟩)
  | byte b i =>
    cases b with
    | inBuf => exact .inr (.inr ⟨_, _, _, _, _, _, _, _, _, _, _, rfl, .inr ⟨i, _, rfl, rfl⟩⟩)
    | outBuf => exact .inr (.inr ⟨_, _, _, _, _, _, _, _, _, _, _, rfl, .inl rfl⟩)
    | pduBuf => exact .inr (.inr ⟨_, _, _, _, _, _, _, _, _, _, _, rfl, .inl rfl⟩)
  | register r =>
    cases r with
    | ctrl =>
      simp only [writeTarget, writeRegister, writeCtrl]
      split
      · exact .inl rfl
      · exact .inr (.inr ⟨_, _, _, _, _, _, _, _, _, _, _, rfl, .inl rfl⟩)
    | cmd =>
      simp only [writeTarget, writeRegister, writeCmd]
      split
      · next hc => exact .inr (.inl ⟨hc, rfl⟩)
      · exact .inr (.inr ⟨_, _, _, _, _, _, _, _, _, _, _, rfl, .inl rfl⟩)
      · next c hc => exact absurd hc (h c)
    | _ => exact .inr (.inr ⟨_, _, _, _, _, _, _, _, _, _, _, rfl, .inl rfl⟩)

/-- A byte an admitted access addresses lies below BUF_BYTES (20_memory.md R52). -/
theorem locate_byte {p : Params} {offset bytes : Nat} {b : BufferId} {i : Nat}
    (h : locate p offset bytes = .admitted (.byte b i)) : i < p.bufBytes := by
  unfold locate at h
  split at h
  · split at h
    · split at h <;> simp at h
    · simp at h
  · split at h
    · split at h
      · split at h
        · unfold bufferTarget at h; split at h <;> simp_all
        · split at h <;> (unfold bufferTarget at h; split at h <;> simp_all)
      · simp at h
    · simp at h

theorem registerAt_mem {o : Nat} {l : List (Nat × Reg)} {r : Reg} (h : registerAt o l = some r) : (o, r) ∈ l := by
  induction l with
  | nil => simp [registerAt] at h
  | cons c l ih =>
    obtain ⟨o', r'⟩ := c
    simp only [registerAt] at h
    split at h
    · next ho => rw [Option.some.injEq] at h; subst ho h; simp
    · exact List.mem_cons_of_mem _ (ih h)

/-- A register is accessed at its offset with four bytes (10_state.md R17, 20_memory.md R51). -/
theorem locate_register {p : Params} {offset bytes : Nat} {r : Reg}
    (h : locate p offset bytes = .admitted (.register r)) : bytes = 4 ∧ (offset, r) ∈ registerMap := by
  unfold locate at h
  split at h
  · split at h
    · next hf =>
      split at h
      · next r' hr =>
        simp only [Access.admitted.injEq, Target.register.injEq] at h
        exact ⟨hf.1, registerAt_mem (h ▸ hr)⟩
      · simp at h
    · simp at h
  · split at h
    · split at h
      · split at h
        · unfold bufferTarget at h; split at h <;> simp at h
        · split at h <;> (unfold bufferTarget at h; split at h <;> simp at h)
      · simp at h
    · simp at h

/-- The register map has each offset once, below 0x1000 and 4-byte aligned. -/
theorem locate_of_mem {offset : Nat} {r : Reg} (h : (offset, r) ∈ registerMap) (p : Params) :
    locate p offset 4 = .admitted (.register r) := by
  have key : ∀ c ∈ registerMap, c.1 < 0x1000 ∧ c.1 % 4 = 0 ∧ registerAt c.1 registerMap = some c.2 := by decide
  obtain ⟨h1, h2, h3⟩ := key _ h
  simp only at h1 h2 h3
  simp [locate, h1, h2, h3]

/-- Byte i of a buffer window that exists (20_memory.md R50, R52). -/
theorem locate_buffer {p : Params} {i : Nat} (hi : i < p.bufBytes) (hi' : i < 4096) :
    locate p (0x1000 + i) 1 = .admitted (.byte .inBuf i)
      ∧ locate p (0x2000 + i) 1 = .admitted (.byte .outBuf i)
      ∧ locate p (0x3000 + i) 1 = .admitted (.byte .pduBuf i) := by
  refine ⟨?_, ?_, ?_⟩
  · rw [locate, if_neg (by omega), if_pos (by omega), if_pos rfl, if_pos (by omega), bufferTarget, if_pos (by omega),
      Nat.add_sub_cancel_left]
  · rw [locate, if_neg (by omega), if_pos (by omega), if_pos rfl, if_neg (by omega), if_pos (by omega), bufferTarget,
      if_pos (by omega), Nat.add_sub_cancel_left]
  · rw [locate, if_neg (by omega), if_pos (by omega), if_pos rfl, if_neg (by omega), if_neg (by omega), bufferTarget,
      if_pos (by omega), Nat.add_sub_cancel_left]

theorem step_read {s : State} {offset bytes : Nat} {rest : List HostEvent} {g : Target}
    (hi : s.inputs = .read offset bytes :: rest) (hl : locate s.cfg offset bytes = .admitted g) :
    step s = .next (readAccess g { s with inputs := rest }) := by
  simp [step, hi, handleEvent, hostAccess, hl]

theorem step_write {s : State} {offset bytes : Nat} {v : Word} {rest : List HostEvent} {g : Target}
    (hi : s.inputs = .write offset bytes v :: rest) (hl : locate s.cfg offset bytes = .admitted g) :
    step s = .next (writeAccess g v { s with inputs := rest }) := by
  simp [step, hi, handleEvent, hostAccess, hl]

end Sys2Proof.Machine
end

