-- ==== Sys2Proof/Tests/Slice0.lean ====
section
/-! SUPPORT. Tests of single steps, with expected values from 30_encoding.md R73, R75 and from the vectors of
95_test_vectors.md (VK, VC, VP, VR, VA, VW); smoke tests of the well-formedness checks; and, for each obligation with
hypotheses, a witness that they can be met. -/

namespace Sys2Proof.Tests

open Sys2Proof.Machine

/-! ### Helpers -/

/-- A state with `l` in IN and its length in IN_LEN. -/
def withIn (l : List Byte) (s : State) : State :=
  { s with inBuf := Memory.storeAll [] 0 l, inLen := BitVec.ofNat 16 l.length }

/-- A state with the payload `l`. -/
def withPdu (l : List Byte) (s : State) : State :=
  { s with pduBuf := Memory.storeAll [] 0 l, pduLen := BitVec.ofNat 16 l.length }

/-- Reset, with SLAVE, FC and the payload. -/
def pdu (slave fc : Byte) (l : List Byte) : State := withPdu l { State.reset with slave := slave, fc := fc }

/-- Reset, with FC, ARG0 and ARG1. -/
def args (fc : Byte) (a0 a1 : Word) : State := { State.reset with fc := fc, arg0 := a0, arg1 := a1 }

/-- The same in BO = 1. -/
def le (s : State) : State := { s with bo := .littleEndian }

/-- The same in WO = 1. -/
def lw (s : State) : State := { s with wo := .lowWordFirst }

/-- What a next state shows; nothing of a stop. -/
def see {α : Type} (f : State → α) (a : Answer) : Option α :=
  match a with
  | .next t => some (f t)
  | .fault _ => none
  | .refused _ => none

/-- The next state of a command that has one. -/
def after (i : Instr) (s : State) : State :=
  match exec i s with
  | .next t => t
  | .fault _ => s
  | .refused _ => s

/-- OUT and STATUS. -/
def outStatus (t : State) : List Byte × Word := (t.output, t.statusWord)

/-- RESULT and STATUS. -/
def resultStatus (t : State) : Word × Word := (t.result, t.statusWord)

/-- The payload and its view. -/
def payloadView (t : State) : List Byte × FieldKind × Half × Half := (t.payload, t.fkind, t.fa, t.fb)

/-- What a decode sets beside the payload: SLAVE, FC, EXC and STATUS. -/
def header (t : State) : Byte × Byte × Word × Word := (t.slave, t.fc, t.exc.word, t.statusWord)

/-! ### Decoding (R73, R75): the words written out from the table -/

theorem test_decode_codec :
    decode 0b00000000000000000000000000000001 = .ok .encU16 ∧ decode 0x00000002 = .ok .decU16
      ∧ decode 0x00000003 = .ok .encU32 ∧ decode 0x00000004 = .ok .decU32 ∧ decode 0x00000005 = .ok .encF32
      ∧ decode 0x00000006 = .ok .decF32 := by decide

theorem test_decode_checksum :
    decode 0b00000000000000000000000000010000 = .ok .crc16Calc ∧ decode 0x00000011 = .ok .crc16Verify
      ∧ decode 0x00000012 = .ok .lrc8Calc ∧ decode 0x00000013 = .ok .lrc8Verify := by decide

theorem test_decode_pdu :
    decode 0b00000000000000000000000000100000 = .ok .setRaw ∧ decode 0x00000021 = .ok .setSpan
      ∧ decode 0x00000022 = .ok .setWsr ∧ decode 0x00000023 = .ok .setWsc ∧ decode 0x00000024 = .ok .setWmr
      ∧ decode 0x00000025 = .ok .setWmc ∧ decode 0x00000026 = .ok .setDiag ∧ decode 0x00000027 = .ok .setMask
      ∧ decode 0x00000028 = .ok .setRwm ∧ decode 0x00000029 = .ok .setFifo ∧ decode 0x0000002A = .ok .setRfr
      ∧ decode 0x0000002B = .ok .setWfr ∧ decode 0x0000002C = .ok .getSpan := by decide

theorem test_decode_rtu :
    decode 0b00000000000000000000000000110000 = .ok .rtuEncReq ∧ decode 0x00000031 = .ok .rtuEncRsp
      ∧ decode 0x00000032 = .ok .rtuDecReq ∧ decode 0x00000033 = .ok .rtuDecRsp
      ∧ decode 0x00000034 = .ok .rtuChkReq ∧ decode 0x00000035 = .ok .rtuChkRsp := by decide

theorem test_decode_ascii :
    decode 0b00000000000000000000000001000000 = .ok .ascEncReq ∧ decode 0x00000041 = .ok .ascEncRsp
      ∧ decode 0x00000042 = .ok .ascDecReq ∧ decode 0x00000043 = .ok .ascDecRsp
      ∧ decode 0x00000044 = .ok .ascChk := by decide

/-- VW1, VW2, VW3, and bit 31. -/
theorem test_decode_illegal :
    decode 0x00000000 = .error .unassignedOpcode ∧ decode 0x00000110 = .error .reservedBits
      ∧ decode 0x00000007 = .error .unassignedOpcode ∧ decode 0x0000002D = .error .unassignedOpcode
      ∧ decode 0x00000036 = .error .unassignedOpcode ∧ decode 0x00000045 = .error .unassignedOpcode
      ∧ decode 0x80000001 = .error .reservedBits := by decide

/-- No opcode of the table stands twice. -/
theorem test_opcodes_distinct :
    (opcodeMap.map Prod.fst).Nodup := by decide

/-! ### Well-formedness refuses -/

theorem smoke_reserved_bits : reservedClear 0x00000110 = false ∧ wfCommandWord 0x80000001 = false := by decide

theorem smoke_opcode_ranges :
    opcodeAssigned 0x00 = false ∧ opcodeAssigned 0x07 = false ∧ opcodeAssigned 0x0F = false
      ∧ opcodeAssigned 0x14 = false ∧ opcodeAssigned 0x1F = false ∧ opcodeAssigned 0x2D = false
      ∧ opcodeAssigned 0x2F = false ∧ opcodeAssigned 0x36 = false ∧ opcodeAssigned 0x3F = false
      ∧ opcodeAssigned 0x45 = false ∧ opcodeAssigned 0xFF = false := by decide

theorem smoke_buf_bytes :
    Params.wf { defaultParams with bufBytes := 15 } = false ∧ Params.wf { defaultParams with bufBytes := 4097 } = false
      ∧ Params.wf { defaultParams with bufBytes := 16 } = true
      ∧ Params.wf { defaultParams with bufBytes := 4096 } = true := by decide

/-- A repeated code, 17 codes, code 0, code 0x80. -/
theorem smoke_supported_fc :
    Params.wf { defaultParams with supportedFc := 0x01 :: defaultParams.supportedFc.dropLast } = false
      ∧ Params.wf { defaultParams with supportedFc := defaultParams.supportedFc.dropLast } = false
      ∧ Params.wf { defaultParams with supportedFc := defaultParams.supportedFc.dropLast ++ [0x00] } = false
      ∧ Params.wf { defaultParams with supportedFc := defaultParams.supportedFc.dropLast ++ [0x80] } = false := by
  decide

/-- A repeated code, nine codes, a code that is not supported. -/
theorem smoke_span_codes :
    Params.wf { defaultParams with spanCodes := 0x01 :: defaultParams.spanCodes.dropLast } = false
      ∧ Params.wf { defaultParams with spanCodes := defaultParams.spanCodes.dropLast } = false
      ∧ Params.wf { defaultParams with spanCodes := defaultParams.spanCodes.dropLast ++ [0x09] } = false := by decide

/-- A code outside SPAN_CODES, and one outside {0x01..0x04}. -/
theorem smoke_span_set_codes :
    Params.wf { defaultParams with spanSetCodes := [0x07] } = false
      ∧ Params.wf { defaultParams with spanSetCodes := [0x05] } = false := by decide

theorem smoke_response_codes :
    Params.wf { defaultParams with bcCodes := [0x09] } = false
      ∧ Params.wf { defaultParams with wsCodes := [0x09] } = false := by decide

theorem smoke_memory :
    Memory.wf [(1, 0), (1, 0)] = false ∧ Memory.wf [(2, 0), (1, 0)] = false
      ∧ Memory.below [(3, 0)] 3 = false ∧ Memory.below [(3, 0)] 4 = true := by decide

/-! ### Codec -/

theorem test_encU16_VK1 :
    see outStatus (exec .encU16 (args 0 0x1234 0)) = some ([0x12, 0x34], 0x06) := by decide
theorem test_encU16_VK3_le :
    see State.output (exec .encU16 (le (args 0 0xABCD1234 0))) = some [0x34, 0x12] := by decide
theorem test_decU16_VK5 :
    see resultStatus (exec .decU16 (le (withIn [0x12, 0x34] State.reset))) = some (0x3412, 0x06) := by decide
theorem test_decU16_VK7 :
    see resultStatus (exec .decU16 (withIn [0x12] State.reset)) = some (0, 0x202) := by decide
theorem test_encU32_VK10 :
    see State.output (exec .encU32 (lw (args 0 0x11223344 0))) = some [0x33, 0x44, 0x11, 0x22] := by decide
theorem test_encU32_VK11 :
    see State.output (exec .encU32 (le (args 0 0x11223344 0))) = some [0x22, 0x11, 0x44, 0x33] := by decide
theorem test_decU32_VK12 :
    see State.result (exec .decU32 (le (lw (withIn [0x44, 0x33, 0x22, 0x11] State.reset))))
      = some 0x11223344 := by decide
theorem test_decU32_VK14 :
    see resultStatus (exec .decU32 (withIn [0x11, 0x22, 0x33] State.reset)) = some (0, 0x202) := by decide
theorem test_encF32_VK17 :
    see State.output (exec .encF32 (le (args 0 0x7F800001 0))) = some [0x80, 0x7F, 0x01, 0x00] := by decide
theorem test_decF32_VK18 :
    see State.result (exec .decF32 (lw (withIn [0x00, 0x00, 0x7F, 0xC0] State.reset)))
      = some 0x7FC00000 := by decide

/-! ### Checksums -/

theorem test_crc16Calc_VC1 :
    see State.result (exec .crc16Calc (withIn [0x01, 0x03, 0x00, 0x00, 0x00, 0x0A] State.reset))
      = some 0xCDC5 := by decide +kernel
theorem test_crc16Calc_VC5 :
    see State.result (exec .crc16Calc (withIn [0x01] State.reset)) = some 0x807E := by decide
theorem test_crc16Verify_VC14 :
    see State.statusWord (exec .crc16Verify (withIn [0x01, 0x83, 0x02, 0xC0, 0xF1] State.reset))
      = some 0x06 := by decide +kernel
theorem test_crc16Verify_VC10 :
    see State.statusWord (exec .crc16Verify (withIn [0x01, 0x03, 0x00, 0x00, 0x00, 0x0A, 0xCD, 0xC5] State.reset))
      = some 0x02 := by decide +kernel
theorem test_lrc8Calc_VC15 :
    see State.result (exec .lrc8Calc (withIn [0x01, 0x03, 0x00, 0x00, 0x00, 0x0A] State.reset))
      = some 0xF2 := by decide
theorem test_lrc8Verify_VC21 :
    see State.statusWord (exec .lrc8Verify (withIn [0x01, 0x03, 0x00, 0x00, 0x00, 0x0A, 0xF2] State.reset))
      = some 0x06 := by decide
theorem test_lrc8Verify_empty :
    see State.statusWord (exec .lrc8Verify State.reset) = some 0x02 := by decide

/-! ### PDU -/

theorem test_setRaw_VP1 :
    see payloadView (exec .setRaw (withIn [0x02, 0x01, 0x05] State.reset))
      = some ([0x02, 0x01, 0x05], .none, 0, 0) := by decide
theorem test_setSpan_VP5 :
    see payloadView (exec .setSpan (le (args 0x03 0x006B 3)))
      = some ([0x6B, 0x00, 0x03, 0x00], .span, 0x6B, 3) := by decide
theorem test_setSpan_VP7 :
    see (fun t => (t.engine, t.statusWord, t.pduLen)) (exec .setSpan (args 0x05 0 10))
      = some (.faulted .contract, 0x3000, 0) := by decide
theorem test_setWsr_VP8 :
    see payloadView (exec .setWsr (args 0x06 1 3)) = some ([0x00, 0x01, 0x00, 0x03], .reg, 1, 3) := by decide
theorem test_setWsc_VP10 :
    see payloadView (exec .setWsc (args 0x05 0xAC 2))
      = some ([0x00, 0xAC, 0x00, 0x00], .coil, 0xAC, 0) := by decide
theorem test_setWsc_VP11 :
    see payloadView (exec .setWsc (le (args 0x05 0xAC 1)))
      = some ([0xAC, 0x00, 0x00, 0xFF], .coil, 0xAC, 1) := by decide
theorem test_setWmr_VP13 :
    see payloadView (exec .setWmr (le (withIn [0x0A, 0x00, 0x02, 0x01] (args 0x10 1 2))))
      = some ([0x01, 0x00, 0x02, 0x00, 0x04, 0x0A, 0x00, 0x02, 0x01], .none, 0, 0) := by decide
theorem test_setWmr_VP34 :
    see State.engine (exec .setWmr (withIn [1, 2, 3] (args 0x03 1 2))) = some (.faulted .contract) := by decide
theorem test_setWmc_VP15 :
    see State.payload (exec .setWmc (withIn [1, 0, 1, 1, 0, 0, 1, 1, 1, 0] (args 0x0F 0x13 10)))
      = some [0x00, 0x13, 0x00, 0x0A, 0x02, 0xCD, 0x01] := by decide
theorem test_setWmc_VP17 :
    see State.payload (exec .setWmc (withIn [0xFF, 0, 0, 0, 0, 0, 0, 0, 7] (args 0x0F 0x13 9)))
      = some [0x00, 0x13, 0x00, 0x09, 0x02, 0x01, 0x01] := by decide
theorem test_setDiag_VP20 :
    see State.payload (exec .setDiag (withIn [0xA5, 0x37] (args 0x08 0 0)))
      = some [0x00, 0x00, 0xA5, 0x37] := by decide
theorem test_setMask_VP22 :
    see State.payload (exec .setMask { args 0x16 16 0x000F with arg2 := 0x0005 })
      = some [0x00, 0x10, 0x00, 0x0F, 0x00, 0x05] := by decide
theorem test_setRwm_VP23 :
    see State.payload (exec .setRwm (withIn [0xFF, 0x00] { args 0x17 3 6 with arg2 := 14, arg3 := 1 }))
      = some [0x00, 0x03, 0x00, 0x06, 0x00, 0x0E, 0x00, 0x01, 0x02, 0x00, 0xFF] := by decide
theorem test_setRwm_VP25 :
    see State.err (exec .setRwm (withIn [0xFF, 0x00] { args 0x17 3 6 with arg2 := 14, arg3 := 2 }))
      = some .mismatch := by decide
theorem test_setFifo_VP26 :
    see State.payload (exec .setFifo (args 0x18 0x04DE 0)) = some [0x04, 0xDE] := by decide
theorem test_setWfr_VP27 :
    see State.payload (exec .setWfr (withIn [4, 0, 7, 0, 3, 0, 0xAF, 6, 4, 0xBE, 0x0D, 0x10] (args 0x15 0 0)))
      = some [0x0D, 0x06, 0x00, 0x04, 0x00, 0x07, 0x00, 0x03, 0x06, 0xAF, 0xBE, 0x04, 0x10, 0x0D] := by decide
theorem test_setWfr_VP29 :
    see State.err (exec .setWfr (withIn [4, 0, 7, 0, 3, 0, 0xAF, 6] (args 0x15 0 0)))
      = some .length := by decide
theorem test_setRfr_VP31 :
    see State.payload (exec .setRfr (withIn [4, 0, 1, 0, 2, 0] (args 0x14 0 0)))
      = some [0x07, 0x06, 0x00, 0x04, 0x00, 0x01, 0x00, 0x02] := by decide
theorem test_setRfr_VP33 :
    see State.err (exec .setRfr (args 0x14 0 0)) = some .empty := by decide
theorem test_getSpan_VP36 :
    see resultStatus (exec .getSpan (le (pdu 0 0x03 [0x6B, 0x00, 0x03, 0x00])))
      = some (0x0003006B, 0x06) := by decide
theorem test_getSpan_VP38 :
    see resultStatus (exec .getSpan (pdu 0 0x03 [0x00, 0x6B, 0x00])) = some (0, 0x02) := by decide

/-! ### RTU -/

theorem test_rtuEncReq_VR1 :
    see outStatus (exec .rtuEncReq (pdu 1 0x03 [0x00, 0x00, 0x00, 0x0A]))
      = some ([0x01, 0x03, 0x00, 0x00, 0x00, 0x0A, 0xC5, 0xCD], 0x06) := by decide +kernel
theorem test_rtuEncReq_VR5 :
    see State.statusWord (exec .rtuEncReq (pdu 1 0x83 [])) = some 0x902 := by decide
theorem test_rtuEncRsp_VR7 :
    see State.output (exec .rtuEncRsp { pdu 1 0x03 [] with exc := ⟨true, 0x02⟩ })
      = some [0x01, 0x83, 0x02, 0xC0, 0xF1] := by decide +kernel
theorem test_rtuEncRsp_VR8 :
    see State.output (exec .rtuEncRsp { pdu 1 0x03 [0x02, 0x00, 0x2A] with exc := ⟨true, 0x05⟩ })
      = some [0x01, 0x03, 0x02, 0x00, 0x2A, 0x39, 0x9B] := by decide +kernel
theorem test_rtuDecReq_VR14 :
    see payloadView (exec .rtuDecReq (le (withIn [0x02, 0x05, 0xAC, 0x00, 0x00, 0xFF, 0xAC, 0xE9] State.reset)))
      = some ([0xAC, 0x00, 0x00, 0xFF], .coil, 0xAC, 1) := by decide +kernel
theorem test_rtuDecReq_VR18 :
    see header (exec .rtuDecReq (withIn [0x01, 0x83, 0x41, 0x81] State.reset))
      = some (1, 3, 0, 0x1E) := by decide +kernel
theorem test_rtuDecRsp_VR20 :
    see header (exec .rtuDecRsp (withIn [0x01, 0x83, 0x02, 0xC0, 0xF1] State.reset))
      = some (1, 3, 0x102, 0x1E) := by decide +kernel
theorem test_rtuDecRsp_VR21 :
    see (fun t => (header t, t.payload))
        (exec .rtuDecRsp (withIn [0x01, 0x03, 0x02, 0x00, 0x2A, 0x39, 0x9B] State.reset))
      = some ((1, 3, 0x105, 0x0E), [0x02, 0x00, 0x2A]) := by decide +kernel
theorem test_rtuChkReq_VR32 :
    see resultStatus (exec .rtuChkReq (withIn [0x01, 0x03, 0x00, 0x00, 0x00, 0x0A, 0xC5] State.reset))
      = some (8, 0x02) := by decide
theorem test_rtuChkReq_VR35 :
    see resultStatus (exec .rtuChkReq (withIn [0x01, 0x10, 0x00, 0x01] State.reset))
      = some (4, 0x06) := by decide
theorem test_rtuChkRsp_VR43 :
    see resultStatus (exec .rtuChkRsp (withIn [0x01, 0x03] State.reset)) = some (0, 0x02) := by decide
theorem test_rtuChkRsp_VR47 :
    see resultStatus (exec .rtuChkRsp (withIn [0x01, 0x03, 0xFF] State.reset)) = some (260, 0x02) := by decide

/-! ### ASCII -/

/-- ":01030000000AF2" CR LF. -/
def frameVA1 : List Byte :=
  [0x3A, 0x30, 0x31, 0x30, 0x33, 0x30, 0x30, 0x30, 0x30, 0x30, 0x30, 0x30, 0x41, 0x46, 0x32, 0x0D, 0x0A]

/-- ":1183026A" CR LF. -/
def frameVA7 : List Byte := [0x3A, 0x31, 0x31, 0x38, 0x33, 0x30, 0x32, 0x36, 0x41, 0x0D, 0x0A]

theorem test_ascEncReq_VA1 :
    see outStatus (exec .ascEncReq (pdu 1 0x03 [0x00, 0x00, 0x00, 0x0A])) = some (frameVA1, 0x06) := by decide
theorem test_ascEncRsp_VA7 :
    see State.output (exec .ascEncRsp { pdu 0x11 0x03 [] with exc := ⟨true, 0x02⟩ })
      = some frameVA7 := by decide
theorem test_ascDecReq_VA10 :
    see (fun t => (header t, payloadView t)) (exec .ascDecReq (withIn frameVA1 State.reset))
      = some ((1, 3, 0, 0x0E), ([0x00, 0x00, 0x00, 0x0A], .span, 0, 10)) := by decide
theorem test_ascDecReq_VA14 :
    see State.statusWord (exec .ascDecReq (withIn (frameVA1.set 14 0x33) State.reset))
      = some 0x402 := by decide
theorem test_ascDecRsp_VA24 :
    see header (exec .ascDecRsp (withIn frameVA7 State.reset)) = some (0x11, 3, 0x102, 0x1E) := by decide
theorem test_ascDecRsp_odd :
    see State.err (exec .ascDecRsp (withIn [0x3A, 0x30, 0x47, 0x33, 0x0D, 0x0A] State.reset))
      = some .hexOdd := by decide
theorem test_ascChk_VA34 :
    see resultStatus (exec .ascChk (withIn [0x3A, 0x0D, 0x58, 0x0D, 0x0A] State.reset))
      = some (0x00050000, 0x06) := by decide
theorem test_ascChk_VA33 :
    see resultStatus (exec .ascChk (withIn [0x3A, 0x30, 0x0D] State.reset)) = some (0, 0x02) := by decide

/-! ### The host's accesses (L2.6) -/

/-- A state in which PENDING(CRC16_CALC) stands and the host makes one access. -/
def pendingWith (e : HostEvent) : State := { State.reset with engine := .pending 0x10, inputs := [e] }

/-- A state in IDLE in which the host makes one access. -/
def idleWith (e : HostEvent) : State := { State.reset with result := 7, inputs := [e] }

theorem test_step_VW1 :
    see State.statusWord (step { State.reset with engine := .pending 0 }) = some 0x102 := by decide
theorem test_step_VW4 :
    see (fun t => (t.engine, t.statusWord)) (step (idleWith (.write 0x004 4 0x10)))
      = some (.pending 0x10, 0x01) := by decide
theorem test_step_VW5 :
    see (fun t => (t.engine, t.rdata)) (step (pendingWith (.read 0x008 4)))
      = some (.pending 0x10, 0x01) := by decide
theorem test_step_VW6 :
    see (fun t => (t.statusWord, t.rdata)) (step (pendingWith (.read 0x028 4))) = some (0x5000, 0) := by decide
theorem test_step_VW7 :
    see State.engine (step { idleWith (.write 0x004 4 0x10) with engine := .faulted .hazard })
      = some (.faulted .hazard) := by decide
theorem test_step_VW9 :
    see (fun t => (t.engine, t.ctrlWord, t.draws)) (step (pendingWith (.write 0x000 4 0x80000003)))
      = some (.idle, 0, 1) := by decide
theorem test_step_VW10 :
    see State.ctrlWord (step (idleWith (.write 0x000 4 0x3))) = some 0x3 := by decide
theorem test_step_VW13 :
    see State.result (step (idleWith (.write 0x028 4 0xFF))) = some 7 := by decide
theorem test_step_VW14 :
    see State.rdata (step (idleWith (.read 0x028 2))) = none ∧ see State.rdata (step (idleWith (.read 0x1000 4))) = none := by decide
theorem test_step_VW15 :
    see State.rdata (step (idleWith (.read 0x1400 1))) = some 0 := by decide

/-- The word staged by `withFetchWord` is the one the next step runs. -/
theorem test_withFetchWord : see resultStatus (step (State.reset.withFetchWord 32 0x10)) = some (0xFFFF, 0x06)
    ∧ decodeTableWord 32 0x10 = some .crc16Calc := by decide

/-! ### Witnesses: the hypotheses of each obligation, clause by clause, at the ends of its ranges -/

/-- IN_LEN = n, the bytes of IN being draws. -/
def len (n : Half) (s : State) : State := { s with inLen := n }

/-- A legal machine with 16-byte buffers. -/
def small (s : State) : State := { s with cfg := { defaultParams with bufBytes := 16 } }

/-- A legal machine with 4096-byte buffers. -/
def large (s : State) : State := { s with cfg := { defaultParams with bufBytes := 4096 } }

/-- IN holds n bytes of value 1. -/
def ones (n : Nat) (s : State) : State :=
  { s with inBuf := (List.range n).map fun i => (i, 1), inLen := BitVec.ofNat 16 n }

/-- A state in which the host has copied OUT to IN. -/
def copyBack (t : State) : State := { t with inBuf := t.outBuf, inLen := t.outLen }

/-- The host's copy is one as `CopiedBack` says, where OUT was written. -/
theorem copiedBack_copyBack {t : State} (h : ∀ i, i < t.outLen.toNat → t.outBuf.lookup i ≠ none) :
    CopiedBack t (copyBack t) := by
  refine ⟨rfl, rfl, rfl, rfl, fun i hi => ?_⟩
  have := h i hi
  show State.byteAt (copyBack t) .inBuf i = t.byteAt .outBuf i
  simp only [State.byteAt, State.buffer, copyBack]
  cases hl : t.outBuf.lookup i with
  | none => exact absurd hl this
  | some v => rfl

theorem witness_StepRunsTheDecodedCommand :
    decode 0x10 = .ok .crc16Calc ∧ (pendingWith .engineTurn).engine = .pending 0x10
      ∧ (pendingWith .engineTurn).inputs = [.engineTurn]
      ∧ ({ pendingWith .engineTurn with inputs := [] } : State).inputs = [] := by decide

theorem witness_IllegalWordCompletesWithIllegal :
    wfCommandWord 0x110 = false ∧ wfCommandWord 0x45 = false
      ∧ ({ pendingWith .engineTurn with engine := .pending 0x110 } : State).engine = .pending 0x110
      ∧ ({ pendingWith .engineTurn with engine := .pending 0x45 } : State).engine = .pending 0x45
      ∧ ({ pendingWith .engineTurn with inputs := [] } : State).inputs = []
      ∧ (pendingWith .engineTurn).inputs = [.engineTurn] := by decide

/-- An error, a success and a fault, each of a command that has it. -/
theorem witness_CommandsRaiseOnlyTheirListedErrors :
    State.reset.cfg.wf = true ∧ exec .decU16 State.reset = .next (after .decU16 State.reset)
      ∧ (after .decU16 State.reset).engine = .idle ∧ (after .decU16 State.reset).err = .length := ⟨rfl, rfl, rfl, rfl⟩

/-- The fault, and a setter whose code matches. -/
theorem witness_ContractFaultExactlyOnWrongFunctionCode :
    exec .setWsr (args 0x03 1 3) = .next (after .setWsr (args 0x03 1 3))
      ∧ (after .setWsr (args 0x03 1 3)).engine = .faulted .contract
      ∧ exec .setWsr (args 0x06 1 3) = .next (after .setWsr (args 0x06 1 3))
      ∧ (after .setWsr (args 0x06 1 3)).engine = .idle := ⟨rfl, rfl, rfl, rfl⟩

theorem witness_NoCommandWritesItsOperands :
    exec .setRaw (ones 3 State.reset) = .next (after .setRaw (ones 3 State.reset)) := rfl

/-- A setter is no decoder, no RESULT writer and no OUT writer. -/
theorem witness_RegistersAreWrittenOnlyByTheirCommands :
    exec .setSpan (args 0x03 1 3) = .next (after .setSpan (args 0x03 1 3))
      ∧ Instr.setSpan ∉ decoders ∧ Instr.setSpan ∉ resultWriters ∧ Instr.setSpan ∉ outputWriters :=
  ⟨rfl, by decide, by decide, by decide⟩

/-- A step that keeps the payload, a setter's step and a reset's. -/
theorem witness_PayloadChangesOnlyByWritersAndReset :
    see State.pduLen (step (pdu 1 0x03 [1, 2])) = some 2
      ∧ see State.pduLen (step { args 0x03 1 3 with engine := .pending 0x21 }) = some 4
      ∧ see State.pduLen (step { pdu 1 0x03 [1, 2] with inputs := [.hardwareReset] }) = some 0 := by decide

/-- Both choices of the command. -/
theorem witness_EncU32AndF32WriteTheSameFourBytes :
    (Instr.encU32 = .encU32 ∨ Instr.encU32 = .encF32) ∧ (Instr.encF32 = .encU32 ∨ Instr.encF32 = .encF32) := by decide

theorem witness_DecU16ReadsTheFirstTwoBytes :
    (len 1025 State.reset).cfg.bufBytes < (len 1025 State.reset).inLen.toNat
      ∧ (len 1 State.reset).inLen.toNat ≤ (len 1 State.reset).cfg.bufBytes ∧ (len 1 State.reset).inLen.toNat < 2
      ∧ (len 2 State.reset).inLen.toNat ≤ (len 2 State.reset).cfg.bufBytes ∧ 2 ≤ (len 2 State.reset).inLen.toNat
      ∧ (len 1024 State.reset).inLen.toNat ≤ (len 1024 State.reset).cfg.bufBytes := by decide

theorem witness_DecU32AndF32ReadTheFirstFourBytes :
    (len 1025 State.reset).cfg.bufBytes < (len 1025 State.reset).inLen.toNat
      ∧ (len 3 State.reset).inLen.toNat ≤ (len 3 State.reset).cfg.bufBytes ∧ (len 3 State.reset).inLen.toNat < 4
      ∧ (len 4 State.reset).inLen.toNat ≤ (len 4 State.reset).cfg.bufBytes ∧ 4 ≤ (len 4 State.reset).inLen.toNat := by
  decide

theorem witness_CodecRoundTrip :
    (args 0 0x11223344 0).cfg.wf = true
      ∧ CopiedBack (after .encU16 (args 0 0x11223344 0)) (copyBack (after .encU16 (args 0 0x11223344 0)))
      ∧ CopiedBack (after .encU32 (args 0 0x11223344 0)) (copyBack (after .encU32 (args 0 0x11223344 0)))
      ∧ CopiedBack (after .encF32 (args 0 0x11223344 0)) (copyBack (after .encF32 (args 0 0x11223344 0))) :=
  ⟨rfl, copiedBack_copyBack (by decide), copiedBack_copyBack (by decide), copiedBack_copyBack (by decide)⟩

theorem witness_ChecksumsOfAllOfInput :
    (len 1025 State.reset).cfg.bufBytes < (len 1025 State.reset).inLen.toNat
      ∧ (len 1024 State.reset).inLen.toNat ≤ (len 1024 State.reset).cfg.bufBytes := by decide

theorem witness_VerifyCommandsGiveTheVerdict :
    (len 1025 State.reset).cfg.bufBytes < (len 1025 State.reset).inLen.toNat
      ∧ (len 1024 State.reset).inLen.toNat ≤ (len 1024 State.reset).cfg.bufBytes := by decide

/-- VC13 and VC21. -/
theorem witness_AppendedChecksumVerifies :
    (withIn [0xFF, 0xFF] State.reset).inLen.toNat ≤ (withIn [0xFF, 0xFF] State.reset).cfg.bufBytes
      ∧ (withIn [0xFF, 0xFF] State.reset).input = [] ++ crcTail []
      ∧ (withIn [0x80, 0x80] State.reset).inLen.toNat ≤ (withIn [0x80, 0x80] State.reset).cfg.bufBytes
      ∧ (withIn [0x80, 0x80] State.reset).input = [0x80] ++ [lrcRef [0x80]] := by decide

/-- The last bit of a frame of two bytes, for the CRC (VC13) and for the LRC (VC24). -/
theorem witness_SingleBitErrorsAreDetected :
    exec .crc16Verify (withIn [0xFF, 0xFF] State.reset) = .next (after .crc16Verify (withIn [0xFF, 0xFF] State.reset))
      ∧ Succeeded true (after .crc16Verify (withIn [0xFF, 0xFF] State.reset))
      ∧ exec .lrc8Verify (withIn [0x80, 0x80] State.reset) = .next (after .lrc8Verify (withIn [0x80, 0x80] State.reset))
      ∧ Succeeded true (after .lrc8Verify (withIn [0x80, 0x80] State.reset))
      ∧ 1 < (withIn [0xFF, 0xFF] State.reset).inLen.toNat
      ∧ (withIn [0xFF, 0x7F] State.reset).cfg = (withIn [0xFF, 0xFF] State.reset).cfg
      ∧ (withIn [0xFF, 0x7F] State.reset).inLen = (withIn [0xFF, 0xFF] State.reset).inLen
      ∧ (withIn [0xFF, 0x7F] State.reset).input = (withIn [0xFF, 0xFF] State.reset).input.set 1 (0xFF ^^^ BitVec.ofNat 8 (2 ^ 7))
      ∧ (withIn [0x80, 0x00] State.reset).input = (withIn [0x80, 0x80] State.reset).input.set 1 (0x80 ^^^ BitVec.ofNat 8 (2 ^ 7)) := by
  exact ⟨rfl, by unfold Succeeded; decide, rfl, by unfold Succeeded; decide⟩

theorem witness_CrcResidueIsZeroExactlyOnValidFrames :
    2 ≤ (len 2 State.reset).inLen.toNat ∧ (len 2 State.reset).inLen.toNat ≤ (len 2 State.reset).cfg.bufBytes
      ∧ 2 ≤ (len 1024 State.reset).inLen.toNat ∧ (len 1024 State.reset).inLen.toNat ≤ (len 1024 State.reset).cfg.bufBytes := by
  decide

theorem witness_SetRawCopiesInputToPayload :
    (len 1025 State.reset).cfg.bufBytes < (len 1025 State.reset).inLen.toNat
      ∧ (len 0 State.reset).inLen.toNat ≤ (len 0 State.reset).cfg.bufBytes
      ∧ (len 1024 State.reset).inLen.toNat ≤ (len 1024 State.reset).cfg.bufBytes := by decide

theorem witness_SetSpanWritesStartAndCount :
    (args 0x04 1 2).cfg.wf = true ∧ (args 0x04 1 2).fc ∈ (args 0x04 1 2).cfg.spanSetCodes
      ∧ (args 0x05 1 2).fc ∉ (args 0x05 1 2).cfg.spanSetCodes := by decide

theorem witness_SetWsrAndSetWscWriteAddressAndValue :
    (args 0x06 1 2).cfg.wf = true ∧ (args 0x06 1 2).fc = 0x06 ∧ (args 0x05 1 3).fc ≠ 0x06
      ∧ (args 0x05 1 3).fc = 0x05 ∧ (args 0x05 1 3).arg1.toNat % 2 = 1
      ∧ (args 0x05 1 2).arg1.toNat % 2 = 0 ∧ (args 0x06 1 2).fc ≠ 0x05 := by decide

theorem witness_SetMaskAndSetFifoWriteTheirFields :
    (args 0x16 1 2).cfg.wf = true ∧ (args 0x16 1 2).fc = 0x16 ∧ (args 0x18 1 2).fc ≠ 0x16
      ∧ (args 0x18 1 2).fc = 0x18 ∧ (args 0x16 1 2).fc ≠ 0x18 := by decide

/-- The data just fits, and is one byte too long. -/
theorem witness_SetDiagWritesSubFunctionAndData :
    (len 1022 (args 0x08 0 0)).cfg.wf = true ∧ (args 0x09 0 0).fc ≠ 0x08 ∧ (len 1022 (args 0x08 0 0)).fc = 0x08
      ∧ (len 1022 (args 0x08 0 0)).inLen.toNat + 2 ≤ (len 1022 (args 0x08 0 0)).cfg.bufBytes
      ∧ (len 1023 (args 0x08 0 0)).cfg.bufBytes < (len 1023 (args 0x08 0 0)).inLen.toNat + 2 := by decide

/-- IN as a list of n elements of value 0x0101. -/
theorem ones_hostList (n : Nat) (hn : 2 * n < 65536) (s : State) :
    (ones (2 * n) s).input = hostList (List.replicate n 0x0101) := by
  have hl : (ones (2 * n) s).inLen.toNat = 2 * n := by
    show (BitVec.ofNat 16 (2 * n)).toNat = 2 * n
    rw [BitVec.toNat_ofNat]; omega
  have hlook : ∀ m i, i < m → Memory.lookup ((List.range m).map fun i => (i, (1 : Byte))) i = some 1 := by
    intro m i hi
    have aux : ∀ (l : List Nat), i ∈ l → Memory.lookup (l.map fun i => (i, (1 : Byte))) i = some 1 := by
      intro l hl
      induction l with
      | nil => simp at hl
      | cons a l ih =>
        by_cases ha : a = i
        · simp [Memory.lookup, ha]
        · have : i ∈ l := by
            rcases List.mem_cons.mp hl with h | h
            · exact absurd h.symm ha
            · exact h
          simpa [Memory.lookup, ha] using ih this
    exact aux _ (List.mem_range.mpr hi)
  refine eq_of_byteOf_eq (by simp [hl]) fun i hi => ?_
  rw [input_length, hl] at hi
  rw [byteOf_input _ (by omega)]
  have h1 : (ones (2 * n) s).byteAt .inBuf i = 1 := by
    simp only [State.byteAt, State.buffer, ones, hlook _ _ hi]
  have h2 : ∀ k j, j < 2 * k → byteOf (hostList (List.replicate k 0x0101)) j = 1 := by
    intro k
    induction k with
    | zero => intro j hj; omega
    | succ k ih =>
      intro j hj
      rw [List.replicate_succ, hostList_cons]
      match j with
      | 0 => rfl
      | 1 => rfl
      | j + 2 => exact ih j (by omega)
  rw [h1, h2 n i hi]

/-- One list of each outcome: a count of 127 that fits, 128 over the limit, a count that differs, and in 16-byte
buffers five elements that fit and six that do not. -/
theorem witness_SetWmrWritesTheValueList :
    (∀ n a, (ones n (args 0x10 1 a)).cfg.wf = true ∧ (ones n (args 0x10 1 a)).fc = 0x10)
      ∧ (args 0x11 1 2).fc ≠ 0x10
      ∧ (len 1025 (args 0x10 1 2)).cfg.bufBytes < (len 1025 (args 0x10 1 2)).inLen.toNat
      ∧ (len 3 (args 0x10 1 2)).inLen.toNat ≤ (len 3 (args 0x10 1 2)).cfg.bufBytes
      ∧ (len 3 (args 0x10 1 2)).inLen.toNat % 2 = 1
      ∧ (ones 254 (args 0x10 1 127)).input = hostList (List.replicate 127 0x0101)
      ∧ (List.replicate 127 (0x0101 : Half)).length = (low16 (ones 254 (args 0x10 1 127)).arg1).toNat
      ∧ 5 + 2 * 127 ≤ (ones 254 (args 0x10 1 127)).cfg.bufBytes
      ∧ (ones 256 (args 0x10 1 128)).input = hostList (List.replicate 128 0x0101)
      ∧ (List.replicate 128 (0x0101 : Half)).length = (low16 (ones 256 (args 0x10 1 128)).arg1).toNat
      ∧ (List.replicate 127 (0x0101 : Half)).length ≠ (low16 (ones 254 (args 0x10 1 128)).arg1).toNat
      ∧ (small (ones 12 (args 0x10 1 6))).cfg.wf = true
      ∧ (ones 12 (small (args 0x10 1 6))).input = hostList (List.replicate 6 0x0101)
      ∧ (ones 12 (small (args 0x10 1 6))).inLen.toNat ≤ (ones 12 (small (args 0x10 1 6))).cfg.bufBytes
      ∧ (ones 12 (small (args 0x10 1 6))).cfg.bufBytes < 5 + 2 * 6 ∧ 5 + 2 * 5 ≤ (small (args 0x10 1 5)).cfg.bufBytes :=
  ⟨fun _ _ => ⟨rfl, rfl⟩, by decide, by decide, by decide, by decide, ones_hostList 127 (by decide) _,
    by rw [List.length_replicate]; rfl, by decide, ones_hostList 128 (by decide) _, by rw [List.length_replicate]; rfl,
    by rw [List.length_replicate]; decide, rfl, ones_hostList 6 (by decide) _, by decide, by decide, by decide⟩

/-- Reset, with FC 0x17 and ARG3. -/
def rwm (a3 : Word) : State := { State.reset with fc := 0x17, arg3 := a3 }

/-- The same outcomes; in 16-byte buffers three elements fit and four do not. -/
theorem witness_SetRwmWritesBothSpansAndTheValueList :
    (∀ n a, (ones n (rwm a)).cfg.wf = true ∧ (ones n (rwm a)).fc = 0x17)
      ∧ (args 0x10 1 2).fc ≠ 0x17
      ∧ (len 1025 (rwm 1)).cfg.bufBytes < (len 1025 (rwm 1)).inLen.toNat
      ∧ (len 3 (rwm 1)).inLen.toNat ≤ (len 3 (rwm 1)).cfg.bufBytes ∧ (len 3 (rwm 1)).inLen.toNat % 2 = 1
      ∧ (ones 254 (rwm 127)).input = hostList (List.replicate 127 0x0101)
      ∧ (List.replicate 127 (0x0101 : Half)).length = (low16 (rwm 127).arg3).toNat
      ∧ 9 + 2 * 127 ≤ (rwm 127).cfg.bufBytes
      ∧ (ones 256 (rwm 128)).input = hostList (List.replicate 128 0x0101)
      ∧ (List.replicate 128 (0x0101 : Half)).length = (low16 (rwm 128).arg3).toNat
      ∧ (List.replicate 127 (0x0101 : Half)).length ≠ (low16 (rwm 128).arg3).toNat
      ∧ (small (rwm 4)).cfg.wf = true
      ∧ (ones 8 (small (rwm 4))).input = hostList (List.replicate 4 0x0101)
      ∧ (ones 8 (small (rwm 4))).inLen.toNat ≤ (ones 8 (small (rwm 4))).cfg.bufBytes
      ∧ (small (rwm 4)).cfg.bufBytes < 9 + 2 * 4 ∧ 9 + 2 * 3 ≤ (small (rwm 3)).cfg.bufBytes :=
  ⟨fun _ _ => ⟨rfl, rfl⟩, by decide, by decide, by decide, by decide, ones_hostList 127 (by decide) _,
    by rw [List.length_replicate]; rfl, by decide, ones_hostList 128 (by decide) _, by rw [List.length_replicate]; rfl,
    by rw [List.length_replicate]; decide, rfl, ones_hostList 4 (by decide) _, by decide, by decide, by decide⟩

/-- 1024 coils (the longest list in 1024-byte buffers), 16 in the smallest buffers, and 2040 and 2041 in 4096-byte
buffers. -/
theorem witness_SetWmcPacksTheCoils :
    (len 1024 (args 0x0F 1 1024)).cfg.wf = true ∧ (args 0x10 1 2).fc ≠ 0x0F ∧ (args 0x0F 1 2).fc = 0x0F
      ∧ (len 1025 (args 0x0F 1 2)).cfg.bufBytes < (len 1025 (args 0x0F 1 2)).inLen.toNat
      ∧ (len 9 (args 0x0F 1 10)).inLen.toNat ≤ (len 9 (args 0x0F 1 10)).cfg.bufBytes
      ∧ (len 9 (args 0x0F 1 10)).inLen ≠ low16 (len 9 (args 0x0F 1 10)).arg1
      ∧ (len 1024 (args 0x0F 1 1024)).inLen = low16 (len 1024 (args 0x0F 1 1024)).arg1
      ∧ (len 1024 (args 0x0F 1 1024)).inLen.toNat ≤ (len 1024 (args 0x0F 1 1024)).cfg.bufBytes
      ∧ (small (len 16 (args 0x0F 1 16))).cfg.wf = true
      ∧ (small (len 16 (args 0x0F 1 16))).inLen.toNat ≤ (small (len 16 (args 0x0F 1 16))).cfg.bufBytes
      ∧ (small (len 16 (args 0x0F 1 16))).inLen = low16 (small (len 16 (args 0x0F 1 16))).arg1
      ∧ (large (len 2041 (args 0x0F 1 2041))).cfg.wf = true
      ∧ (large (len 2041 (args 0x0F 1 2041))).inLen.toNat ≤ (large (len 2041 (args 0x0F 1 2041))).cfg.bufBytes
      ∧ (large (len 2041 (args 0x0F 1 2041))).inLen = low16 (large (len 2041 (args 0x0F 1 2041))).arg1
      ∧ 2040 < (large (len 2041 (args 0x0F 1 2041))).inLen.toNat
      ∧ (large (len 2040 (args 0x0F 1 2040))).inLen = low16 (large (len 2040 (args 0x0F 1 2040))).arg1
      ∧ (large (len 2040 (args 0x0F 1 2040))).inLen.toNat ≤ 2040
      ∧ (large (len 2040 (args 0x0F 1 2040))).inLen.toNat ≤ (large (len 2040 (args 0x0F 1 2040))).cfg.bufBytes := by
  decide

/-- The staged triples of `ones`. -/
theorem ones_triples (n : Nat) (hn : 6 * n < 65536) (s : State) :
    (ones (6 * n) s).input = (List.replicate n ((0x0101, 0x0101, 0x0101) : Half × Half × Half)).flatMap
      fun r => hostList [r.1, r.2.1, r.2.2] := by
  rw [flatMap_hostList, show 6 * n = 2 * (3 * n) by omega, ones_hostList (3 * n) (by omega)]
  congr 1
  clear hn
  induction n with
  | zero => rfl
  | succ n ih =>
    rw [show 3 * (n + 1) = 3 * n + 1 + 1 + 1 by omega, List.replicate_succ, List.replicate_succ, List.replicate_succ,
      ih, List.replicate_succ]
    rfl

/-- 36 triples, 37 over the limit, and in 16-byte buffers two that fit; three of them do not fit IN. -/
theorem witness_SetRfrWritesTheSubRequests :
    (∀ n, (ones n (args 0x14 0 0)).cfg.wf = true ∧ (ones n (args 0x14 0 0)).fc = 0x14)
      ∧ (args 0x15 0 0).fc ≠ 0x14 ∧ (args 0x14 0 0).inLen = 0
      ∧ (len 1025 (args 0x14 0 0)).cfg.bufBytes < (len 1025 (args 0x14 0 0)).inLen.toNat
      ∧ (len 5 (args 0x14 0 0)).inLen.toNat ≤ (len 5 (args 0x14 0 0)).cfg.bufBytes
      ∧ (len 5 (args 0x14 0 0)).inLen.toNat % 6 ≠ 0
      ∧ (ones 216 (args 0x14 0 0)).input = (List.replicate 36 ((0x0101, 0x0101, 0x0101) : Half × Half × Half)).flatMap
          (fun r => hostList [r.1, r.2.1, r.2.2])
      ∧ 1 + 7 * 36 ≤ (args 0x14 0 0).cfg.bufBytes
      ∧ (ones 222 (args 0x14 0 0)).input = (List.replicate 37 ((0x0101, 0x0101, 0x0101) : Half × Half × Half)).flatMap
          (fun r => hostList [r.1, r.2.1, r.2.2])
      ∧ 36 < (List.replicate 37 ((0x0101, 0x0101, 0x0101) : Half × Half × Half)).length :=
by
  refine ⟨fun _ => ⟨rfl, rfl⟩, by decide, by decide, by decide, by decide, by decide, ones_triples 36 (by decide) _, ?_,
    ones_triples 37 (by decide) _, ?_⟩
  · show 1 + 7 * 36 ≤ 1024
    omega
  · rw [List.length_replicate]
    omega

/-- Buffers of 18 bytes: three triples are staged in 18 bytes and need a payload of 22. -/
theorem witness_SetRfr_overflow :
    Params.wf { defaultParams with bufBytes := 18 } = true ∧ 3 ≤ 36 ∧ 18 < 1 + 7 * 3
      ∧ (ones 18 { args 0x14 0 0 with cfg := { defaultParams with bufBytes := 18 } }).input
        = (List.replicate 3 ((0x0101, 0x0101, 0x0101) : Half × Half × Half)).flatMap
          (fun r => hostList [r.1, r.2.1, r.2.2]) :=
  ⟨rfl, by decide, by decide, ones_triples 3 (by decide) _⟩

/-- A list of an odd number of bytes is no list of records. -/
theorem hostRecords_even (recs : List (Half × Half × List Half)) : (hostRecords recs).length % 2 = 0 := by
  induction recs with
  | nil => rfl
  | cons r rs ih => rw [hostRecords_cons, List.length_append, hostList_length]; omega

/-- No list of records, one record with n = 0, VP27; the limit at n = 125 (VP30); and in 16-byte buffers a record that
does not fit. -/
theorem witness_SetWfrWritesTheRecords :
    (args 0x15 0 0).cfg.wf = true ∧ (args 0x15 0 0).fc = 0x15 ∧ (args 0x14 0 0).fc ≠ 0x15 ∧ (args 0x15 0 0).inLen = 0
      ∧ (len 1025 (args 0x15 0 0)).cfg.bufBytes < (len 1025 (args 0x15 0 0)).inLen.toNat
      ∧ (∀ recs, (withIn [1, 0, 2, 0, 0, 0, 1] (args 0x15 0 0)).input ≠ hostRecords recs)
      ∧ (withIn [1, 0, 2, 0, 0, 0] (args 0x15 0 0)).input = hostRecords [(1, 2, [])]
      ∧ (withIn [4, 0, 7, 0, 3, 0, 0xAF, 6, 4, 0xBE, 0x0D, 0x10] (args 0x15 0 0)).input
        = hostRecords [(4, 7, [0x06AF, 0xBE04, 0x100D])]
      ∧ 255 < (([(1, 2, List.replicate 125 0)] : List (Half × Half × List Half)).map fun r => 7 + 2 * r.2.2.length).sum
      ∧ (([(1, 2, List.replicate 124 0)] : List (Half × Half × List Half)).map fun r => 7 + 2 * r.2.2.length).sum ≤ 255
      ∧ (small (args 0x15 0 0)).cfg.wf = true
      ∧ (small (withIn [1, 0, 2, 0, 5, 0, 1, 0, 1, 0, 1, 0, 1, 0, 1, 0] (args 0x15 0 0))).input
        = hostRecords [(1, 2, [1, 1, 1, 1, 1])]
      ∧ (small (args 0x15 0 0)).cfg.bufBytes
        < 1 + (([(1, 2, [1, 1, 1, 1, 1])] : List (Half × Half × List Half)).map fun r => 7 + 2 * r.2.2.length).sum := by
  refine ⟨by decide, by decide, by decide, by decide, by decide, fun recs h => ?_, by decide, by decide, by simp,
    by simp, by decide, by decide +kernel, by decide⟩
  have h1 := congrArg List.length h
  rw [input_length] at h1
  have h2 := hostRecords_even recs
  rw [← h1] at h2
  exact absurd h2 (by decide)

theorem witness_GetSpanReturnsTheSpanOrNotApplicable :
    (pdu 0 0x17 [0, 1, 0, 2]).fc ∈ (pdu 0 0x17 [0, 1, 0, 2]).cfg.spanCodes ∧ 4 ≤ (pdu 0 0x17 [0, 1, 0, 2]).pduLen.toNat
      ∧ (pdu 0 0x17 [0, 1, 0]).pduLen.toNat < 4
      ∧ (pdu 0 0x18 [0, 1, 0, 2]).fc ∉ (pdu 0 0x18 [0, 1, 0, 2]).cfg.spanCodes := by decide

theorem witness_SetSpanThenGetSpan :
    (args 0x04 1 2).cfg.wf = true ∧ (args 0x04 1 2).fc ∈ (args 0x04 1 2).cfg.spanSetCodes := by decide

/-- Reset, with FC, PDU_LEN and EXC. -/
def enc (fc : Byte) (n : Half) (e : Exc) : State := { State.reset with fc := fc, pduLen := n, exc := e }

theorem witness_RtuEncodersBuildTheFrame :
    (enc 0x03 1020 ⟨false, 0⟩).cfg.wf = true
      ∧ (enc 0x83 0 ⟨false, 0⟩).fc ∉ (enc 0x83 0 ⟨false, 0⟩).cfg.supportedFc
      ∧ (enc 0x18 1020 ⟨true, 5⟩).fc ∈ (enc 0x18 1020 ⟨true, 5⟩).cfg.supportedFc
      ∧ (enc 0x18 1020 ⟨true, 5⟩).pduLen.toNat + 4 ≤ (enc 0x18 1020 ⟨true, 5⟩).cfg.bufBytes
      ∧ (enc 0x18 1021 ⟨true, 5⟩).cfg.bufBytes < (enc 0x18 1021 ⟨true, 5⟩).pduLen.toNat + 4
      ∧ RealException (enc 0x18 1021 ⟨true, 2⟩) ∧ ¬ RealException (enc 0x18 1020 ⟨true, 5⟩)
      ∧ ¬ RealException (enc 0x18 1021 ⟨false, 2⟩) := by
  unfold RealException
  decide

/-- `RtuFrameChecks`, of both RTU decoders. -/
theorem witness_RtuFrameChecks :
    (len 1025 State.reset).cfg.bufBytes < (len 1025 State.reset).inLen.toNat
      ∧ (len 3 State.reset).inLen.toNat ≤ (len 3 State.reset).cfg.bufBytes ∧ (len 3 State.reset).inLen.toNat < 4
      ∧ (withIn [0, 0, 0, 0] State.reset).inLen.toNat ≤ (withIn [0, 0, 0, 0] State.reset).cfg.bufBytes
      ∧ 4 ≤ (withIn [0, 0, 0, 0] State.reset).inLen.toNat
      ∧ ∀ d, (withIn [0, 0, 0, 0] State.reset).input ≠ d ++ crcTail d := by
  refine ⟨by decide, by decide, by decide, by decide, by decide, fun d h => ?_⟩
  have := (crcMatches_iff (l := (withIn [0, 0, 0, 0] State.reset).input) (by decide)).mpr ⟨d, h⟩
  revert this
  decide +kernel

/-- VR18: the shortest frame. -/
theorem witness_RtuDecodeRequestSetsThePdu :
    (withIn [0x01, 0x83, 0x41, 0x81] State.reset).inLen.toNat ≤ State.reset.cfg.bufBytes
      ∧ (withIn [0x01, 0x83, 0x41, 0x81] State.reset).input = [0x01, 0x83] ++ crcTail [0x01, 0x83]
      ∧ 2 ≤ ([0x01, 0x83] : List Byte).length := by decide +kernel

/-- VR22, VR20 and VR21. -/
theorem witness_RtuDecodeResponseSetsThePdu :
    (withIn [0x01, 0x83, 0x41, 0x81] State.reset).input = [0x01, 0x83] ++ crcTail [0x01, 0x83]
      ∧ 128 ≤ (byteOf [0x01, 0x83] 1).toNat ∧ ([0x01, 0x83] : List Byte).length < 3
      ∧ (withIn [0x01, 0x83, 0x02, 0xC0, 0xF1] State.reset).input = [0x01, 0x83, 0x02] ++ crcTail [0x01, 0x83, 0x02]
      ∧ 128 ≤ (byteOf [0x01, 0x83, 0x02] 1).toNat ∧ 3 ≤ ([0x01, 0x83, 0x02] : List Byte).length
      ∧ (withIn [0x01, 0x03, 0x02, 0x00, 0x2A, 0x39, 0x9B] State.reset).input
        = [0x01, 0x03, 0x02, 0x00, 0x2A] ++ crcTail [0x01, 0x03, 0x02, 0x00, 0x2A]
      ∧ (byteOf [0x01, 0x03, 0x02, 0x00, 0x2A] 1).toNat < 128 := by decide +kernel

theorem witness_RtuCompletenessChecks :
    (len 1025 State.reset).cfg.bufBytes < (len 1025 State.reset).inLen.toNat
      ∧ (len 1 State.reset).inLen.toNat ≤ (len 1 State.reset).cfg.bufBytes ∧ (len 1 State.reset).inLen.toNat < 2
      ∧ (len 2 State.reset).inLen.toNat ≤ (len 2 State.reset).cfg.bufBytes ∧ 2 ≤ (len 2 State.reset).inLen.toNat
      ∧ ((withIn [0x01, 0x03] State.reset).byteAt .inBuf 1).toNat < 128
      ∧ (withIn [0x01, 0x03] State.reset).byteAt .inBuf 1 ∈ (withIn [0x01, 0x03] State.reset).cfg.bcCodes
      ∧ (withIn [0x01, 0x03] State.reset).inLen.toNat < 3
      ∧ 3 ≤ (withIn [0x01, 0x03, 0x00] State.reset).inLen.toNat
      ∧ 128 ≤ ((withIn [0x01, 0x80] State.reset).byteAt .inBuf 1).toNat
      ∧ (withIn [0x01, 0x06] State.reset).byteAt .inBuf 1 ∈ (withIn [0x01, 0x06] State.reset).cfg.wsCodes
      ∧ (withIn [0x01, 0x06] State.reset).byteAt .inBuf 1 ∉ (withIn [0x01, 0x06] State.reset).cfg.bcCodes := by decide

theorem witness_RtuRequestRoundTrip :
    (pdu 1 0x03 [0, 0, 0, 10]).cfg.wf = true ∧ (pdu 1 0x03 [0, 0, 0, 10]).fc ∈ (pdu 1 0x03 [0, 0, 0, 10]).cfg.supportedFc
      ∧ (pdu 1 0x03 [0, 0, 0, 10]).pduLen.toNat + 4 ≤ (pdu 1 0x03 [0, 0, 0, 10]).cfg.bufBytes
      ∧ CopiedBack (after .rtuEncReq (pdu 1 0x03 [0, 0, 0, 10])) (copyBack (after .rtuEncReq (pdu 1 0x03 [0, 0, 0, 10]))) :=
  ⟨by decide, by decide, by decide, copiedBack_copyBack (by decide +kernel)⟩

/-- A real exception and a normal response. -/
theorem witness_RtuResponseRoundTrip :
    RealException (enc 0x03 0 ⟨true, 2⟩) ∧ ¬ RealException (enc 0x03 0 ⟨true, 5⟩)
      ∧ (enc 0x03 0 ⟨true, 2⟩).cfg.wf = true ∧ (enc 0x03 0 ⟨true, 2⟩).fc ∈ (enc 0x03 0 ⟨true, 2⟩).cfg.supportedFc
      ∧ (enc 0x03 0 ⟨true, 5⟩).pduLen.toNat + 4 ≤ (enc 0x03 0 ⟨true, 5⟩).cfg.bufBytes
      ∧ CopiedBack (after .rtuEncRsp (enc 0x03 0 ⟨true, 2⟩)) (copyBack (after .rtuEncRsp (enc 0x03 0 ⟨true, 2⟩)))
      ∧ CopiedBack (after .rtuEncRsp (enc 0x03 0 ⟨true, 5⟩)) (copyBack (after .rtuEncRsp (enc 0x03 0 ⟨true, 5⟩))) := by
  refine ⟨by unfold RealException; decide, by unfold RealException; decide, by decide, by decide, by decide,
    copiedBack_copyBack (by decide +kernel), copiedBack_copyBack (by decide +kernel)⟩

theorem witness_AsciiEncodersBuildTheFrame :
    (enc 0x18 507 ⟨true, 5⟩).cfg.wf = true
      ∧ (enc 0x83 0 ⟨false, 0⟩).fc ∉ (enc 0x83 0 ⟨false, 0⟩).cfg.supportedFc
      ∧ (enc 0x18 507 ⟨true, 5⟩).fc ∈ (enc 0x18 507 ⟨true, 5⟩).cfg.supportedFc
      ∧ 2 * (enc 0x18 507 ⟨true, 5⟩).pduLen.toNat + 9 ≤ (enc 0x18 507 ⟨true, 5⟩).cfg.bufBytes
      ∧ (enc 0x18 508 ⟨true, 5⟩).cfg.bufBytes < 2 * (enc 0x18 508 ⟨true, 5⟩).pduLen.toNat + 9
      ∧ RealException (enc 0x18 508 ⟨true, 2⟩) ∧ ¬ RealException (enc 0x18 507 ⟨true, 5⟩) := by
  unfold RealException
  decide

/-- `AsciiFrameChecks`, of both ASCII decoders: the texts of VA15 to VA21 in front of CR LF. -/
theorem witness_AsciiFrameChecks :
    (len 1025 State.reset).cfg.bufBytes < (len 1025 State.reset).inLen.toNat
      ∧ State.reset.input.head? ≠ some 0x3A
      ∧ (withIn [0x3A, 0x30] State.reset).input = 0x3A :: [0x30] ∧ (0x0D : Byte) ∉ ([0x30] : List Byte)
      ∧ (withIn [0x3A, 0x0D, 0x58] State.reset).input = 0x3A :: [] ++ 0x0D :: [0x58]
      ∧ ([0x58] : List Byte).head? ≠ some 0x0A
      ∧ (withIn [0x3A, 0x30, 0x0D, 0x0A] State.reset).input = 0x3A :: [0x30] ++ 0x0D :: [0x0A]
      ∧ ([0x30] : List Byte).length % 2 = 1
      ∧ (withIn [0x3A, 0x30, 0x47, 0x0D, 0x0A] State.reset).input = 0x3A :: [0x30, 0x47] ++ 0x0D :: [0x0A]
      ∧ (∃ c ∈ ([0x30, 0x47] : List Byte), NoDigit c)
      ∧ (withIn [0x3A, 0x0D, 0x0A] State.reset).input = 0x3A :: [] ++ 0x0D :: [0x0A] ∧ Spells [] []
      ∧ (withIn [0x3A, 0x30, 0x31, 0x0D, 0x0A] State.reset).input = 0x3A :: [0x30, 0x31] ++ 0x0D :: [0x0A]
      ∧ Spells [0x30, 0x31] [0x01] ∧ byteSum [0x01] % 256 ≠ 0
      ∧ (withIn [0x3A, 0x30, 0x31, 0x66, 0x46, 0x0D, 0x0A] State.reset).input
        = 0x3A :: [0x30, 0x31, 0x66, 0x46] ++ 0x0D :: [0x0A]
      ∧ Spells [0x30, 0x31, 0x66, 0x46] [0x01, 0xFF] ∧ byteSum [0x01, 0xFF] % 256 = 0
      ∧ ([0x01, 0xFF] : List Byte).length < 3 := by
  refine ⟨by decide, by decide, by decide, by decide, by decide, by decide, by decide, by decide, by decide,
    ⟨0x47, by decide, by unfold NoDigit; decide⟩, by decide, ⟨rfl, fun k hk => absurd hk (Nat.not_lt_zero k)⟩, by decide,
    by unfold Spells DigitOf; decide, by decide, by decide, by unfold Spells DigitOf; decide, by decide, by decide⟩

/-- ":000000" CR LF, the shortest frame, and a byte after it. -/
theorem witness_AsciiDecodeRequestSetsThePdu :
    (withIn [0x3A, 0x30, 0x30, 0x30, 0x30, 0x30, 0x30, 0x0D, 0x0A, 0x58] State.reset).inLen.toNat
        ≤ State.reset.cfg.bufBytes
      ∧ Spells [0x30, 0x30, 0x30, 0x30, 0x30, 0x30] ([0x00, 0x00] ++ [lrcRef [0x00, 0x00]])
      ∧ (withIn [0x3A, 0x30, 0x30, 0x30, 0x30, 0x30, 0x30, 0x0D, 0x0A, 0x58] State.reset).input
        = 0x3A :: [0x30, 0x30, 0x30, 0x30, 0x30, 0x30] ++ 0x0D :: 0x0A :: [0x58]
      ∧ 2 ≤ ([0x00, 0x00] : List Byte).length := by
  unfold Spells DigitOf
  decide

/-- VA23, VA24 and a normal response. -/
theorem witness_AsciiDecodeResponseSetsThePdu :
    Spells [0x30, 0x31, 0x38, 0x33, 0x37, 0x43] ([0x01, 0x83] ++ [lrcRef [0x01, 0x83]])
      ∧ (withIn [0x3A, 0x30, 0x31, 0x38, 0x33, 0x37, 0x43, 0x0D, 0x0A] State.reset).input
        = 0x3A :: [0x30, 0x31, 0x38, 0x33, 0x37, 0x43] ++ 0x0D :: 0x0A :: []
      ∧ 128 ≤ (byteOf [0x01, 0x83] 1).toNat ∧ ([0x01, 0x83] : List Byte).length < 3
      ∧ Spells [0x31, 0x31, 0x38, 0x33, 0x30, 0x32, 0x36, 0x41] ([0x11, 0x83, 0x02] ++ [lrcRef [0x11, 0x83, 0x02]])
      ∧ (withIn frameVA7 State.reset).input = 0x3A :: [0x31, 0x31, 0x38, 0x33, 0x30, 0x32, 0x36, 0x41] ++ 0x0D :: 0x0A :: []
      ∧ 128 ≤ (byteOf [0x11, 0x83, 0x02] 1).toNat ∧ 3 ≤ ([0x11, 0x83, 0x02] : List Byte).length
      ∧ Spells [0x30, 0x30, 0x30, 0x30, 0x30, 0x30] ([0x00, 0x00] ++ [lrcRef [0x00, 0x00]])
      ∧ (byteOf [0x00, 0x00] 1).toNat < 128 := by
  unfold Spells DigitOf
  decide

/-- VA32, VA33 and VA34. -/
theorem witness_AsciiCheckFindsTheFirstFrame :
    (len 1025 State.reset).cfg.bufBytes < (len 1025 State.reset).inLen.toNat
      ∧ (0x3A : Byte) ∉ State.reset.input ∧ (0x3A : Byte) ∉ ([0x30] : List Byte)
      ∧ (withIn [0x30, 0x3A, 0x0D] State.reset).input = [0x30] ++ 0x3A :: [0x0D]
      ∧ ¬ [0x0D, 0x0A] <:+: ([0x0D] : List Byte)
      ∧ (withIn [0x3A, 0x0D, 0x58, 0x0D, 0x0A] State.reset).input = [] ++ 0x3A :: [0x0D, 0x58] ++ 0x0D :: 0x0A :: []
      ∧ ¬ [0x0D, 0x0A] <:+: ([0x0D, 0x58] : List Byte) := by decide

theorem witness_AsciiRoundTrip :
    (pdu 1 0x11 []).cfg.wf = true ∧ (pdu 1 0x11 []).fc ∈ (pdu 1 0x11 []).cfg.supportedFc
      ∧ 2 * (pdu 1 0x11 []).pduLen.toNat + 9 ≤ (pdu 1 0x11 []).cfg.bufBytes
      ∧ CopiedBack (after .ascEncReq (pdu 1 0x11 [])) (copyBack (after .ascEncReq (pdu 1 0x11 [])))
      ∧ RealException (enc 0x11 508 ⟨true, 2⟩)
      ∧ CopiedBack (after .ascEncRsp (enc 0x11 508 ⟨true, 2⟩)) (copyBack (after .ascEncRsp (enc 0x11 508 ⟨true, 2⟩))) :=
  ⟨by decide, by decide, by decide, copiedBack_copyBack (by decide), by unfold RealException; decide,
    copiedBack_copyBack (by decide)⟩

/-- ":0111EE" CR LF with its first character changed, and with its LRC replaced by that of another byte. -/
theorem witness_CorruptedAsciiFrameFailsWithLrc :
    (pdu 1 0x11 []).cfg.wf = true ∧ exec .ascEncReq (pdu 1 0x11 []) = .next (after .ascEncReq (pdu 1 0x11 []))
      ∧ Succeeded true (after .ascEncReq (pdu 1 0x11 []))
      ∧ (after .ascEncReq (pdu 1 0x11 [])).outLen.toNat = 9
      ∧ DigitOf (byteOf (after .ascEncReq (pdu 1 0x11 [])).output 1) 0 ∧ DigitOf 0x61 10
      ∧ (withIn [0x3A, 0x61, 0x31, 0x31, 0x31, 0x45, 0x45, 0x0D, 0x0A] State.reset).input
        = (after .ascEncReq (pdu 1 0x11 [])).output.set 1 0x61
      ∧ (withIn [0x3A, 0x61, 0x31, 0x31, 0x31, 0x45, 0x45, 0x0D, 0x0A] State.reset).inLen
        = (after .ascEncReq (pdu 1 0x11 [])).outLen
      ∧ DigitOf (byteOf (after .ascEncReq (pdu 1 0x11 [])).output 5) 14
      ∧ DigitOf (byteOf (after .ascEncReq (pdu 1 0x11 [])).output 6) 14 ∧ DigitOf 0x45 14 ∧ DigitOf 0x46 15
      ∧ (withIn [0x3A, 0x30, 0x31, 0x31, 0x31, 0x45, 0x46, 0x0D, 0x0A] State.reset).input
        = (after .ascEncReq (pdu 1 0x11 [])).output.take 5 ++ [0x45, 0x46, 0x0D, 0x0A] := by
  exact ⟨by decide, rfl, by unfold Succeeded DigitOf; decide⟩

theorem witness_CommandWriteIsAcceptedOnlyInIdle :
    (idleWith (.write 0x004 4 0xFFFFFFFF)).inputs = .write 0x004 4 0xFFFFFFFF :: []
      ∧ (idleWith (.write 0x004 4 0xFFFFFFFF)).engine = .idle
      ∧ ({ idleWith (.write 0x004 4 0x10) with engine := .faulted .contract } : State).engine = .faulted .contract
      ∧ (pendingWith (.write 0x004 4 0x10)).inputs = [.write 0x004 4 0x10]
      ∧ (pendingWith (.write 0x004 4 0x10)).engine = .pending 0x10 := by
  decide

/-- The first and the last admitted offsets. -/
theorem witness_HazardAccessFaultsThePendingCommand :
    (pendingWith (.read 0x008 4)).engine = .pending 0x10 ∧ Admitted 0x008 4 ∧ Admitted 0x000 4 ∧ Admitted 0xFFC 4
      ∧ Admitted 0x1000 1 ∧ Admitted 0x3FFF 1
      ∧ ¬ ((0x000 : Nat) = 0x000 ∧ 2 ^ 31 ≤ (0x7FFFFFFF : Word).toNat)
      ∧ ¬ ((0x004 : Nat) = 0x000 ∧ 2 ^ 31 ≤ (0xFFFFFFFF : Word).toNat) := by
  unfold Admitted
  decide

theorem witness_ResetFromEveryEngineState :
    (pendingWith (.write 0x000 4 0x80000003)).inputs = .write 0x000 4 0x80000003 :: []
      ∧ 2 ^ 31 ≤ (0x80000003 : Word).toNat ∧ (pendingWith .hardwareReset).inputs = .hardwareReset :: [] := by decide

/-- A step that keeps the fault, and each of the two that leave it. -/
theorem witness_FaultIsStickyUntilReset :
    see State.engine (step { idleWith (.write 0x010 4 3) with engine := .faulted .hazard }) = some (.faulted .hazard)
      ∧ see State.engine (step { idleWith (.write 0x000 4 0x80000000) with engine := .faulted .hazard }) = some .idle
      ∧ see State.engine (step { idleWith .hardwareReset with engine := .faulted .contract }) = some .idle := by decide

/-- IDLE left by a CMD write; PENDING after the engine's step, a STATUS poll, a hazard and a reset. -/
theorem witness_EngineStateMovesAsSpecified :
    see State.engine (step (idleWith (.write 0x004 4 0x10))) = some (.pending 0x10)
      ∧ see State.engine (step (pendingWith .engineTurn)) = some .idle
      ∧ see State.engine (step (pendingWith (.read 0x008 4))) = some (.pending 0x10)
      ∧ see State.engine (step (pendingWith (.read 0x028 4))) = some (.faulted .hazard)
      ∧ see State.engine (step (pendingWith .hardwareReset)) = some .idle := by decide

/-- The outcome of a failed command kept by an accepted CMD write, and overwritten by the next completion. -/
theorem witness_OutcomeIsKeptUntilTheNextCommandEnds :
    see State.err (step { idleWith (.write 0x004 4 0x10) with err := .crc }) = some .crc
      ∧ see State.err (step { pendingWith .engineTurn with err := .crc }) = some .none := by decide

/-- IDLE and FAULTED, and the ends of the buffers. -/
theorem witness_HostWritesTakeEffect :
    State.reset.notPending ∧ State.notPending { State.reset with engine := .faulted .hazard }
      ∧ (0x7FFFFFFF : Word).toNat < 2 ^ 31 ∧ 1023 < State.reset.cfg.bufBytes ∧ 1023 < 4096
      ∧ 4095 < (large State.reset).cfg.bufBytes := by
  refine ⟨?_, ?_, by decide, by decide, by decide, by decide⟩ <;> intro c h <;> cases h

theorem witness_HostReadsReturnTheState :
    State.reset.notPending ∧ State.notPending { State.reset with engine := .faulted .contract }
      ∧ 1023 < State.reset.cfg.bufBytes ∧ 4095 < (large State.reset).cfg.bufBytes := by
  refine ⟨?_, ?_, by decide, by decide⟩ <;> intro c h <;> cases h

theorem witness_StatusWordHasItsFields :
    ({ State.reset with engine := .faulted .contract } : State).engine = .faulted .contract
      ∧ ({ State.reset with engine := .faulted .hazard } : State).engine = .faulted .hazard
      ∧ ∀ c, State.reset.engine ≠ .faulted c := by
  refine ⟨rfl, rfl, ?_⟩
  intro c h
  cases h

/-- The ends of the reserved ranges, and a location of each of the two clauses. -/
theorem witness_ReservedAndReadOnlyLocationsIgnoreWrites :
    State.reset.notPending ∧ Admitted 0x044 4 ∧ Admitted 0xFFC 4 ∧ Admitted 0x1400 1 ∧ Admitted 0x3FFF 1
      ∧ State.reset.cfg.bufBytes ≤ 0x1400 % 0x1000 ∧ State.reset.cfg.bufBytes ≤ 0x3FFF % 0x1000
      ∧ Admitted 0x008 4 ∧ Admitted 0x040 4 ∧ Admitted 0x2000 1 ∧ Admitted 0x004 4 := by
  refine ⟨?_, by unfold Admitted; decide, by unfold Admitted; decide, by unfold Admitted; decide,
    by unfold Admitted; decide, by decide, by decide, by unfold Admitted; decide, by unfold Admitted; decide,
    by unfold Admitted; decide, by unfold Admitted; decide⟩
  intro c h
  cases h

theorem witness_OnlyAdmittedAccessesHaveAStep :
    Admitted 0x3FFF 1 ∧ 0x3FFF < 0x4000 ∧ ¬ Admitted 0x3FFF 4 ∧ ¬ Admitted 0x000 1 ∧ ¬ Admitted 0x002 4
      ∧ ¬ Admitted 0x1000 4 := by
  unfold Admitted
  decide

theorem witness_PolledCommandCompletes :
    decode 0x10 = .ok .crc16Calc
      ∧ ({ pendingWith .engineTurn with inputs := List.replicate 3 (.read 0x008 4) } : State).engine = .pending 0x10
      ∧ ({ pendingWith .engineTurn with inputs := [] } : State).inputs = List.replicate 0 (.read 0x008 4) := by decide

/-- Two states that differ in a byte of IN_BUF above IN_LEN, in OUT inside OUT_LEN, and in the draw; and an encoder
that succeeds from the first. -/
theorem witness_NoCommandReadsBytesOutsideTheLengths :
    State.reset.cfg.wf = true
      ∧ AgreeWithinLengths State.reset { State.reset with inBuf := [(5, 7)], outBuf := [(0, 9)], outLen := 1, draws := 3 }
      ∧ State.reset.outLen ≠ 1 ∧ Instr.encU16 ∈ outputWriters ∧ Succeeded true (after .encU16 State.reset)
      ∧ exec .encU16 State.reset = .next (after .encU16 State.reset) := by
  refine ⟨by decide, ⟨rfl, rfl, rfl⟩, by decide, by decide, by unfold Succeeded; decide, rfl⟩

/-- A state with a span payload and a pending command meets the invariant, and has a step. -/
theorem witness_EveryStepKeepsTheInvariant :
    State.Inv { pdu 1 0x03 [0, 0, 0, 10] with engine := .pending 0x30, fkind := .span, fb := 10 }
      ∧ see State.engine (step { pdu 1 0x03 [0, 0, 0, 10] with engine := .pending 0x30, fkind := .span, fb := 10 })
        = some .idle := by
  refine ⟨⟨by decide, by decide, by decide, by decide, by decide, by decide, by decide, by decide, ?_, ?_, ?_, ?_, ?_⟩,
    by decide +kernel⟩ <;> decide

end Sys2Proof.Tests
end

section
/-! The reset (10_state.md R46, R181) and the locations that ignore writes (10_state.md R43): what a host access does
while no command is pending, what the window addresses, and the obligations O1, O48 and O55. -/

namespace Sys2Proof.Machine

/-! ### Reset -/

/-- Only the buffer bytes depend on how many resets there have been, so the other values are those of `applyReset`. -/
theorem resetWith_hasResetValues (p : Params) : (State.resetWith p).HasResetValues :=
  { applyReset_hasResetValues (State.resetWith p) with bytes := fun b _ => by cases b <;> rfl }

theorem getLsbD_31_of_le {v : Word} (h : 2 ^ 31 ≤ v.toNat) : v.getLsbD 31 = true := by
  rw [← BitVec.msb_eq_getLsbD_last v, BitVec.msb_eq_decide]
  simpa using h

/-- 70_reset_and_hazards.md R181: SRST resets in every engine state, PENDING included. -/
theorem writeAccess_ctrl_of_srst {v : Word} (hv : v.getLsbD 31 = true) (s : State) :
    writeAccess (.register .ctrl) v s = applyReset s := by
  unfold writeAccess
  split
  · exact if_pos ⟨rfl, hv⟩
  · exact if_pos hv
  · exact if_pos hv

theorem step_hardwareReset {s : State} {rest : List HostEvent} (hi : s.inputs = .hardwareReset :: rest) :
    step s = .next (applyReset { s with inputs := rest }) := by
  simp [step, hi, handleEvent]

theorem step_softReset {s : State} {v : Word} {rest : List HostEvent} (hi : s.inputs = .write 0x000 4 v :: rest)
    (hv : 2 ^ 31 ≤ v.toNat) : step s = .next (applyReset { s with inputs := rest }) := by
  have hl : locate s.cfg 0x000 4 = .admitted (.register .ctrl) := locate_of_mem (by decide) s.cfg
  rw [step_write hi hl, writeAccess_ctrl_of_srst (getLsbD_31_of_le hv)]

/-! ### Host accesses while no command is pending -/

theorem readAccess_of_notPending {s : State} (hs : s.notPending) (g : Target) :
    readAccess g s = answerRead (s.readTarget g) s := by
  unfold readAccess
  split
  · next c hc => exact absurd hc (hs c)
  · rfl
  · rfl

theorem writeAccess_of_notPending {s : State} (hs : s.notPending) (g : Target) (v : Word) :
    writeAccess g v s = writeTarget g v s := by
  unfold writeAccess
  split
  · next c hc => exact absurd hc (hs c)
  · rfl
  · rfl

section NotPending

variable {s : State} {offset bytes : Nat} {g : Target} (hs : s.notPending)
  (hl : locate s.cfg offset bytes = .admitted g) (rest : List HostEvent)

include hs hl

theorem step_read_of_notPending :
    step { s with inputs := .read offset bytes :: rest }
      = .next (answerRead ({ s with inputs := rest }.readTarget g) { s with inputs := rest }) :=
  readAccess_of_notPending (s := { s with inputs := rest }) hs g ▸ step_read rfl hl

theorem step_write_of_notPending (v : Word) :
    step { s with inputs := .write offset bytes v :: rest } = .next (writeTarget g v { s with inputs := rest }) :=
  writeAccess_of_notPending (s := { s with inputs := rest }) hs g v ▸ step_write rfl hl

end NotPending

/-! ### What the window addresses -/

/-- The last row of the register map is FB at 0x040 (10_state.md R17). -/
theorem registerAt_eq_none {offset : Nat} (h : 0x044 ≤ offset) : registerAt offset registerMap = none := by
  have hmap : ∀ c ∈ registerMap, c.1 < 0x044 := by decide
  cases hr : registerAt offset registerMap with
  | none => rfl
  | some r => exact absurd (hmap _ (registerAt_mem hr)) (Nat.not_lt.mpr h)

theorem locate_reservedRegister {offset : Nat} (hlo : 0x044 ≤ offset) (hhi : offset < 0x1000)
    (hal : offset % 4 = 0) (p : Params) : locate p offset 4 = .admitted .reserved := by
  rw [locate, if_pos hhi, if_pos ⟨rfl, hal⟩, registerAt_eq_none hlo]

/-- A byte access above the registers addresses a byte of a buffer, and that buffer is IN_BUF exactly in the first
window (20_memory.md R50, R52). -/
theorem locate_bufferWindow {offset : Nat} (hlo : 0x1000 ≤ offset) (hhi : offset < 0x4000) (p : Params) :
    ∃ b, (b = .inBuf ↔ offset < 0x2000) ∧ locate p offset 1 = .admitted (bufferTarget p b (offset % 0x1000)) := by
  rw [locate, if_neg (Nat.not_lt.mpr hlo), if_pos hhi, if_pos rfl]
  split
  · next h => exact ⟨.inBuf, by simp [h], by rw [show offset % 0x1000 = offset - 0x1000 by omega]⟩
  · next h =>
    split
    · exact ⟨.outBuf, by simp [h], by rw [show offset % 0x1000 = offset - 0x2000 by omega]⟩
    · exact ⟨.pduBuf, by simp [h], by rw [show offset % 0x1000 = offset - 0x3000 by omega]⟩

theorem bufferTarget_of_le {p : Params} {i : Nat} (h : p.bufBytes ≤ i) (b : BufferId) :
    bufferTarget p b i = .reserved := if_neg (Nat.not_lt.mpr h)

/-- 10_state.md R43: a reserved register offset, or a byte of a buffer window at or above BUF_BYTES. -/
theorem locate_reserved {p : Params} {offset bytes : Nat} (ha : Admitted offset bytes)
    (hr : (0x044 ≤ offset ∧ offset < 0x1000) ∨ (0x1000 ≤ offset ∧ p.bufBytes ≤ offset % 0x1000)) :
    locate p offset bytes = .admitted .reserved := by
  rcases ha with ⟨hreg, rfl, hal⟩ | ⟨hlo, hhi, rfl⟩
  · exact locate_reservedRegister (by omega) hreg hal p
  · obtain ⟨b, -, hl⟩ := locate_bufferWindow hlo hhi p
    rw [hl, bufferTarget_of_le (by omega)]

/-! ### Locations that ignore writes -/

/-- 10_state.md R40, R43: of the buffers the host writes only IN_BUF. -/
theorem writeTarget_bufferTarget_of_ne_inBuf {b : BufferId} (hb : b ≠ .inBuf) (p : Params) (i : Nat) (v : Word)
    (s : State) : writeTarget (bufferTarget p b i) v s = s := by
  unfold bufferTarget
  split
  · cases b with
    | inBuf => exact absurd rfl hb
    | outBuf => rfl
    | pduBuf => rfl
  · rfl

/-- The registers at the read-only offsets (10_state.md R17, R43). -/
theorem exists_readOnlyRegister {offset : Nat} (h : offset ∈ [0x008, 0x028, 0x030, 0x034, 0x038, 0x03C, 0x040]) :
    ∃ r, (offset, r) ∈ registerMap ∧ ∀ v s, writeRegister r v s = s := by
  simp only [List.mem_cons, List.not_mem_nil, or_false] at h
  rcases h with rfl | rfl | rfl | rfl | rfl | rfl | rfl
  · exact ⟨.status, by decide, fun _ _ => rfl⟩
  · exact ⟨.result, by decide, fun _ _ => rfl⟩
  · exact ⟨.outLen, by decide, fun _ _ => rfl⟩
  · exact ⟨.pduLen, by decide, fun _ _ => rfl⟩
  · exact ⟨.field, by decide, fun _ _ => rfl⟩
  · exact ⟨.fa, by decide, fun _ _ => rfl⟩
  · exact ⟨.fb, by decide, fun _ _ => rfl⟩

theorem Admitted.bytes_eq_four {offset bytes : Nat} (ha : Admitted offset bytes) (h : offset < 0x1000) : bytes = 4 := by
  rcases ha with ⟨-, hb, -⟩ | ⟨hlo, -, -⟩
  · exact hb
  · omega

/-- What an admitted access at a read-only location addresses ignores writes. -/
theorem locate_readOnly {offset bytes : Nat} (ha : Admitted offset bytes)
    (hr : offset ∈ [0x008, 0x028, 0x030, 0x034, 0x038, 0x03C, 0x040] ∨ 0x2000 ≤ offset) (p : Params) :
    ∃ g, locate p offset bytes = .admitted g ∧ ∀ v s, writeTarget g v s = s := by
  rcases hr with hmem | hlo
  · obtain ⟨r, hr, hw⟩ := exists_readOnlyRegister hmem
    have hmap : ∀ c ∈ registerMap, c.1 < 0x1000 := by decide
    obtain rfl := ha.bytes_eq_four (hmap _ hr)
    exact ⟨.register r, locate_of_mem hr p, hw⟩
  · rcases ha with ⟨hreg, -, -⟩ | ⟨hlo', hhi, rfl⟩
    · omega
    · obtain ⟨b, hb, hl⟩ := locate_bufferWindow hlo' hhi p
      have hne : b ≠ .inBuf := fun h => absurd (hb.mp h) (Nat.not_lt.mpr hlo)
      exact ⟨_, hl, writeTarget_bufferTarget_of_ne_inBuf hne p _⟩

/-! ### The obligations -/

/-- Settles O48: SRST and the reset input are each one `applyReset`, whatever the engine state. -/
theorem resetFromEveryEngineState : Obligations.ResetFromEveryEngineState := by
  intro s v rest h
  have hstep : step s = .next (applyReset { s with inputs := rest }) := by
    rcases h with ⟨hi, hv⟩ | hi
    · exact step_softReset hi hv
    · exact step_hardwareReset hi
  exact ⟨_, hstep, applyReset_hasResetValues _, rfl, rfl, rfl, rfl⟩

/-- Settles O55: each location of 10_state.md R43 is a target that answers 0, or that ignores its writes. -/
theorem reservedAndReadOnlyLocationsIgnoreWrites : Obligations.ReservedAndReadOnlyLocationsIgnoreWrites := by
  intro s offset bytes v rest hs ha
  refine ⟨fun hr => ?_, fun hr => ?_, fun hcmd => ?_⟩
  · have hl := locate_reserved ha hr
    exact ⟨step_read_of_notPending hs hl rest, step_write_of_notPending hs hl rest v⟩
  · obtain ⟨g, hl, hw⟩ := locate_readOnly ha hr s.cfg
    rw [step_write_of_notPending hs hl, hw]
  · subst hcmd
    obtain rfl := ha.bytes_eq_four (by decide)
    exact step_read_of_notPending hs (g := .register .cmd) (locate_of_mem (by decide) s.cfg) rest

/-- Settles O1: the reset state is the state `resetWith` gives under the parameters of 00_scope.md R6. -/
theorem resetHasSpecifiedValues : Obligations.ResetHasSpecifiedValues :=
  resetWith_hasResetValues defaultParams

end Sys2Proof.Machine
end

section
/-! The forms of access the interface admits (20_memory.md R51, R52): every other access in the window is refused, and
a refused access has no step; the obligation O56. -/

namespace Sys2Proof.Machine

/-! ### Refused accesses -/

/-- 20_memory.md R51: the register area admits only aligned 32-bit accesses. -/
theorem locate_registerAccessForm {offset bytes : Nat} (hreg : offset < 0x1000)
    (hform : ¬ (bytes = 4 ∧ offset % 4 = 0)) (p : Params) :
    locate p offset bytes = .refused (.registerAccessForm offset bytes) := by
  rw [locate, if_pos hreg, if_neg hform]

/-- 20_memory.md R52: the buffer windows admit only 8-bit accesses. -/
theorem locate_bufferAccessForm {offset bytes : Nat} (hlo : 0x1000 ≤ offset) (hhi : offset < 0x4000)
    (hform : bytes ≠ 1) (p : Params) :
    locate p offset bytes = .refused (.bufferAccessForm offset bytes) := by
  rw [locate, if_neg (Nat.not_lt.mpr hlo), if_pos hhi, if_neg hform]

theorem locate_of_not_admitted {offset bytes : Nat} (hwin : offset < 0x4000) (ha : ¬ Admitted offset bytes)
    (p : Params) : ∃ r, locate p offset bytes = .refused r := by
  obtain ⟨hregForm, hbufForm⟩ := not_or.mp ha
  rcases Nat.lt_or_ge offset 0x1000 with hreg | hlo
  · exact ⟨_, locate_registerAccessForm hreg (fun hform => hregForm ⟨hreg, hform⟩) p⟩
  · exact ⟨_, locate_bufferAccessForm hlo hwin (fun hform => hbufForm ⟨hlo, hwin, hform⟩) p⟩

section Refused

variable {s : State} {offset bytes : Nat} {rest : List HostEvent} {r : Refusal}

theorem hostAccess_of_refused (hl : locate s.cfg offset bytes = .refused r) (f : Target → State → State) :
    hostAccess offset bytes f s = .refused r := by
  rw [hostAccess, hl]

theorem step_read_of_refused (hi : s.inputs = .read offset bytes :: rest)
    (hl : locate s.cfg offset bytes = .refused r) : step s = .refused r := by
  rw [step, hi]
  exact hostAccess_of_refused (s := { s with inputs := rest }) hl readAccess

theorem step_write_of_refused {v : Word} (hi : s.inputs = .write offset bytes v :: rest)
    (hl : locate s.cfg offset bytes = .refused r) : step s = .refused r := by
  rw [step, hi]
  exact hostAccess_of_refused (s := { s with inputs := rest }) hl fun t => writeAccess t v

end Refused

/-! ### The obligation -/

/-- Settles O56: `locate` admits exactly the admitted accesses, and the step of an access, read or write, follows
`locate` in every engine state. -/
theorem onlyAdmittedAccessesHaveAStep : Obligations.OnlyAdmittedAccessesHaveAStep := by
  intro s offset bytes v rest hwin
  refine ⟨fun ha => ?_, fun ha => ?_⟩
  · obtain ⟨g, hl⟩ := admitted_locate (p := s.cfg) ha
    exact ⟨⟨_, step_read rfl hl⟩, ⟨_, step_write rfl hl⟩⟩
  · obtain ⟨r, hl⟩ := locate_of_not_admitted hwin ha s.cfg
    exact ⟨⟨r, step_read_of_refused rfl hl⟩, ⟨r, step_write_of_refused rfl hl⟩⟩

end Sys2Proof.Machine
end

section
/-! The command word (30_encoding.md R70-R75): when a CMD write is accepted, which words decode, and what the engine's
step does with a word that does not; the obligations O3 and O46. -/

namespace Sys2Proof

/-! ### Words that decode -/

theorem decodeOpcode_mem {opc : Byte} {i : Instr} {rows : List (Byte × Instr)} (h : decodeOpcode opc rows = some i) :
    (opc, i) ∈ rows := by
  induction rows with
  | nil => simp [decodeOpcode] at h
  | cons row rows ih =>
    obtain ⟨o, j⟩ := row
    rw [decodeOpcode] at h
    split at h
    · next ho =>
      obtain rfl := Option.some.inj h
      exact ho ▸ List.mem_cons_self
    · exact List.mem_cons_of_mem _ (ih h)

/-- 30_encoding.md R73, R75: no opcode of the map is in a range of illegal opcodes. -/
theorem opcodeMap_not_illegal : ∀ row ∈ opcodeMap, ∀ r ∈ illegalOpcodeRanges,
    ¬ (r.1 ≤ row.1.toNat ∧ row.1.toNat ≤ r.2) := by decide

theorem opcodeAssigned_of_mem {c : Word} {i : Instr} (h : (c.extractLsb' 0 8, i) ∈ opcodeMap) :
    opcodeAssigned c = true := by
  rw [opcodeAssigned, List.all_eq_true]
  intro r hr
  have hout := opcodeMap_not_illegal _ h r hr
  rwa [← Bool.decide_and, Bool.not_eq_true', decide_eq_false_iff_not]

theorem wfCommandWord_of_decode {c : Word} {i : Instr} (h : decode c = .ok i) : wfCommandWord c = true := by
  unfold decode at h
  split at h
  · cases h
  · next hrsv =>
    have hres : reservedClear c = true := beq_iff_eq.mpr (not_not.mp hrsv)
    split at h
    · next hopc => rw [wfCommandWord, hres, opcodeAssigned_of_mem (decodeOpcode_mem hopc), Bool.and_self]
    · cases h

theorem decode_error_of_not_wf {c : Word} (h : wfCommandWord c = false) : ∃ r, decode c = .error r := by
  cases hd : decode c with
  | error r => exact ⟨r, rfl⟩
  | ok i => exact absurd (wfCommandWord_of_decode hd) (by simp [h])

end Sys2Proof

namespace Sys2Proof.Machine

/-! ### The engine's step -/

section EngineStep

variable {s : State} {c : Word}

theorem runCommand_of_not_wf (h : wfCommandWord c = false) (s : State) :
    runCommand c s = .next (afterError .illegal s) := by
  obtain ⟨r, hr⟩ := decode_error_of_not_wf h
  rw [runCommand, hr, raiseError_eq]

theorem engineTurn_pending (h : s.engine = .pending c) : engineTurn s = runCommand c s := by
  rw [engineTurn, h]

/-- 30_encoding.md R72 when no event is left (Log 2). -/
theorem step_pending_of_no_event (h : s.engine = .pending c) (hi : s.inputs = []) : step s = runCommand c s := by
  rw [step, hi]
  exact engineTurn_pending h

/-- 30_encoding.md R72 when the engine's turn is the next event (Log 1). -/
theorem step_pending_of_engineTurn {rest : List HostEvent} (h : s.engine = .pending c)
    (hi : s.inputs = .engineTurn :: rest) : step s = runCommand c { s with inputs := rest } := by
  rw [step, hi]
  exact engineTurn_pending (s := { s with inputs := rest }) h

end EngineStep

/-! ### CMD writes (30_encoding.md R71) -/

section WriteCmd

variable {s : State}

theorem writeAccess_cmd_idle (h : s.engine = .idle) (v : Word) :
    writeAccess (.register .cmd) v s = acceptCommand v s := by
  simp only [writeAccess, h, writeTarget, writeRegister, writeCmd]

theorem writeAccess_cmd_pending {c : Word} (h : s.engine = .pending c) (v : Word) :
    writeAccess (.register .cmd) v s = raiseFault .hazard s := by
  have hctrl : Target.register .cmd ≠ .register .ctrl := by decide
  simp only [writeAccess, h, if_neg fun hw => hctrl (And.left hw)]

theorem writeAccess_cmd_faulted {c : FaultCause} (h : s.engine = .faulted c) (v : Word) :
    writeAccess (.register .cmd) v s = s := by
  simp only [writeAccess, h, writeTarget, writeRegister, writeCmd]

theorem step_writeCmd {v : Word} {rest : List HostEvent} (hi : s.inputs = .write 0x004 4 v :: rest) :
    step s = .next (writeAccess (.register .cmd) v { s with inputs := rest }) :=
  step_write hi (locate_of_mem (by decide) s.cfg)

end WriteCmd

/-! ### The obligations -/

/-- Settles O3: a word that is not well-formed does not decode, so the engine's step raises Error(ILLEGAL). -/
theorem illegalWordCompletesWithIllegal : Obligations.IllegalWordCompletesWithIllegal := by
  intro s c hc hwf
  refine ⟨fun hi => ?_, fun rest hi => ?_⟩
  · rw [step_pending_of_no_event hc hi, runCommand_of_not_wf hwf]
  · rw [step_pending_of_engineTurn hc hi, runCommand_of_not_wf hwf]

/-- Settles O46: the engine state alone decides what a CMD write does. -/
theorem commandWriteIsAcceptedOnlyInIdle : Obligations.CommandWriteIsAcceptedOnlyInIdle := by
  intro s v rest hi
  have hstep := step_writeCmd hi
  refine ⟨fun hidle => ?_, fun c hpending => ?_, fun c hfaulted => ?_⟩
  · exact hstep.trans (congrArg _ (writeAccess_cmd_idle (s := { s with inputs := rest }) hidle v))
  · exact hstep.trans (congrArg _ (writeAccess_cmd_pending (s := { s with inputs := rest }) hpending v))
  · exact hstep.trans (congrArg _ (writeAccess_cmd_faulted (s := { s with inputs := rest }) hfaulted v))

end Sys2Proof.Machine
end

section
/-! The byte/word codec commands (41_codec.md R87-R92): what each writes, in the words of Safety.lean; the obligations
O12 to O15. -/

namespace Sys2Proof.Machine

/-! ### The commands -/

theorem exec_encU16_eq (s : State) : exec .encU16 s = encodeValue (wire16 (low16 s.arg0) s.bo) s := by
  rw [← arg16_eq, ← enc16_eq]
  rfl

theorem exec_decU16_eq (s : State) :
    exec .decU16 s = decodeValue 2 (fun l => (dec16 (byteOf l 0) (byteOf l 1) s.bo).setWidth 32) s := rfl

section Codec32

variable {i : Instr}

/-- R91: ENC_F32 moves a bit pattern as ENC_U32 does. -/
theorem exec_enc32_eq (hi : i = .encU32 ∨ i = .encF32) (s : State) :
    exec i s = encodeValue (wireList s.bo (wireWords s.arg0 s.wo)) s := by
  rw [← enc32_eq]
  obtain rfl | rfl := hi <;> rfl

/-- R92: DEC_F32 takes a bit pattern as DEC_U32 does. -/
theorem exec_dec32_eq (hi : i = .decU32 ∨ i = .decF32) (s : State) :
    exec i s = decodeValue 4 (word32Of s) s := by
  obtain rfl | rfl := hi <;> rfl

end Codec32

/-! ### The decoded values -/

section Decode

variable {s : State} {n : Nat}

theorem decodeValue_spec (h : s.inLen.toNat ≤ s.cfg.bufBytes) (hn : n ≤ s.inLen.toNat) (v : List Byte → Word) :
    ∃ t, decodeValue n v s = .next t ∧ WroteResult true (v s.input) s t :=
  ⟨_, decodeValue_ok h hn v, wroteResult_finishOk true _ s⟩

/-- R88: RESULT of DEC_U16 is the 16-bit value zero-extended. -/
theorem dec16_input (hn : 2 ≤ s.inLen.toNat) :
    (dec16 (byteOf s.input 0) (byteOf s.input 1) s.bo).setWidth 32
      = BitVec.ofNat 32 (read16 (s.byteAt .inBuf 0) (s.byteAt .inBuf 1) s.bo).toNat := by
  rw [byteOf_input s (by omega), byteOf_input s (by omega), dec16_eq, BitVec.ofNat_toNat]

/-- R90: the words of the value decoded are the two 16-bit fields of the first four bytes. -/
theorem wireWords_word32Of_input (hn : 4 ≤ s.inLen.toNat) :
    wireWords (word32Of s s.input) s.wo = [read16 (s.byteAt .inBuf 0) (s.byteAt .inBuf 1) s.bo,
      read16 (s.byteAt .inBuf 2) (s.byteAt .inBuf 3) s.bo] := by
  rw [word32Of, wireWords_dec32, byteOf_input s (by omega), byteOf_input s (by omega), byteOf_input s (by omega),
    byteOf_input s (by omega)]

end Decode

/-! ### The obligations -/

/-- Settles O12: the two bytes fit OUT_LEN, and the encoder writes OUT and OUT_LEN only. -/
theorem encU16WritesTheOperandInByteOrder : Obligations.EncU16WritesTheOperandInByteOrder := by
  intro s
  rw [exec_encU16_eq]
  exact encodeValue_spec (by rw [wire16_length]; decide) s

/-- Settles O13: both commands write the same four bytes, which fit OUT_LEN. -/
theorem encU32AndF32WriteTheSameFourBytes : Obligations.EncU32AndF32WriteTheSameFourBytes := by
  intro i s hi
  rw [exec_enc32_eq hi]
  exact encodeValue_spec (by rw [wireList_length, wireWords_length]; decide) s

/-- Settles O14: the checks of `decodeValue` in their order, then the value of the first two bytes. -/
theorem decU16ReadsTheFirstTwoBytes : Obligations.DecU16ReadsTheFirstTwoBytes := by
  intro s
  rw [exec_decU16_eq]
  refine ⟨fun hover => decodeValue_overflow hover _ _, fun hfit hshort => decodeValue_short hfit hshort _,
    fun hfit hlen => ?_⟩
  rw [← dec16_input hlen]
  exact decodeValue_spec hfit hlen _

/-- Settles O15: the checks of `decodeValue` in their order, then the value whose words are the fields received. -/
theorem decU32AndF32ReadTheFirstFourBytes : Obligations.DecU32AndF32ReadTheFirstFourBytes := by
  intro i s hi
  rw [exec_dec32_eq hi]
  refine ⟨fun hover => decodeValue_overflow hover _ _, fun hfit hshort => decodeValue_short hfit hshort _,
    fun hfit hlen => ?_⟩
  obtain ⟨t, hnext, hwrote⟩ := decodeValue_spec hfit hlen (word32Of s)
  exact ⟨t, word32Of s s.input, hnext, hwrote, wireWords_word32Of_input hlen⟩

end Sys2Proof.Machine
end

section
/-! The checksum commands (42_checksum.md R98-R101): what each computes from all of IN, in the words of Safety.lean; the
obligations O17 and O18. -/

namespace Sys2Proof.Machine

section Checksum

variable {s : State}

/-! ### The results -/

theorem exec_crc16Calc_eq (s : State) :
    exec .crc16Calc s = calcResult (fun l => BitVec.ofNat 32 (crcRef l).toNat) s := by
  simp only [BitVec.ofNat_toNat, ← crc16_eq]
  rfl

theorem exec_lrc8Calc_eq (s : State) :
    exec .lrc8Calc s = calcResult (fun l => BitVec.ofNat 32 (lrcRef l).toNat) s := by
  simp only [BitVec.ofNat_toNat, ← lrc8_eq]
  rfl

theorem calcResult_spec (h : s.inLen.toNat ≤ s.cfg.bufBytes) (v : List Byte → Word) :
    ∃ t, calcResult v s = .next t ∧ WroteResult true (v s.input) s t :=
  ⟨_, calcResult_ok h v, wroteResult_finishOk true _ s⟩

/-! ### The verdicts -/

theorem exec_crc16Verify_eq (s : State) :
    exec .crc16Verify s = verdict (fun l => if l.length < 2 then false else crcMatches l) s := rfl

theorem exec_lrc8Verify_eq (s : State) :
    exec .lrc8Verify s = verdict (fun l => if l.length = 0 then false else sum8 l == 0) s := rfl

/-- R99: fewer than two bytes hold no CRC, so the length check answers as the comparison would. -/
theorem crcVerdict_iff (l : List Byte) :
    (if l.length < 2 then false else crcMatches l) = true ↔ ∃ d, l = d ++ crcTail d := by
  split
  · next hshort =>
    refine iff_of_false Bool.false_ne_true ?_
    rintro ⟨d, rfl⟩
    simp at hshort
  · next hlong => exact crcMatches_iff (Nat.le_of_not_lt hlong)

/-- R101: the empty sequence is no frame, though its byte sum is 0. -/
theorem lrcVerdict_iff (l : List Byte) :
    (if l.length = 0 then false else sum8 l == 0) = true ↔ l ≠ [] ∧ byteSum l % 256 = 0 := by
  rw [← sum8_eq_zero_iff, Ne, ← List.length_eq_zero_iff]
  split
  · next hempty => simp [hempty]
  · next hbytes => simp [hbytes]

/-- A verdict command answers whether IN has the property its verdict stands for. -/
theorem verdict_spec {v : List Byte → Bool} {P : List Byte → Prop} (hv : ∀ l, v l = true ↔ P l)
    (h : s.inLen.toNat ≤ s.cfg.bufBytes) :
    ∃ b t, verdict v s = .next t ∧ WroteVerdict b s t ∧ (b = true ↔ P s.input) :=
  ⟨v s.input, _, verdict_ok h v, wroteVerdict_finishOk _ s, hv s.input⟩

end Checksum

/-! ### The obligations -/

/-- Settles O17: both commands are `calcResult` of a reference checksum. -/
theorem checksumsOfAllOfInput : Obligations.ChecksumsOfAllOfInput := by
  intro s
  rw [exec_crc16Calc_eq, exec_lrc8Calc_eq]
  exact ⟨fun hover => ⟨calcResult_overflow hover _, calcResult_overflow hover _⟩,
    fun hfit => ⟨calcResult_spec hfit _, calcResult_spec hfit _⟩⟩

/-- Settles O18: both commands are `verdict`, of a check that says what the spec asks of a frame. -/
theorem verifyCommandsGiveTheVerdict : Obligations.VerifyCommandsGiveTheVerdict := by
  intro s
  rw [exec_crc16Verify_eq, exec_lrc8Verify_eq]
  exact ⟨fun hover => ⟨verdict_overflow hover _, verdict_overflow hover _⟩,
    fun hfit => ⟨verdict_spec crcVerdict_iff hfit, verdict_spec lrcVerdict_iff hfit⟩⟩

end Sys2Proof.Machine
end

section
/-! The setters of fixed fields, SET_RAW, SET_DIAG and GET_SPAN (43_pdu.md R105-R111, R114, R115, R117, R120, R121):
when a structured setter faults, one rule for each of its endings, and the obligations O8, O22 to O26 and O32. -/

namespace Sys2Proof.Machine

/-! ### The contract fault (43_pdu.md R121) -/

/-- A command that ends in the contract fault has a wrong FC; a command that ends otherwise does not. -/
theorem Ends.fault_or_idle {i : Instr} {s t : State} (h : Ends i s t) :
    (t = afterFault .contract s ∧ ∃ codes, requiredCodes s.cfg i = some codes ∧ s.fc ∉ codes)
      ∨ (t.engine = .idle ∧ ∀ codes, requiredCodes s.cfg i = some codes → s.fc ∈ codes) := by
  have hfree : requiredCodes s.cfg i = none → ∀ codes, requiredCodes s.cfg i = some codes → s.fc ∈ codes := by
    intro hnone codes hsome
    rw [hnone] at hsome
    cases hsome
  cases h with
  | error e hn he hc => exact .inr ⟨rfl, hc⟩
  | fault codes hc hf => exact .inl ⟨raiseFault_eq _ _, codes, hc, hf⟩
  | verdict b hc => exact .inr ⟨rfl, hfree hc⟩
  | result b v hi hc => exact .inr ⟨rfl, hfree hc⟩
  | output p hi hc hp => exact .inr ⟨rfl, hfree hc⟩
  | payload k a b p hi hc => exact .inr ⟨rfl, hc⟩
  | message sl fc exb fck e k a b p hi hc => exact .inr ⟨rfl, hfree hc⟩
  | exception sl fc exb fck e hi hc => exact .inr ⟨rfl, hfree hc⟩

/-! ### The endings of a setter with one function code (43_pdu.md R105) -/

section Setter

variable {i : Instr} {s : State} {code : Byte} {k : FieldKind} {a b : Half} {p : Payload} {l : List Byte}
  (hset : exec i s = structuredSetter (s.fc == code) k a b p s)

include hset

theorem setter_fault (hfc : s.fc ≠ code) : exec i s = .next (afterFault .contract s) :=
  hset.trans (structuredSetter_contract (beq_false_of_ne hfc) k a b p s)

theorem setter_error {e : Err} (hfc : s.fc = code) (hp : p = .error e) : exec i s = .next (afterError e s) :=
  hset.trans (structuredSetter_error (beq_iff_eq.mpr hfc) k a b hp s)

theorem setter_overflow (hfc : s.fc = code) (hp : p = .ok l) (hl : s.cfg.bufBytes < l.length) :
    exec i s = .next (afterError .overflow s) :=
  hset.trans (structuredSetter_overflow (beq_iff_eq.mpr hfc) k a b hp hl)

theorem setter_writes (hw : s.cfg.wf = true) (hfc : s.fc = code) (hp : p = .ok l)
    (hl : l.length ≤ s.cfg.bufBytes) : ∃ t, exec i s = .next t ∧ WrotePayload l k a b s t := by
  rw [hset]
  exact structuredSetter_ok (beq_iff_eq.mpr hfc) k a b hp hl (params_bufBytes hw).2

end Setter

/-- A few 16-bit fields fit every legal buffer. -/
theorem wireList_fits {p : Params} (hw : p.wf = true) (bo : ByteOrder) {fields : List Half}
    (hfew : fields.length ≤ 8) : (wireList bo fields).length ≤ p.bufBytes := by
  have hmin := (params_bufBytes hw).1
  rw [wireList_length]
  omega

/-! ### The commands -/

section Commands

variable (s : State)

theorem exec_setSpan_eq : exec .setSpan s =
    structuredSetter (s.cfg.spanSetCodes.contains s.fc) .span (low16 s.arg0) (low16 s.arg1)
      (.ok (wireList s.bo [low16 s.arg0, low16 s.arg1])) s := by
  simp only [← encWords_eq, ← arg16_eq]
  rfl

theorem exec_setWsr_eq : exec .setWsr s =
    structuredSetter (s.fc == 0x06) .reg (low16 s.arg0) (low16 s.arg1)
      (.ok (wireList s.bo [low16 s.arg0, low16 s.arg1])) s := by
  simp only [← encWords_eq, ← arg16_eq]
  rfl

theorem exec_setWsc_eq : exec .setWsc s =
    structuredSetter (s.fc == 0x05) .coil (low16 s.arg0) (if argBit s.arg1 then 1 else 0)
      (.ok (wireList s.bo [low16 s.arg0, if argBit s.arg1 then 0xFF00 else 0x0000])) s := by
  simp only [← encWords_eq, ← arg16_eq]
  rfl

theorem exec_setWsc_on (hon : s.arg1.toNat % 2 = 1) : exec .setWsc s =
    structuredSetter (s.fc == 0x05) .coil (low16 s.arg0) 1 (.ok (wireList s.bo [low16 s.arg0, 0xFF00])) s := by
  rw [exec_setWsc_eq, (argBit_iff s.arg1).mpr hon, if_pos rfl, if_pos rfl]

theorem exec_setWsc_off (hoff : s.arg1.toNat % 2 = 0) : exec .setWsc s =
    structuredSetter (s.fc == 0x05) .coil (low16 s.arg0) 0 (.ok (wireList s.bo [low16 s.arg0, 0x0000])) s := by
  have hbit : ¬ argBit s.arg1 = true := by
    rw [argBit_iff]
    omega
  rw [exec_setWsc_eq, if_neg hbit, if_neg hbit]

theorem exec_setMask_eq : exec .setMask s =
    structuredSetter (s.fc == 0x16) .none 0 0
      (.ok (wireList s.bo [low16 s.arg0, low16 s.arg1, low16 s.arg2])) s := by
  simp only [← encWords_eq, ← arg16_eq]
  rfl

theorem exec_setFifo_eq : exec .setFifo s =
    structuredSetter (s.fc == 0x18) .none 0 0 (.ok (wireList s.bo [low16 s.arg0])) s := by
  rw [wireList_cons, wireList_nil, List.append_nil, ← enc16_eq, ← arg16_eq]
  rfl

theorem exec_setDiag_eq : exec .setDiag s =
    structuredSetter (s.fc == 0x08) .none 0 0
      (if s.inputTooLong then .error .overflow else .ok (wire16 (low16 s.arg0) s.bo ++ s.input)) s := by
  rw [← enc16_eq, ← arg16_eq]
  rfl

/-! ### SET_RAW and GET_SPAN -/

variable {s}

theorem exec_setRaw_overflow (hover : s.cfg.bufBytes < s.inLen.toNat) :
    exec .setRaw s = .next (afterError .overflow s) := by
  rw [exec, execSetRaw, if_pos ((inputTooLong_iff s).mpr hover), raiseError_eq]

theorem exec_setRaw_fit (hfit : s.inLen.toNat ≤ s.cfg.bufBytes) :
    exec .setRaw s = .next (finishOk true (putView .none 0 0 (putPayload s.input s))) := by
  rw [exec, execSetRaw, inputTooLong_eq_false hfit, if_neg Bool.false_ne_true]

theorem exec_getSpan_span (hfc : s.fc ∈ s.cfg.spanCodes) (hlen : 4 ≤ s.pduLen.toNat) :
    exec .getSpan s = .next (finishOk true (putResult
      (packHalves (read16 (s.byteAt .pduBuf 0) (s.byteAt .pduBuf 1) s.bo)
        (read16 (s.byteAt .pduBuf 2) (s.byteAt .pduBuf 3) s.bo)) s)) := by
  rw [exec, execGetSpan, if_pos ⟨List.contains_iff_mem.mpr hfc, hlen⟩, dec16_eq, dec16_eq]

theorem exec_getSpan_none (h : s.fc ∉ s.cfg.spanCodes ∨ s.pduLen.toNat < 4) :
    exec .getSpan s = .next (finishOk false (putResult 0 s)) := by
  rw [exec, execGetSpan, if_neg]
  rintro ⟨hmem, hlen⟩
  exact h.elim (fun hfc => hfc (List.contains_iff_mem.mp hmem)) (Nat.not_lt.mpr hlen)

end Commands

/-! ### The obligations -/

/-- Settles O8: the two ways out of `Ends.fault_or_idle` exclude each other, by FC and by the engine state. -/
theorem contractFaultExactlyOnWrongFunctionCode : Obligations.ContractFaultExactlyOnWrongFunctionCode := by
  intro i s t h
  rcases (ends_of_exec h).fault_or_idle with ⟨rfl, hwrong⟩ | ⟨hidle, hin⟩
  · exact ⟨iff_of_true ⟨.contract, rfl⟩ hwrong, fun _ => rfl⟩
  · have hnofault : ¬ ∃ c, t.engine = .faulted c := by simp [hidle]
    refine ⟨iff_of_false hnofault ?_, fun hf => absurd hf hnofault⟩
    rintro ⟨codes, hc, hfc⟩
    exact hfc (hin codes hc)

/-- Settles O22: SET_RAW has the length check alone, and IN_LEN bytes always fit PDU_LEN. -/
theorem setRawCopiesInputToPayload : Obligations.SetRawCopiesInputToPayload := by
  intro s
  refine ⟨exec_setRaw_overflow, fun hfit => ⟨_, exec_setRaw_fit hfit, wrotePayload_finishOk ?_ _ _ _ s⟩⟩
  rw [input_length]
  exact s.inLen.isLt

/-- Settles O23: the contract check is membership in SPAN_SET_CODES. -/
theorem setSpanWritesStartAndCount : Obligations.SetSpanWritesStartAndCount := by
  intro s hw
  rw [exec_setSpan_eq]
  exact ⟨fun hfc => structuredSetter_contract (by simpa using hfc) _ _ _ _ s,
    fun hfc => structuredSetter_ok (List.contains_iff_mem.mpr hfc) _ _ _ rfl (wireList_fits hw s.bo (by simp))
      (params_bufBytes hw).2⟩

/-- Settles O24: the payload and the view of a coil follow bit 0 of ARG1. -/
theorem setWsrAndSetWscWriteAddressAndValue : Obligations.SetWsrAndSetWscWriteAddressAndValue := by
  intro s hw
  have hfits (v w : Half) : (wireList s.bo [v, w]).length ≤ s.cfg.bufBytes := wireList_fits hw s.bo (by simp)
  exact ⟨setter_fault (exec_setWsr_eq s), fun hfc => setter_writes (exec_setWsr_eq s) hw hfc rfl (hfits _ _),
    setter_fault (exec_setWsc_eq s),
    fun hfc hon => setter_writes (exec_setWsc_on s hon) hw hfc rfl (hfits _ _),
    fun hfc hoff => setter_writes (exec_setWsc_off s hoff) hw hfc rfl (hfits _ _)⟩

/-- Settles O25: both are setters of fixed fields without a view. -/
theorem setMaskAndSetFifoWriteTheirFields : Obligations.SetMaskAndSetFifoWriteTheirFields := by
  intro s hw
  exact ⟨setter_fault (exec_setMask_eq s),
    fun hfc => setter_writes (exec_setMask_eq s) hw hfc rfl (wireList_fits hw s.bo (by simp)),
    setter_fault (exec_setFifo_eq s),
    fun hfc => setter_writes (exec_setFifo_eq s) hw hfc rfl (wireList_fits hw s.bo (by simp))⟩

/-- Settles O26: the payload is two bytes longer than IN, so its OVERFLOW check covers that of IN. -/
theorem setDiagWritesSubFunctionAndData : Obligations.SetDiagWritesSubFunctionAndData := by
  intro s hw
  have hset := exec_setDiag_eq s
  have hlen : (wire16 (low16 s.arg0) s.bo ++ s.input).length = s.inLen.toNat + 2 := by
    rw [List.length_append, wire16_length, input_length, Nat.add_comm]
  refine ⟨setter_fault hset, fun hfc hover => ?_, fun hfc hfit => ?_⟩
  · rcases Nat.lt_or_ge s.cfg.bufBytes s.inLen.toNat with hin | hin
    · exact setter_error hset hfc (if_pos ((inputTooLong_iff s).mpr hin))
    · exact setter_overflow hset hfc (if_neg (by simp [inputTooLong_eq_false hin])) (hover.trans_eq hlen.symm)
  · exact setter_writes hset hw hfc (if_neg (by simp [inputTooLong_eq_false (Nat.le_of_add_right_le hfit)]))
      (hlen.trans_le hfit)

/-- Settles O32: RESULT packs the two fields `dec16` reads. -/
theorem getSpanReturnsTheSpanOrNotApplicable : Obligations.GetSpanReturnsTheSpanOrNotApplicable := by
  intro s
  refine ⟨fun hfc hlen => ?_, fun h => ⟨_, exec_getSpan_none h, wroteResult_finishOk false 0 s⟩⟩
  rw [exec_getSpan_span hfc hlen, ← packHalves_eq]
  exact ⟨_, rfl, wroteResult_finishOk true _ s⟩

end Sys2Proof.Machine
end

section
/-! The setters that read a list of values or of coils (43_pdu.md R112, R113, R116): the checks of the two lists in
their order, and the obligations O27 to O29. -/

namespace Sys2Proof.Machine

/-! ### Fields in front of a payload -/

theorem withFields_of_error {fields : List Byte} {p : Payload} {e : Err} (h : p = .error e) :
    withFields fields p = .error e := by
  rw [h, withFields]

theorem withFields_of_ok {fields : List Byte} {p : Payload} {l : List Byte} (h : p = .ok l) :
    withFields fields p = .ok (fields ++ l) := by
  rw [h, withFields]

/-! ### The commands -/

theorem exec_setWmr_eq (s : State) : exec .setWmr s =
    structuredSetter (s.fc == 0x10) .none 0 0
      (withFields (wireList s.bo [low16 s.arg0, low16 s.arg1]) (valueList s (low16 s.arg1))) s := by
  simp only [← encWords_eq, ← arg16_eq]
  rfl

theorem exec_setRwm_eq (s : State) : exec .setRwm s =
    structuredSetter (s.fc == 0x17) .none 0 0
      (withFields (wireList s.bo [low16 s.arg0, low16 s.arg1, low16 s.arg2, low16 s.arg3])
        (valueList s (low16 s.arg3))) s := by
  simp only [← encWords_eq, ← arg16_eq]
  rfl

theorem exec_setWmc_eq (s : State) : exec .setWmc s =
    structuredSetter (s.fc == 0x0F) .none 0 0
      (withFields (wireList s.bo [low16 s.arg0, low16 s.arg1]) (coilList s (low16 s.arg1))) s := by
  simp only [← encWords_eq, ← arg16_eq]
  rfl

/-! ### Value lists (43_pdu.md R112, R116) -/

theorem valueList_overflow {s : State} (hover : s.cfg.bufBytes < s.inLen.toNat) (count : Half) :
    valueList s count = .error .overflow := by
  rw [valueList, if_pos ((inputTooLong_iff s).mpr hover)]

theorem valueList_odd {s : State} (hfit : s.inLen.toNat ≤ s.cfg.bufBytes) (hodd : s.inLen.toNat % 2 = 1)
    (count : Half) : valueList s count = .error .length := by
  rw [valueList, inputTooLong_eq_false hfit, if_neg Bool.false_ne_true, if_pos (by omega)]

/-- What R112 and R116 ask of a command: the checks in their order, and the payload of the fields, the byte count and
the list `ws` the host staged. -/
def WritesValueList (i : Instr) (code : Byte) (fields : List Half) (count : Half) (s : State) : Prop :=
  (s.fc ≠ code → exec i s = .next (afterFault .contract s))
    ∧ (s.fc = code → s.cfg.bufBytes < s.inLen.toNat → exec i s = .next (afterError .overflow s))
    ∧ (s.fc = code → s.inLen.toNat ≤ s.cfg.bufBytes → s.inLen.toNat % 2 = 1 →
        exec i s = .next (afterError .length s))
    ∧ (∀ ws, s.fc = code → s.inLen.toNat ≤ s.cfg.bufBytes → s.input = hostList ws →
        (ws.length ≠ count.toNat → exec i s = .next (afterError .mismatch s))
          ∧ (ws.length = count.toNat → 127 < ws.length → exec i s = .next (afterError .limit s))
          ∧ (ws.length = count.toNat → ws.length ≤ 127 →
              s.cfg.bufBytes < 2 * fields.length + 1 + 2 * ws.length → exec i s = .next (afterError .overflow s))
          ∧ (ws.length = count.toNat → ws.length ≤ 127 →
              2 * fields.length + 1 + 2 * ws.length ≤ s.cfg.bufBytes →
              ∃ t, exec i s = .next t ∧
                WrotePayload (wireList s.bo fields ++ [BitVec.ofNat 8 (2 * ws.length)] ++ wireList s.bo ws)
                  .none 0 0 s t))

theorem setter_writesValueList {i : Instr} {code : Byte} {fields : List Half} {count : Half} {s : State}
    (hw : s.cfg.wf = true)
    (hset : exec i s = structuredSetter (s.fc == code) .none 0 0
      (withFields (wireList s.bo fields) (valueList s count)) s) :
    WritesValueList i code fields count s := by
  refine ⟨setter_fault hset,
    fun hfc hover => setter_error hset hfc (withFields_of_error (valueList_overflow hover count)),
    fun hfc hfit hodd => setter_error hset hfc (withFields_of_error (valueList_odd hfit hodd count)),
    fun ws hfc hfit hin => ?_⟩
  obtain ⟨hmismatch, hlimit, hok⟩ := valueList_ok (n := count) hfit hin
  have hpayload (hcount : ws.length = count.toNat) (hfew : ws.length ≤ 127) :
      withFields (wireList s.bo fields) (valueList s count)
        = .ok (wireList s.bo fields ++ [BitVec.ofNat 8 (2 * ws.length)] ++ wireList s.bo ws) := by
    rw [withFields_of_ok (hok hcount hfew), List.append_assoc, List.singleton_append]
  have hlen : (wireList s.bo fields ++ [BitVec.ofNat 8 (2 * ws.length)] ++ wireList s.bo ws).length
      = 2 * fields.length + 1 + 2 * ws.length := by
    simp only [List.length_append, wireList_length, List.length_singleton]
  exact ⟨fun hne => setter_error hset hfc (withFields_of_error (hmismatch hne)),
    fun hcount hmany => setter_error hset hfc (withFields_of_error (hlimit hcount hmany)),
    fun hcount hfew hover => setter_overflow hset hfc (hpayload hcount hfew) (hover.trans_eq hlen.symm),
    fun hcount hfew hroom => setter_writes hset hw hfc (hpayload hcount hfew) (hlen.trans_le hroom)⟩

/-! ### Coils (43_pdu.md R113) -/

section Coils

variable {s : State} {count : Half}

theorem coilList_overflow (hover : s.cfg.bufBytes < s.inLen.toNat) : coilList s count = .error .overflow := by
  rw [coilList, if_pos ((inputTooLong_iff s).mpr hover)]

theorem coilList_mismatch (hfit : s.inLen.toNat ≤ s.cfg.bufBytes) (hne : s.inLen ≠ count) :
    coilList s count = .error .mismatch := by
  rw [coilList, inputTooLong_eq_false hfit, if_neg Bool.false_ne_true,
    if_pos fun h => hne (BitVec.eq_of_toNat_eq h)]

theorem coilList_limit (hfit : s.inLen.toNat ≤ s.cfg.bufBytes) (hmany : 2040 < s.inLen.toNat) :
    coilList s s.inLen = .error .limit := by
  rw [coilList, inputTooLong_eq_false hfit, if_neg Bool.false_ne_true, if_neg (not_not.mpr rfl), if_pos (by omega)]

theorem packedCoil_input_bit (s : State) (j : Nat) {b : Nat} (hb : b < 8) :
    (packedCoil s.input j).getLsbD b
      = decide (8 * j + b < s.inLen.toNat ∧ s.byteAt .inBuf (8 * j + b) ≠ 0) := by
  rw [packedCoil_bit _ _ _ hb, input_length, decide_eq_decide]
  exact and_congr_right fun hin => by rw [byteOf_input s hin]

/-- The packed coils are fixed by their length and their bits. -/
theorem coilList_packed (hfit : s.inLen.toNat ≤ s.cfg.bufBytes) (hfew : s.inLen.toNat ≤ 2040) :
    ∃ packed, packed.length = (s.inLen.toNat + 7) / 8
      ∧ (∀ j b, j < packed.length → b < 8 → (byteOf packed j).getLsbD b
          = decide (8 * j + b < s.inLen.toNat ∧ s.byteAt .inBuf (8 * j + b) ≠ 0))
      ∧ coilList s s.inLen = .ok (BitVec.ofNat 8 packed.length :: packed) := by
  have hlen : ((List.range ((s.inLen.toNat + 7) / 8)).map (packedCoil s.input)).length
      = (s.inLen.toNat + 7) / 8 := by
    rw [List.length_map, List.length_range]
  refine ⟨_, hlen, fun j b hj hb => ?_, ?_⟩
  · rw [byteOf_map_range (hlen ▸ hj), packedCoil_input_bit s j hb]
  · rw [hlen, coilList, inputTooLong_eq_false hfit, if_neg Bool.false_ne_true, if_neg (not_not.mpr rfl),
      if_neg (by omega)]

end Coils

/-! ### The obligations -/

/-- Settles O27: SET_WMR is the value-list setter with the fields ARG0, ARG1 and the count ARG1. -/
theorem setWmrWritesTheValueList : Obligations.SetWmrWritesTheValueList :=
  fun s hw => setter_writesValueList hw (exec_setWmr_eq s)

/-- Settles O28: SET_RWM is the value-list setter with the fields ARG0 to ARG3 and the count ARG3. -/
theorem setRwmWritesBothSpansAndTheValueList : Obligations.SetRwmWritesBothSpansAndTheValueList :=
  fun s hw => setter_writesValueList hw (exec_setRwm_eq s)

/-- Settles O29: eight coils take one byte, so the payload of a list that IN holds fits PDU_BUF. -/
theorem setWmcPacksTheCoils : Obligations.SetWmcPacksTheCoils := by
  intro s hw
  have hset := exec_setWmc_eq s
  refine ⟨setter_fault hset, fun hfc hover => setter_error hset hfc (withFields_of_error (coilList_overflow hover)),
    fun hfc hfit hne => setter_error hset hfc (withFields_of_error (coilList_mismatch hfit hne)),
    fun hfc hfit hcount hmany => ?_, fun hfc hfit hcount hfew => ?_⟩
  · exact setter_error hset hfc (withFields_of_error (hcount ▸ coilList_limit hfit hmany))
  · obtain ⟨packed, hlen, hbits, hok⟩ := coilList_packed hfit hfew
    rw [hcount] at hok
    have hpayload : withFields (wireList s.bo [low16 s.arg0, low16 s.arg1]) (coilList s (low16 s.arg1))
        = .ok (wireList s.bo [low16 s.arg0, low16 s.arg1] ++ [BitVec.ofNat 8 packed.length] ++ packed) := by
      rw [withFields_of_ok hok, List.append_assoc, List.singleton_append]
    have hroom : (wireList s.bo [low16 s.arg0, low16 s.arg1] ++ [BitVec.ofNat 8 packed.length] ++ packed).length
        ≤ s.cfg.bufBytes := by
      have hmin := (params_bufBytes hw).1
      simp only [List.length_append, wireList_length, List.length_cons, List.length_nil, hlen]
      omega
    obtain ⟨t, hnext, hwrote⟩ := setter_writes hset hw hfc hpayload hroom
    exact ⟨t, packed, hnext, hlen, hbits, hwrote⟩

end Sys2Proof.Machine
end

section
/-! The setters that read file records (43_pdu.md R118, R119): the checks of the sub-requests and of the records in
their order, and the obligations O30 and O31. -/

namespace Sys2Proof.Machine

/-! ### The commands -/

theorem exec_setRfr_eq (s : State) :
    exec .setRfr s = structuredSetter (s.fc == 0x14) .none 0 0 (readFilePayload s) s := rfl

theorem exec_setWfr_eq (s : State) :
    exec .setWfr s = structuredSetter (s.fc == 0x15) .none 0 0 (writeFilePayload s) s := rfl

theorem length_flatMap_of_const {α : Type} {f : α → List Byte} {n : Nat} (hf : ∀ x, (f x).length = n)
    (l : List α) : (l.flatMap f).length = n * l.length := by
  simp [List.length_flatMap, hf, Nat.mul_comm]

theorem inputTooLong_of_empty {s : State} (hzero : s.inLen = 0) : s.inputTooLong = false :=
  inputTooLong_eq_false (by rw [hzero]; exact Nat.zero_le _)

/-! ### Sub-requests (43_pdu.md R118) -/

/-- A sub-request on the wire, from the triple the host staged. -/
def wireSubRequest (bo : ByteOrder) (r : Half × Half × Half) : List Byte :=
  0x06 :: wireList bo [r.1, r.2.1, r.2.2]

theorem wireSubRequest_length (bo : ByteOrder) (r : Half × Half × Half) : (wireSubRequest bo r).length = 7 := by
  simp [wireSubRequest]

section Triples

variable (trs : List (Half × Half × Half))

theorem host16_triple {k n : Nat} (hk : k < trs.length) (hn : n < 3) :
    some (host16 (trs.flatMap fun r => hostList [r.1, r.2.1, r.2.2]) (3 * k + n))
      = [trs[k].1, trs[k].2.1, trs[k].2.2][n]? := by
  have hin : 3 * k + n < (trs.flatMap fun r => [r.1, r.2.1, r.2.2]).length := by
    rw [triples_length]
    omega
  rw [flatMap_hostList, host16_hostList _ hin, ← List.getElem?_eq_getElem hin, triples_get trs k hk n hn]

theorem readSubRequest_host (bo : ByteOrder) {k : Nat} (hk : k < trs.length) :
    readSubRequest bo (trs.flatMap fun r => hostList [r.1, r.2.1, r.2.2]) k = wireSubRequest bo trs[k] := by
  have hfile : host16 _ (3 * k) = trs[k].1 := Option.some.inj (host16_triple trs hk (n := 0) (by decide))
  have hrecord : host16 _ (3 * k + 1) = trs[k].2.1 := Option.some.inj (host16_triple trs hk (n := 1) (by decide))
  have hlength : host16 _ (3 * k + 2) = trs[k].2.2 := Option.some.inj (host16_triple trs hk (n := 2) (by decide))
  rw [readSubRequest, encWords_eq, wireSubRequest, hfile, hrecord, hlength]

/-- All triples the host staged, read back one by one. -/
theorem flatMap_readSubRequest_host (bo : ByteOrder) :
    (List.range trs.length).flatMap (readSubRequest bo (trs.flatMap fun r => hostList [r.1, r.2.1, r.2.2]))
      = trs.flatMap (wireSubRequest bo) := by
  rw [List.flatMap_def, List.flatMap_def]
  congr 1
  refine List.ext_getElem (by simp) fun k _ hk => ?_
  rw [List.getElem_map, List.getElem_map, List.getElem_range]
  exact readSubRequest_host trs bo _

end Triples

section ReadFile

variable {s : State}

theorem readFilePayload_overflow (hover : s.cfg.bufBytes < s.inLen.toNat) : readFilePayload s = .error .overflow := by
  rw [readFilePayload, if_pos ((inputTooLong_iff s).mpr hover)]

theorem readFilePayload_empty (hzero : s.inLen = 0) : readFilePayload s = .error .empty := by
  rw [readFilePayload, inputTooLong_of_empty hzero, if_neg Bool.false_ne_true, if_pos (by simp [hzero])]

theorem readFilePayload_length (hfit : s.inLen.toNat ≤ s.cfg.bufBytes) (hpart : s.inLen.toNat % 6 ≠ 0) :
    readFilePayload s = .error .length := by
  rw [readFilePayload, inputTooLong_eq_false hfit, if_neg Bool.false_ne_true, if_neg (by omega), if_pos hpart]

/-- The payload of SET_RFR on the triples the host staged. -/
theorem readFilePayload_host {trs : List (Half × Half × Half)} (hfit : s.inLen.toNat ≤ s.cfg.bufBytes)
    (hne : trs ≠ []) (hin : s.input = trs.flatMap fun r => hostList [r.1, r.2.1, r.2.2]) :
    readFilePayload s = if 36 < trs.length then .error .limit
      else .ok (BitVec.ofNat 8 (7 * trs.length) :: trs.flatMap (wireSubRequest s.bo)) := by
  have hlen : s.inLen.toNat = 6 * trs.length := by
    rw [← input_length, hin, length_flatMap_of_const (n := 6) (fun r => by simp)]
  have hpos : 0 < trs.length := List.length_pos_iff.mpr hne
  have hcount : s.inLen.toNat / 6 = trs.length := by omega
  rw [readFilePayload, inputTooLong_eq_false hfit, if_neg Bool.false_ne_true, if_neg (by omega), if_neg (by omega),
    hcount, hin, flatMap_readSubRequest_host]
  exact if_congr (by omega) rfl rfl

end ReadFile

/-! ### Records (43_pdu.md R119) -/

/-- A record on the wire, from the file, record and data the host staged. -/
def wireRecord (bo : ByteOrder) (r : Half × Half × List Half) : List Byte :=
  0x06 :: wireList bo (r.1 :: r.2.1 :: BitVec.ofNat 16 r.2.2.length :: r.2.2)

theorem writeSubRequest_toRec (bo : ByteOrder) (r : Half × Half × List Half) :
    writeSubRequest bo (toRec r) = wireRecord bo r := by
  rw [writeSubRequest, encWords_eq, wireRecord, toRec]

section Records

variable (recs : List (Half × Half × List Half))

theorem flatMap_wireRecord_length (bo : ByteOrder) :
    (recs.flatMap (wireRecord bo)).length = (recs.map fun r => 7 + 2 * r.2.2.length).sum := by
  rw [List.length_flatMap]
  congr 2
  funext r
  simp only [wireRecord, List.length_cons, wireList_length]
  omega

theorem length_le_hostRecords_length : recs.length ≤ (hostRecords recs).length := by
  induction recs with
  | nil => exact Nat.zero_le _
  | cons r rs ih =>
    rw [hostRecords_cons, List.length_append, hostList_length, List.length_cons, List.length_cons]
    omega

end Records

section WriteFile

variable {s : State}

theorem writeFilePayload_overflow (hover : s.cfg.bufBytes < s.inLen.toNat) :
    writeFilePayload s = .error .overflow := by
  rw [writeFilePayload, if_pos ((inputTooLong_iff s).mpr hover)]

theorem writeFilePayload_empty (hzero : s.inLen = 0) : writeFilePayload s = .error .empty := by
  rw [writeFilePayload, inputTooLong_of_empty hzero, if_neg Bool.false_ne_true, if_pos (by simp [hzero])]

/-- What is read without an error is a list of records (`fileRecords_ok`), and the one error is LENGTH. -/
theorem writeFilePayload_length (hfit : s.inLen.toNat ≤ s.cfg.bufBytes)
    (hno : ∀ recs, s.input ≠ hostRecords recs) : writeFilePayload s = .error .length := by
  have hpos : s.inLen.toNat ≠ 0 := fun hzero =>
    hno [] (List.eq_nil_of_length_eq_zero ((input_length s).trans hzero))
  rw [writeFilePayload, inputTooLong_eq_false hfit, if_neg Bool.false_ne_true, if_neg hpos]
  cases hread : fileRecords s.input (s.inLen.toNat + 1) 0 with
  | error e => rw [fileRecords_error hread]
  | ok recs => exact absurd (fileRecords_ok s.input _ 0 0 recs rfl hread) (hno _)

/-- The payload of SET_WFR on the records the host staged. -/
theorem writeFilePayload_host {recs : List (Half × Half × List Half)} (hfit : s.inLen.toNat ≤ s.cfg.bufBytes)
    (hne : recs ≠ []) (hin : s.input = hostRecords recs) :
    writeFilePayload s = if 255 < (recs.map fun r => 7 + 2 * r.2.2.length).sum then .error .limit
      else .ok (BitVec.ofNat 8 (recs.map fun r => 7 + 2 * r.2.2.length).sum :: recs.flatMap (wireRecord s.bo)) := by
  have hlen : (hostRecords recs).length = s.inLen.toNat := by rw [← hin, input_length]
  have hcount := length_le_hostRecords_length recs
  have hpos : 0 < recs.length := List.length_pos_iff.mpr hne
  have hshort : ∀ r ∈ recs, r.2.2.length < 65536 := fun r hr => by
    have hr := hostRecords_mem recs r hr
    have hreg := s.inLen.isLt
    omega
  have hread : fileRecords (hostRecords recs) (s.inLen.toNat + 1) 0 = .ok (recs.map toRec) :=
    fileRecords_host recs [] 0 _ rfl (by omega) hshort
  rw [writeFilePayload, inputTooLong_eq_false hfit, if_neg Bool.false_ne_true, if_neg (by omega), hin, hread]
  simp only [recordBytes_map recs hshort, List.flatMap_map, writeSubRequest_toRec]

end WriteFile

/-! ### The obligations -/

/-- Settles O30: each sub-request takes 7 bytes, so LIMIT and the OVERFLOW of the payload are bounds on the number of
triples. -/
theorem setRfrWritesTheSubRequests : Obligations.SetRfrWritesTheSubRequests := by
  intro s hw
  have hset := exec_setRfr_eq s
  refine ⟨setter_fault hset, fun hfc hover => setter_error hset hfc (readFilePayload_overflow hover),
    fun hfc hzero => setter_error hset hfc (readFilePayload_empty hzero),
    fun hfc hfit hpart => setter_error hset hfc (readFilePayload_length hfit hpart), fun trs hfc hfit hne hin => ?_⟩
  have hpayload := readFilePayload_host hfit hne hin
  have hlen : (BitVec.ofNat 8 (7 * trs.length) :: trs.flatMap (wireSubRequest s.bo)).length = 1 + 7 * trs.length := by
    rw [List.length_cons, length_flatMap_of_const (wireSubRequest_length s.bo), Nat.add_comm]
  refine ⟨fun hmany => ?_, fun hfew hover => ?_, fun hfew hroom => ?_⟩
  · exact setter_error hset hfc (hpayload.trans (if_pos hmany))
  · exact setter_overflow hset hfc (hpayload.trans (if_neg (Nat.not_lt.mpr hfew))) (hover.trans_eq hlen.symm)
  · exact setter_writes hset hw hfc (hpayload.trans (if_neg (Nat.not_lt.mpr hfew))) (hlen.trans_le hroom)

/-- Settles O31: reading IN gives back exactly the records the host staged, and fails on everything else. -/
theorem setWfrWritesTheRecords : Obligations.SetWfrWritesTheRecords := by
  intro s hw
  have hset := exec_setWfr_eq s
  refine ⟨setter_fault hset, fun hfc hover => setter_error hset hfc (writeFilePayload_overflow hover),
    fun hfc hzero => setter_error hset hfc (writeFilePayload_empty hzero),
    fun hfc hfit hno => setter_error hset hfc (writeFilePayload_length hfit hno), fun recs hfc hfit hne hin => ?_⟩
  have hpayload := writeFilePayload_host hfit hne hin
  have hlen : (BitVec.ofNat 8 (recs.map fun r => 7 + 2 * r.2.2.length).sum :: recs.flatMap (wireRecord s.bo)).length
      = 1 + (recs.map fun r => 7 + 2 * r.2.2.length).sum := by
    rw [List.length_cons, flatMap_wireRecord_length, Nat.add_comm]
  refine ⟨fun hmany => ?_, fun hfew hover => ?_, fun hfew hroom => ?_⟩
  · exact setter_error hset hfc (hpayload.trans (if_pos hmany))
  · exact setter_overflow hset hfc (hpayload.trans (if_neg (Nat.not_lt.mpr hfew))) (hover.trans_eq hlen.symm)
  · exact setter_writes hset hw hfc (hpayload.trans (if_neg (Nat.not_lt.mpr hfew))) (hlen.trans_le hroom)

end Sys2Proof.Machine
end

section
/-! The RTU framer commands (44_rtu.md R125-R137): what an encoder sends, the checks of a decoder and what its commit
sets, and the length a completeness check asks for; the obligations O34 to O37. -/

namespace Sys2Proof.Machine

/-! ### Encoders (44_rtu.md R125-R127) -/

section Encoders

variable {s : State}

theorem exec_rtuEncReq_eq (s : State) :
    exec .rtuEncReq s = emitFrame (RequestMessage s ++ crcTail (RequestMessage s)) s := by
  rw [← rtuFrame_eq]
  rfl

theorem exec_rtuEncRsp_eq (s : State) : exec .rtuEncRsp s = emitFrame (rtuFrame (responseMessage s)) s := rfl

theorem exec_rtuEncRsp_real (hreal : RealException s) :
    exec .rtuEncRsp s = emitFrame (ExceptionMessage s ++ crcTail (ExceptionMessage s)) s := by
  rw [exec_rtuEncRsp_eq, responseMessage_real hreal, rtuFrame_eq]

/-- Any response but a real exception is sent as a request would be (10_state.md R34). -/
theorem exec_rtuEncRsp_normal (hreal : ¬ RealException s) : exec .rtuEncRsp s = exec .rtuEncReq s := by
  rw [exec_rtuEncRsp_eq, responseMessage_normal hreal, rtuFrame_eq, exec_rtuEncReq_eq]

theorem emitFrame_writes (hw : s.cfg.wf = true) (hfc : s.fc ∈ s.cfg.supportedFc) {frame : List Byte}
    (hroom : frame.length ≤ s.cfg.bufBytes) : ∃ t, emitFrame frame s = .next t ∧ WroteOutput frame s t := by
  have hmax := (params_bufBytes hw).2
  exact ⟨_, emitFrame_ok hfc hroom, wroteOutput_finishOk (by omega) s⟩

theorem requestFrame_length (s : State) :
    (RequestMessage s ++ crcTail (RequestMessage s)).length = s.pduLen.toNat + 4 := by
  rw [List.length_append, requestMessage_length, crcTail_length]

theorem exec_rtuEncReq_overflow (hfc : s.fc ∈ s.cfg.supportedFc) (hover : s.cfg.bufBytes < s.pduLen.toNat + 4) :
    exec .rtuEncReq s = .next (afterError .overflow s) := by
  rw [exec_rtuEncReq_eq]
  exact emitFrame_overflow hfc (hover.trans_eq (requestFrame_length s).symm)

theorem exec_rtuEncReq_writes (hw : s.cfg.wf = true) (hfc : s.fc ∈ s.cfg.supportedFc)
    (hroom : s.pduLen.toNat + 4 ≤ s.cfg.bufBytes) :
    ∃ t, exec .rtuEncReq s = .next t ∧ WroteOutput (RequestMessage s ++ crcTail (RequestMessage s)) s t := by
  rw [exec_rtuEncReq_eq]
  exact emitFrame_writes hw hfc ((requestFrame_length s).trans_le hroom)

/-- The 5 bytes of an exception fit the smallest OUT_BUF. -/
theorem exec_rtuEncRsp_exception_writes (hw : s.cfg.wf = true) (hfc : s.fc ∈ s.cfg.supportedFc)
    (hreal : RealException s) :
    ∃ t, exec .rtuEncRsp s = .next t ∧ WroteOutput (ExceptionMessage s ++ crcTail (ExceptionMessage s)) s t := by
  have hlen : (ExceptionMessage s ++ crcTail (ExceptionMessage s)).length = 5 := rfl
  have hmin := (params_bufBytes hw).1
  rw [exec_rtuEncRsp_real hreal]
  exact emitFrame_writes hw hfc (by omega)

end Encoders

/-! ### Decoders (44_rtu.md R128) -/

section Decoders

variable {s : State}

theorem exec_rtuDecReq_eq (s : State) : exec .rtuDecReq s = decodeFrame (rtuMessage s) decodeRequest s := rfl

theorem exec_rtuDecRsp_eq (s : State) : exec .rtuDecRsp s = decodeFrame (rtuMessage s) decodeResponse s := rfl

theorem rtuMessage_overflow (hover : s.cfg.bufBytes < s.inLen.toNat) : rtuMessage s = .error .overflow := by
  rw [rtuMessage, if_pos ((inputTooLong_iff s).mpr hover)]

theorem rtuMessage_length (hfit : s.inLen.toNat ≤ s.cfg.bufBytes) (hshort : s.inLen.toNat < 4) :
    rtuMessage s = .error .length := by
  rw [rtuMessage, inputTooLong_eq_false hfit, if_neg Bool.false_ne_true, if_pos hshort]

theorem rtuMessage_crc (hfit : s.inLen.toNat ≤ s.cfg.bufBytes) (hlong : 4 ≤ s.inLen.toNat)
    (hno : ∀ d, s.input ≠ d ++ crcTail d) : rtuMessage s = .error .crc := by
  have hcrc : ¬ crcMatches s.input = true := fun hm => by
    obtain ⟨d, hd⟩ := (crcMatches_iff (by rw [input_length]; omega)).mp hm
    exact hno d hd
  rw [rtuMessage, inputTooLong_eq_false hfit, if_neg Bool.false_ne_true, if_neg (Nat.not_lt.mpr hlong), if_neg hcrc]

/-- Both decoders make the checks of R128, whatever they commit. -/
theorem rtuFrameChecks_of_eq {i : Instr} {commit : List Byte → State → Answer}
    (hexec : exec i s = decodeFrame (rtuMessage s) commit s) : RtuFrameChecks i s := by
  refine ⟨fun hover => ?_, fun hfit hshort => ?_, fun hfit hlong hno => ?_⟩
  · exact hexec.trans (decodeFrame_error (rtuMessage_overflow hover) commit s)
  · exact hexec.trans (decodeFrame_error (rtuMessage_length hfit hshort) commit s)
  · exact hexec.trans (decodeFrame_error (rtuMessage_crc hfit hlong hno) commit s)

/-- A message that came in through IN is shorter than IN_LEN can say, so its payload fits PDU_LEN. -/
theorem message_length_lt {d : List Byte} (hin : s.input = d ++ crcTail d) : d.length < 65536 := by
  have hlen : s.inLen.toNat = d.length + 2 := by rw [← input_length, hin, List.length_append, crcTail_length]
  have hmax := s.inLen.isLt
  omega

end Decoders

/-! ### Completeness checks (44_rtu.md R135-R137) -/

section Completeness

variable {s : State}

theorem exec_rtuChkReq_eq (s : State) : exec .rtuChkReq s = checkComplete (requestLength s.input) s := rfl

theorem exec_rtuChkRsp_eq (s : State) : exec .rtuChkRsp s = checkComplete (responseLength s.cfg s.input) s := rfl

theorem minRequest_eq (f : Byte) : minRequest f = if 1 ≤ f.toNat ∧ f.toNat ≤ 6 then 8 else 4 := by
  rw [minRequest]
  refine if_congr ?_ rfl rfl
  simp only [← BitVec.toNat_inj, BitVec.reduceToNat]
  omega

theorem requestLength_input_none (hshort : s.inLen.toNat < 2) : requestLength s.input = none :=
  if_pos (by rwa [input_length])

theorem requestLength_input (hlong : 2 ≤ s.inLen.toNat) :
    requestLength s.input
      = some (if 1 ≤ (s.byteAt .inBuf 1).toNat ∧ (s.byteAt .inBuf 1).toNat ≤ 6 then 8 else 4) := by
  rw [requestLength, if_neg (by rw [input_length]; omega), byteOf_input s hlong, minRequest_eq]

/-- From two bytes on, the function code of a response tells its length, or that the byte count does (R137). -/
theorem responseLength_input (hlong : 2 ≤ s.inLen.toNat) :
    responseLength s.cfg s.input
      = if 128 ≤ (s.byteAt .inBuf 1).toNat then some 5
        else if s.byteAt .inBuf 1 ∈ s.cfg.bcCodes then
          if s.inLen.toNat < 3 then none else some (3 + (byteOf s.input 2).toNat + 2)
        else if s.byteAt .inBuf 1 ∈ s.cfg.wsCodes then some 8
        else some (if 1 ≤ (s.byteAt .inBuf 1).toNat ∧ (s.byteAt .inBuf 1).toNat ≤ 6 then 8 else 4) := by
  rw [responseLength, if_neg (by rw [input_length]; omega), byteOf_input s hlong, input_length, minRequest_eq]
  simp only [exceptionBit_eq, decide_eq_true_eq, List.contains_iff_mem]

theorem responseLength_input_none
    (h : s.inLen.toNat < 2
      ∨ ((s.byteAt .inBuf 1).toNat < 128 ∧ s.byteAt .inBuf 1 ∈ s.cfg.bcCodes ∧ s.inLen.toNat < 3)) :
    responseLength s.cfg s.input = none := by
  rcases Nat.lt_or_ge s.inLen.toNat 2 with hshort | hlong
  · exact if_pos (by rwa [input_length])
  · obtain hshort | ⟨hnormal, hbc, hno⟩ := h
    · omega
    · rw [responseLength_input hlong, if_neg (Nat.not_le.mpr hnormal), if_pos hbc, if_pos hno]

theorem responseLength_input_some (hlong : 2 ≤ s.inLen.toNat)
    (hcount : (s.byteAt .inBuf 1).toNat < 128 → s.byteAt .inBuf 1 ∈ s.cfg.bcCodes → 3 ≤ s.inLen.toNat) :
    responseLength s.cfg s.input
      = some (if 128 ≤ (s.byteAt .inBuf 1).toNat then 5
          else if s.byteAt .inBuf 1 ∈ s.cfg.bcCodes then 3 + (s.byteAt .inBuf 2).toNat + 2
          else if s.byteAt .inBuf 1 ∈ s.cfg.wsCodes then 8
          else if 1 ≤ (s.byteAt .inBuf 1).toNat ∧ (s.byteAt .inBuf 1).toNat ≤ 6 then 8 else 4) := by
  rw [responseLength_input hlong]
  by_cases hexc : 128 ≤ (s.byteAt .inBuf 1).toNat
  · rw [if_pos hexc, if_pos hexc]
  rw [if_neg hexc, if_neg hexc]
  by_cases hbc : s.byteAt .inBuf 1 ∈ s.cfg.bcCodes
  · have hthree : 3 ≤ s.inLen.toNat := hcount (Nat.lt_of_not_le hexc) hbc
    rw [if_pos hbc, if_pos hbc, if_neg (Nat.not_lt.mpr hthree), byteOf_input s hthree]
  · rw [if_neg hbc, if_neg hbc, apply_ite some (s.byteAt .inBuf 1 ∈ s.cfg.wsCodes)]

/-- A check that can tell the length gives the verdict on it. -/
theorem checkComplete_spec (hfit : s.inLen.toNat ≤ s.cfg.bufBytes) {needed : Option Nat} {e : Nat}
    (hneeded : needed = some e) :
    ∃ t e', checkComplete needed s = .next t
      ∧ WroteResult (decide (e' ≤ s.inLen.toNat)) (BitVec.ofNat 32 e') s t ∧ e' = e := by
  obtain ⟨t, hnext, hwrote⟩ := checkComplete_some hfit hneeded
  exact ⟨t, e, hnext, hwrote, rfl⟩

end Completeness

/-! ### The obligations -/

/-- Settles O34: both encoders are `emitFrame` of a frame whose length follows from the message. -/
theorem rtuEncodersBuildTheFrame : Obligations.RtuEncodersBuildTheFrame := by
  intro s hw
  refine ⟨fun hfc => ?_, exec_rtuEncReq_overflow, exec_rtuEncReq_writes hw, fun hfc => ?_,
    exec_rtuEncRsp_exception_writes hw, fun hfc hreal hover => ?_, fun hfc hreal hroom => ?_⟩
  · exact emitFrame_badFc hfc _
  · exact emitFrame_badFc hfc _
  · exact (exec_rtuEncRsp_normal hreal).trans (exec_rtuEncReq_overflow hfc hover)
  · rw [exec_rtuEncRsp_normal hreal]
    exact exec_rtuEncReq_writes hw hfc hroom

/-- Settles O35: a frame that passes the checks gives its message to `decodeRequest`. -/
theorem rtuDecodeRequestSetsThePdu : Obligations.RtuDecodeRequestSetsThePdu := by
  refine ⟨fun s => rtuFrameChecks_of_eq (exec_rtuDecReq_eq s), fun s d hfit hin hlong => ?_⟩
  rw [exec_rtuDecReq_eq, decodeFrame_ok (rtuMessage_good hfit hin hlong)]
  obtain ⟨t, k, a, b, hnext, hwrote, hfc, hview⟩ := decodeRequest_spec (message_length_lt hin) s
  exact ⟨t, k, a, b, hnext, hwrote, hfc ▸ hview⟩

/-- Settles O36: a frame that passes the checks gives its message to `decodeResponse`, which bit 7 of the function code
and the length of the message divide into three cases. -/
theorem rtuDecodeResponseSetsThePdu : Obligations.RtuDecodeResponseSetsThePdu := by
  refine ⟨fun s => rtuFrameChecks_of_eq (exec_rtuDecRsp_eq s), fun s d hfit hin hlong => ?_⟩
  rw [exec_rtuDecRsp_eq, decodeFrame_ok (rtuMessage_good hfit hin hlong)]
  exact ⟨fun hexc hshort => decodeResponse_short hshort hexc s, fun hexc hcode => decodeResponse_exception hcode hexc s,
    fun hnormal => decodeResponse_normal (message_length_lt hin) hnormal s⟩

/-- Settles O37: both checks are `checkComplete` of a length that the first bytes of IN give, or do not give yet. -/
theorem rtuCompletenessChecks : Obligations.RtuCompletenessChecks := by
  intro s
  rw [exec_rtuChkReq_eq, exec_rtuChkRsp_eq]
  refine ⟨fun hover => checkComplete_overflow hover _,
    fun hfit hshort => checkComplete_none hfit (requestLength_input_none hshort),
    fun hfit hlong => checkComplete_spec hfit (requestLength_input hlong),
    fun hover => checkComplete_overflow hover _,
    fun hfit hnone => checkComplete_none hfit (responseLength_input_none hnone),
    fun hfit hlong hcount => checkComplete_spec hfit (responseLength_input_some hlong hcount)⟩

end Sys2Proof.Machine
end

section
/-! The ASCII framer commands (45_ascii.md R141-R150): what an encoder sends, the steps of a decoder and what its commit
sets, and the frame that the scan of ASC_CHK finds; the obligations O40 to O43. -/

namespace Sys2Proof.Machine

/-! ### Encoders (45_ascii.md R143-R145) -/

section AsciiEncoders

variable {s : State}

theorem exec_ascEncReq_eq (s : State) : exec .ascEncReq s = emitFrame (asciiFrame (RequestMessage s)) s := rfl

theorem exec_ascEncRsp_eq (s : State) : exec .ascEncRsp s = emitFrame (asciiFrame (responseMessage s)) s := rfl

/-- Any response but a real exception is sent as a request would be (10_state.md R34). -/
theorem exec_ascEncRsp_normal (hreal : ¬ RealException s) : exec .ascEncRsp s = exec .ascEncReq s := by
  rw [exec_ascEncRsp_eq, responseMessage_normal hreal, exec_ascEncReq_eq]

/-- An encoder whose frame has room sends the uppercase hex of the message and its LRC. -/
theorem emitFrame_asciiFrame_writes (hw : s.cfg.wf = true) (hfc : s.fc ∈ s.cfg.supportedFc) {m : List Byte}
    (hroom : 2 * m.length + 5 ≤ s.cfg.bufBytes) :
    ∃ t text, emitFrame (asciiFrame m) s = .next t ∧ UpperHexOf text (m ++ [lrcRef m])
      ∧ WroteOutput (0x3A :: text ++ [0x0D, 0x0A]) s t := by
  obtain ⟨t, hnext, hwrote⟩ := emitFrame_writes hw hfc ((asciiFrame_length m).trans_le hroom)
  exact ⟨t, hexEnc (m ++ [lrcRef m]), hnext, upperHexOf_hexEnc _, asciiFrame_eq m ▸ hwrote⟩

theorem exec_ascEncReq_overflow (hfc : s.fc ∈ s.cfg.supportedFc)
    (hover : s.cfg.bufBytes < 2 * s.pduLen.toNat + 9) : exec .ascEncReq s = .next (afterError .overflow s) := by
  rw [exec_ascEncReq_eq]
  refine emitFrame_overflow hfc ?_
  rw [asciiFrame_length, requestMessage_length]
  omega

theorem exec_ascEncReq_writes (hw : s.cfg.wf = true) (hfc : s.fc ∈ s.cfg.supportedFc)
    (hroom : 2 * s.pduLen.toNat + 9 ≤ s.cfg.bufBytes) :
    ∃ t text, exec .ascEncReq s = .next t ∧ UpperHexOf text (RequestMessage s ++ [lrcRef (RequestMessage s)])
      ∧ WroteOutput (0x3A :: text ++ [0x0D, 0x0A]) s t := by
  rw [exec_ascEncReq_eq]
  refine emitFrame_asciiFrame_writes hw hfc ?_
  rw [requestMessage_length]
  omega

/-- The 11 characters of an exception fit the smallest OUT_BUF (30_encoding.md R80). -/
theorem exec_ascEncRsp_exception_writes (hw : s.cfg.wf = true) (hfc : s.fc ∈ s.cfg.supportedFc)
    (hreal : RealException s) :
    ∃ t text, exec .ascEncRsp s = .next t ∧ UpperHexOf text (ExceptionMessage s ++ [lrcRef (ExceptionMessage s)])
      ∧ WroteOutput (0x3A :: text ++ [0x0D, 0x0A]) s t := by
  have hlen : (ExceptionMessage s).length = 3 := rfl
  have hmin := (params_bufBytes hw).1
  rw [exec_ascEncRsp_eq, responseMessage_real hreal]
  exact emitFrame_asciiFrame_writes hw hfc (by omega)

end AsciiEncoders

/-! ### Decoders (45_ascii.md R146) -/

section AsciiDecoders

variable {s : State}

theorem exec_ascDecReq_eq (s : State) : exec .ascDecReq s = decodeFrame (asciiMessage s) decodeRequest s := rfl

theorem exec_ascDecRsp_eq (s : State) : exec .ascDecRsp s = decodeFrame (asciiMessage s) decodeResponse s := rfl

theorem asciiMessage_overflow (hover : s.cfg.bufBytes < s.inLen.toNat) : asciiMessage s = .error .overflow := by
  rw [asciiMessage, if_pos ((inputTooLong_iff s).mpr hover)]

theorem asciiMessage_of_text_error (hfit : s.inLen.toNat ≤ s.cfg.bufBytes) {e : Err}
    (htext : asciiText s.input = .error e) : asciiMessage s = .error e := by
  rw [asciiMessage, inputTooLong_eq_false hfit, if_neg Bool.false_ne_true, htext]

theorem asciiMessage_of_text_ok (hfit : s.inLen.toNat ≤ s.cfg.bufBytes) {text : List Byte}
    (htext : asciiText s.input = .ok text) : asciiMessage s = textMessage text := by
  rw [asciiMessage, inputTooLong_eq_false hfit, if_neg Bool.false_ne_true, htext]

/-- Both decoders make the steps of R146, whatever they commit. -/
theorem asciiFrameChecks_of_eq {i : Instr} {commit : List Byte → State → Answer}
    (hexec : exec i s = decodeFrame (asciiMessage s) commit s) : AsciiFrameChecks i s := by
  have hfails {e : Err} (hm : asciiMessage s = .error e) : exec i s = .next (afterError e s) :=
    hexec.trans (decodeFrame_error hm commit s)
  refine ⟨fun hover => hfails (asciiMessage_overflow hover), fun hfit hstart => ?_, fun text hfit hcr hin => ?_,
    fun text tail hfit hcr hin => ?_⟩
  · exact hfails (asciiMessage_of_text_error hfit (asciiText_no_colon hstart))
  · exact hfails (asciiMessage_of_text_error hfit (hin ▸ asciiText_no_cr hcr))
  have htext := hin ▸ asciiText_cr (tail := tail) hcr
  have hmessage (hlf : tail.head? = some 0x0A) : asciiMessage s = textMessage text :=
    asciiMessage_of_text_ok hfit (htext.trans (if_pos hlf))
  refine ⟨fun hno => ?_, fun hlf hodd => ?_, fun hlf heven hchar => ?_, fun m hlf hspells => ⟨fun hlrc => ?_,
    fun hne hsum hshort => ?_⟩⟩
  · exact hfails (asciiMessage_of_text_error hfit (htext.trans (if_neg hno)))
  · exact hfails ((hmessage hlf).trans (textMessage_odd hodd))
  · exact hfails ((hmessage hlf).trans (textMessage_noDigit heven hchar))
  · exact hfails ((hmessage hlf).trans ((textMessage_spells hspells).trans (if_pos hlrc)))
  · have hgood : ¬ (m = [] ∨ byteSum m % 256 ≠ 0) := fun h => h.elim hne fun h => h hsum
    exact hfails ((hmessage hlf).trans ((textMessage_spells hspells).trans ((if_neg hgood).trans (if_pos hshort))))

/-- A message that came in through IN as text is shorter than IN_LEN can say, so its payload fits PDU_LEN. -/
theorem spelled_message_length_lt {d text junk : List Byte} (hspells : Spells text (d ++ [lrcRef d]))
    (hin : s.input = 0x3A :: text ++ 0x0D :: 0x0A :: junk) : d.length < 65536 := by
  have hlen := congrArg List.length hin
  have htext := hspells.1
  have hmax := s.inLen.isLt
  simp only [input_length, List.cons_append, List.length_cons, List.length_append] at hlen htext
  omega

end AsciiDecoders

/-! ### The frame scan (45_ascii.md R149, R150) -/

section AsciiScan

theorem firstIndex_colon_none {l : List Byte} (h : 0x3A ∉ l) : firstIndex (fun b => b == colon) l = none :=
  firstIndex_none.mpr fun _ hb => beq_false_of_ne (ne_of_mem_of_not_mem hb h)

theorem firstIndex_colon_append {noise : List Byte} (h : 0x3A ∉ noise) (rest : List Byte) :
    firstIndex (fun b => b == colon) (noise ++ 0x3A :: rest) = some noise.length :=
  firstIndex_append (fun _ hb => beq_false_of_ne (ne_of_mem_of_not_mem hb h)) (beq_self_eq_true colon) rest

theorem scanFrame_no_colon {l : List Byte} (h : 0x3A ∉ l) : scanFrame l = none := by
  rw [scanFrame, firstIndex_colon_none h]

/-- Behind the first ':', the scan is the search of the first CR LF. -/
theorem scanFrame_colon {noise : List Byte} (h : 0x3A ∉ noise) (rest : List Byte) :
    scanFrame (noise ++ 0x3A :: rest) = (firstCrLf rest).map fun k => (noise.length, k + 3) := by
  have hdrop : (noise ++ 0x3A :: rest).drop (noise.length + 1) = rest := by simp
  simp only [scanFrame, firstIndex_colon_append h, hdrop]
  cases firstCrLf rest <;> rfl

variable {s : State}

theorem exec_ascChk_overflow (hover : s.cfg.bufBytes < s.inLen.toNat) :
    exec .ascChk s = .next (afterError .overflow s) := by
  rw [exec, execAscChk, if_pos ((inputTooLong_iff s).mpr hover), raiseError_eq]

theorem exec_ascChk_none (hfit : s.inLen.toNat ≤ s.cfg.bufBytes) (hscan : scanFrame s.input = none) :
    ∃ t, exec .ascChk s = .next t ∧ WroteResult false 0 s t := by
  refine ⟨_, ?_, wroteResult_finishOk false 0 s⟩
  rw [exec, execAscChk, inputTooLong_eq_false hfit, if_neg Bool.false_ne_true, hscan]

/-- An offset and a length below 65536 stand whole in the halves of RESULT. -/
theorem exec_ascChk_some (hfit : s.inLen.toNat ≤ s.cfg.bufBytes) {o n : Nat} (hscan : scanFrame s.input = some (o, n))
    (ho : o < 65536) (hn : n < 65536) :
    ∃ t, exec .ascChk s = .next t ∧ WroteResult true (BitVec.ofNat 32 (o + 65536 * n)) s t := by
  have hpack : packHalves (BitVec.ofNat 16 o) (BitVec.ofNat 16 n) = BitVec.ofNat 32 (o + 65536 * n) := by
    rw [packHalves_eq, BitVec.toNat_ofNat, BitVec.toNat_ofNat, Nat.mod_eq_of_lt ho, Nat.mod_eq_of_lt hn]
  refine ⟨_, ?_, wroteResult_finishOk true _ s⟩
  rw [exec, execAscChk, inputTooLong_eq_false hfit, if_neg Bool.false_ne_true, hscan, ← hpack]

end AsciiScan

/-! ### The obligations -/

/-- Settles O40: both encoders are `emitFrame` of an `asciiFrame`, whose length follows from the message. -/
theorem asciiEncodersBuildTheFrame : Obligations.AsciiEncodersBuildTheFrame := by
  intro s hw
  refine ⟨fun hfc => emitFrame_badFc hfc _, exec_ascEncReq_overflow, exec_ascEncReq_writes hw,
    fun hfc => emitFrame_badFc hfc _, exec_ascEncRsp_exception_writes hw, fun hfc hreal hover => ?_,
    fun hfc hreal hroom => ?_⟩
  · exact (exec_ascEncRsp_normal hreal).trans (exec_ascEncReq_overflow hfc hover)
  · rw [exec_ascEncRsp_normal hreal]
    exact exec_ascEncReq_writes hw hfc hroom

/-- Settles O41: a text that passes the steps gives its message to `decodeRequest`. -/
theorem asciiDecodeRequestSetsThePdu : Obligations.AsciiDecodeRequestSetsThePdu := by
  refine ⟨fun s => asciiFrameChecks_of_eq (exec_ascDecReq_eq s), fun s d text junk hfit hspells hin hlong => ?_⟩
  rw [exec_ascDecReq_eq, decodeFrame_ok (asciiMessage_good hfit hspells hin hlong)]
  obtain ⟨t, k, a, b, hnext, hwrote, hfc, hview⟩ := decodeRequest_spec (spelled_message_length_lt hspells hin) s
  exact ⟨t, k, a, b, hnext, hwrote, hfc ▸ hview⟩

/-- Settles O42: a text that passes the steps gives its message to `decodeResponse`, which bit 7 of the function code
and the length of the message divide into three cases. -/
theorem asciiDecodeResponseSetsThePdu : Obligations.AsciiDecodeResponseSetsThePdu := by
  refine ⟨fun s => asciiFrameChecks_of_eq (exec_ascDecRsp_eq s), fun s d text junk hfit hspells hin hlong => ?_⟩
  rw [exec_ascDecRsp_eq, decodeFrame_ok (asciiMessage_good hfit hspells hin hlong)]
  exact ⟨fun hexc hshort => decodeResponse_short hshort hexc s, fun hexc hcode => decodeResponse_exception hcode hexc s,
    fun hnormal => decodeResponse_normal (spelled_message_length_lt hspells hin) hnormal s⟩

/-- Settles O43: `noise` and `body` are what the scan passes over, and both are shorter than IN_LEN can say. -/
theorem asciiCheckFindsTheFirstFrame : Obligations.AsciiCheckFindsTheFirstFrame := by
  intro s
  refine ⟨exec_ascChk_overflow, fun hfit hno => exec_ascChk_none hfit (scanFrame_no_colon hno),
    fun noise rest hfit hnoise hin hrest => exec_ascChk_none hfit ?_,
    fun noise body rest hfit hnoise hin hbody => ?_⟩
  · rw [hin, scanFrame_colon hnoise, firstCrLf_none hrest, Option.map_none]
  · rw [List.append_assoc, List.cons_append] at hin
    have hscan : scanFrame s.input = some (noise.length, body.length + 3) := by
      rw [hin, scanFrame_colon hnoise, firstCrLf_append hbody, Option.map_some]
    have hlen := congrArg List.length hin
    have hmax := s.inLen.isLt
    simp only [input_length, List.length_append, List.length_cons] at hlen
    exact exec_ascChk_some hfit hscan (by omega) (by omega)

end Sys2Proof.Machine
end

section
/-! How a command ends (60_exceptions.md R156, R160), and what a host access does while one is pending (R165); the
obligations O6 and O47. -/

namespace Sys2Proof.Machine

/-! ### The endings of a command (60_exceptions.md R156, R160) -/

/-- Of the forms of `Ends`, all but an error and a fault are a `finishOk`. -/
theorem Ends.threeWays {i : Instr} {s t : State} (h : Ends i s t) :
    (∃ b, Succeeded b t) ∨ (∃ e, e ≠ .none ∧ t = afterError e s) ∨ t = afterFault .contract s := by
  cases h with
  | error e hn he hc => exact .inr (.inl ⟨e, hn, raiseError_eq e s⟩)
  | fault codes hc hf => exact .inr (.inr (raiseFault_eq .contract s))
  | verdict b hc => exact .inl ⟨b, succeeded_finishOk b _⟩
  | result b v hi hc => exact .inl ⟨b, succeeded_finishOk b _⟩
  | output p hi hc hp => exact .inl ⟨true, succeeded_finishOk true _⟩
  | payload k a b p hi hc hp hk hn hb => exact .inl ⟨true, succeeded_finishOk true _⟩
  | message sl fc exb fck e k a b p hi hc hp hk hn hb => exact .inl ⟨true, succeeded_finishOk true _⟩
  | exception sl fc exb fck e hi hc => exact .inl ⟨true, succeeded_finishOk true _⟩

/-! ### The offsets of STATUS and CTRL (10_state.md R17) -/

section Offsets

variable {p : Params} {offset bytes : Nat}

theorem offset_of_locate_status (h : locate p offset bytes = .admitted (.register .status)) : offset = 0x008 := by
  have hmap : ∀ row ∈ registerMap, row.2 = .status → row.1 = 0x008 := by decide
  obtain ⟨-, hrow⟩ := locate_register h
  exact hmap _ hrow rfl

theorem offset_of_locate_ctrl (h : locate p offset bytes = .admitted (.register .ctrl)) : offset = 0x000 := by
  have hmap : ∀ row ∈ registerMap, row.2 = .ctrl → row.1 = 0x000 := by decide
  obtain ⟨-, hrow⟩ := locate_register h
  exact hmap _ hrow rfl

end Offsets

theorem le_toNat_of_getLsbD_31 {v : Word} (h : v.getLsbD 31 = true) : 2 ^ 31 ≤ v.toNat :=
  Nat.ge_two_pow_of_testBit h

/-! ### Host accesses while a command is pending (60_exceptions.md R165) -/

section Pending

variable {s : State} {c : Word} {g : Target} (hs : s.engine = .pending c)

include hs

theorem readAccess_status_of_pending : readAccess (.register .status) s = answerRead s.statusWord s := by
  simp only [readAccess, hs, if_true]

theorem readAccess_hazard (hg : g ≠ .register .status) : readAccess g s = answerRead 0 (raiseFault .hazard s) := by
  simp only [readAccess, hs, if_neg hg]

theorem writeAccess_hazard {v : Word} (hg : ¬ (g = .register .ctrl ∧ v.getLsbD 31 = true)) :
    writeAccess g v s = raiseFault .hazard s := by
  simp only [writeAccess, hs, if_neg hg]

end Pending

/-! ### The obligations -/

/-- Settles O6: every command has one of the forms of `Ends`. -/
theorem everyCommandEndsInOneOfThreeWays : Obligations.EveryCommandEndsInOneOfThreeWays := by
  intro i s
  obtain ⟨t, ht, hends⟩ := exec_ends i s
  exact ⟨t, ht, hends.threeWays⟩

/-- Settles O47: every admitted access addresses a target, and that target is STATUS or CTRL only at its own offset. -/
theorem hazardAccessFaultsThePendingCommand : Obligations.HazardAccessFaultsThePendingCommand := by
  intro s c offset bytes v rest hs ha
  obtain ⟨g, hl⟩ := admitted_locate (p := s.cfg) ha
  refine ⟨fun hi => ?_, fun hi hstatus => ?_, fun hi hreset => ?_⟩
  · have hl' : locate s.cfg 0x008 4 = .admitted (.register .status) := locate_of_mem (by decide) s.cfg
    exact (step_read hi hl').trans (congrArg _ (readAccess_status_of_pending (s := { s with inputs := rest }) hs))
  · have hg : g ≠ .register .status := by
      rintro rfl
      exact hstatus (offset_of_locate_status hl)
    exact (step_read hi hl).trans (congrArg _ (readAccess_hazard (s := { s with inputs := rest }) hs hg))
  · have hg : ¬ (g = .register .ctrl ∧ v.getLsbD 31 = true) := by
      rintro ⟨rfl, hv⟩
      exact hreset ⟨offset_of_locate_ctrl hl, le_toNat_of_getLsbD_31 hv⟩
    exact (step_write hi hl).trans (congrArg _ (writeAccess_hazard (s := { s with inputs := rest }) hs hg))

end Sys2Proof.Machine
end

section
/-! Checksums over a frame and its own checksum (42_checksum.md R102-R104): which frames the verify commands accept,
and that no other byte in one place keeps a frame acceptable; the obligations O19 to O21. -/

namespace Sys2Proof.Machine

/-! ### The CRC residue (42_checksum.md R104) -/

theorem crcRef_append_crcTail (l : List Byte) : crcRef (l ++ crcTail l) = 0 := by
  rw [← crc16_eq, ← crcWire_eq, crc16, crcFrom_append]
  exact crcFrom_wire (crc16 l)

theorem exists_crcTail_iff_residue {l : List Byte} (h : 2 ≤ l.length) : (∃ d, l = d ++ crcTail d) ↔ crcRef l = 0 := by
  refine ⟨fun ⟨d, hd⟩ => hd ▸ crcRef_append_crcTail d, fun hzero => ⟨l.take (l.length - 2), ?_⟩⟩
  have hsplit := split_tail h
  have hres : crcFrom (crc16 (l.take (l.length - 2))) [byteOf l (l.length - 2), byteOf l (l.length - 1)] = 0 := by
    rw [crc16, ← crcFrom_append, ← hsplit]
    exact (crc16_eq l).trans hzero
  rwa [crcFrom_two_eq_zero hres, crcWire_eq] at hsplit

/-- A verify command accepts IN exactly when it is long enough and its CRC is 0. -/
theorem crcVerdict_iff_residue (l : List Byte) :
    (if l.length < 2 then false else crcMatches l) = true ↔ 2 ≤ l.length ∧ crcRef l = 0 := by
  split
  · next hshort => simp [hshort]
  · next hlong =>
    have htwo : 2 ≤ l.length := Nat.le_of_not_lt hlong
    rw [crcMatches_iff htwo, exists_crcTail_iff_residue htwo, and_iff_right htwo]

theorem byteSum_append_lrcRef (l : List Byte) : byteSum (l ++ [lrcRef l]) % 256 = 0 := by
  rw [← sum8_eq_zero_iff, ← lrc8_eq]
  exact sum8_lrc l

/-! ### One changed byte (42_checksum.md R103) -/

section ChangedByte

variable {l : List Byte} {k : Nat} {x : Byte} (hk : k < l.length) (hx : x ≠ byteOf l k)

include hk hx

theorem crcRef_set_ne : crcRef (l.set k x) ≠ crcRef l := by
  rw [← crc16_eq, ← crc16_eq]
  exact crcFrom_set_ne 0xFFFF hk hx

theorem byteSum_set_ne (hsum : byteSum l % 256 = 0) : byteSum (l.set k x) % 256 ≠ 0 := by
  rw [← sum8_eq_zero_iff] at hsum
  rw [Ne, ← sum8_eq_zero_iff, sum8_set l k hk, hsum]
  intro hzero
  exact hx (by bv_omega)

end ChangedByte

theorem xor_two_pow_ne (b : Byte) {j : Nat} (hj : j < 8) : b ^^^ BitVec.ofNat 8 (2 ^ j) ≠ b := by
  intro hsame
  have hzero : BitVec.ofNat 8 (2 ^ j) = 0 := (BitVec.xor_right_inj b).mp (hsame.trans BitVec.xor_zero.symm)
  have hlt : 2 ^ j < 256 := Nat.pow_lt_pow_right (by decide : 1 < 2) hj
  have hpos : 0 < 2 ^ j := Nat.two_pow_pos j
  have hmod : 2 ^ j % 256 = 0 := congrArg BitVec.toNat hzero
  omega

/-! ### Verdicts -/

section Verdict

variable {v : List Byte → Bool} {s t : State}

theorem verdict_succeeded (h : verdict v s = .next t) (ht : Succeeded true t) :
    s.inLen.toNat ≤ s.cfg.bufBytes ∧ v s.input = true := by
  rcases Nat.lt_or_ge s.cfg.bufBytes s.inLen.toNat with hover | hfit
  · rw [verdict_overflow hover, Host.Outcome.next.injEq] at h
    subst h
    exact absurd ht (not_succeeded_raiseError (by decide) true s)
  · rw [verdict_ok hfit, Host.Outcome.next.injEq] at h
    subst h
    exact ⟨hfit, ((succeeded_finishOk_iff _ _ s).mp ht).symm⟩

/-- A verify command rejects a frame with one flipped bit when what it accepts is lost with any changed byte. -/
theorem verdict_detects_flip {s' : State} {P : List Byte → Prop} (hv : ∀ l, v l = true ↔ P l)
    (hP : ∀ (l : List Byte) k x, k < l.length → x ≠ byteOf l k → P l → ¬ P (l.set k x)) {k j : Nat}
    (h : verdict v s = .next t) (ht : Succeeded true t) (hk : k < s.inLen.toNat) (hj : j < 8)
    (hcfg : s'.cfg = s.cfg) (hlen : s'.inLen = s.inLen)
    (hflip : s'.input = s.input.set k (byteOf s.input k ^^^ BitVec.ofNat 8 (2 ^ j))) :
    ∃ t', verdict v s' = .next t' ∧ Succeeded false t' := by
  obtain ⟨hfit, haccept⟩ := verdict_succeeded h ht
  have hreject : v s'.input = false := by
    rw [Bool.eq_false_iff, Ne, hv, hflip]
    exact hP _ _ _ (by rwa [input_length]) (xor_two_pow_ne _ hj) ((hv _).mp haccept)
  have hfit' : s'.inLen.toNat ≤ s'.cfg.bufBytes := by rwa [hcfg, hlen]
  exact ⟨_, verdict_ok hfit' v, hreject ▸ succeeded_finishOk _ _⟩

end Verdict

/-! ### The obligations -/

/-- Settles O20: a frame verifies by its residue (CRC) or its byte sum (LRC), and one changed byte changes either. -/
theorem singleBitErrorsAreDetected : Obligations.SingleBitErrorsAreDetected := by
  intro i s s' t k j hi h ht hk hj hcfg hlen hflip
  rcases hi with rfl | rfl
  · refine verdict_detects_flip crcVerdict_iff_residue ?_ h ht hk hj hcfg hlen hflip
    rintro l k x hk hx ⟨-, hzero⟩ ⟨-, hzero'⟩
    exact crcRef_set_ne hk hx (hzero'.trans hzero.symm)
  · refine verdict_detects_flip lrcVerdict_iff ?_ h ht hk hj hcfg hlen hflip
    rintro l k x hk hx ⟨-, hsum⟩ ⟨-, hsum'⟩
    exact byteSum_set_ne hk hx hsum hsum'

/-- Settles O19: the verdicts of O18, on a sequence that ends in its own checksum. -/
theorem appendedChecksumVerifies : Obligations.AppendedChecksumVerifies := by
  intro s l hfit
  obtain ⟨⟨b, t, hnext, ⟨hdone, -⟩, hcrc⟩, b', t', hnext', ⟨hdone', -⟩, hlrc⟩ :=
    (verifyCommandsGiveTheVerdict s).2 hfit
  refine ⟨fun hin => ⟨t, hnext, ?_⟩, fun hin => ⟨t', hnext', ?_⟩⟩
  · rwa [hcrc.mpr ⟨l, hin⟩] at hdone
  · rwa [hlrc.mpr ⟨by simp [hin], hin ▸ byteSum_append_lrcRef l⟩] at hdone'

/-- Settles O21: on two bytes or more the verdict of CRC16_VERIFY is that the residue is 0. -/
theorem crcResidueIsZeroExactlyOnValidFrames : Obligations.CrcResidueIsZeroExactlyOnValidFrames := by
  refine ⟨crcRef_append_crcTail, fun s hlong hfit => ?_⟩
  refine ⟨_, (exec_crc16Verify_eq s).trans (verdict_ok hfit _), ?_⟩
  rw [succeeded_finishOk_iff, eq_comm, Bool.eq_iff_iff, crcVerdict_iff_residue, input_length, and_iff_right hlong,
    decide_eq_true_iff]

end Sys2Proof.Machine
end

section
/-! Round trips over the host's copy of OUT to IN (70_reset_and_hazards.md R189): the codec (41_codec.md R93), the span
of a payload (43_pdu.md R123) and the frames of both framers (44_rtu.md R139, R140; 45_ascii.md R153); the obligations
O16, O33, O38, O39 and O44. -/

namespace Sys2Proof.Machine

/-! ### The copy of OUT to IN -/

section Copy

variable {s t u : State} {p : List Byte}

/-- After an encoder and the copy, IN is what was encoded, and the configuration is the encoder's. -/
theorem WroteOutput.copiedBack (h : WroteOutput p s t) (hu : CopiedBack t u) :
    u.cfg = s.cfg ∧ u.bo = s.bo ∧ u.wo = s.wo ∧ u.inLen.toNat = p.length ∧ u.input = p := by
  obtain ⟨-, hlen, hout, -, -, hkept, -⟩ := h
  exact ⟨hu.cfg.trans hkept.cfg, hu.bo.trans hkept.bo, hu.wo.trans hkept.wo, hu.inLen ▸ hlen,
    (input_of_copiedBack hu).trans hout⟩

end Copy

/-! ### The codec (41_codec.md R93) -/

/-- A codec encode and the decode of as many bytes: the decode sees the bytes encoded. -/
theorem encodeValue_copiedBack_decodeValue {s : State} (hw : s.cfg.wf = true) {p : List Byte} (hp : p.length ≤ 4) :
    ∃ t, encodeValue p s = .next t ∧ ∀ u, CopiedBack t u → u.bo = s.bo ∧ u.wo = s.wo ∧
      ∀ v, ∃ w, decodeValue p.length v u = .next w ∧ Succeeded true w ∧ w.result = v p := by
  have hmin := (params_bufBytes hw).1
  obtain ⟨t, hnext, hwrote⟩ := encodeValue_spec (p := p) (by omega) s
  refine ⟨t, hnext, fun u hu => ?_⟩
  obtain ⟨hcfg, hbo, hwo, hlen, hin⟩ := hwrote.copiedBack hu
  refine ⟨hbo, hwo, fun v => ?_⟩
  obtain ⟨w, hdec, hok, hres, -⟩ := decodeValue_spec (s := u) (n := p.length) (by rw [hcfg]; omega) hlen.ge v
  exact ⟨w, hdec, hok, hin ▸ hres⟩

/-- Both 32-bit pairs, whose commands are the same two functions. -/
theorem codec32_roundTrip {i j : Instr} (hi : i = .encU32 ∨ i = .encF32) (hj : j = .decU32 ∨ j = .decF32) {s : State}
    (hw : s.cfg.wf = true) :
    ∃ t, exec i s = .next t ∧ ∀ u, CopiedBack t u →
      ∃ w, exec j u = .next w ∧ Succeeded true w ∧ w.result = s.arg0 := by
  have hlen := enc32_length s.arg0 s.bo s.wo
  obtain ⟨t, hnext, hback⟩ := encodeValue_copiedBack_decodeValue hw hlen.le
  refine ⟨t, ?_, fun u hu => ?_⟩
  · rwa [exec_enc32_eq hi, ← enc32_eq]
  · obtain ⟨hbo, hwo, hdec⟩ := hback u hu
    obtain ⟨w, hw, hok, hres⟩ := hdec (word32Of u)
    refine ⟨w, ?_, hok, ?_⟩
    · rwa [exec_dec32_eq hj, ← hlen]
    · rw [hres, word32Of, hbo, hwo, dec32_enc32]

/-- Settles O16: the decode undoes the encode on the bytes copied, `dec16_enc16` and `dec32_enc32`. -/
theorem codecRoundTrip : Obligations.CodecRoundTrip := by
  intro s hw
  refine ⟨?_, codec32_roundTrip (.inl rfl) (.inl rfl) hw, codec32_roundTrip (.inr rfl) (.inr rfl) hw⟩
  have hlen := enc16_length (arg16 s.arg0) s.bo
  obtain ⟨t, hnext, hback⟩ := encodeValue_copiedBack_decodeValue (p := enc16 (arg16 s.arg0) s.bo) hw (by omega)
  refine ⟨t, hnext, fun u hu => ?_⟩
  obtain ⟨hbo, -, hdec⟩ := hback u hu
  obtain ⟨w, hw, hok, hres⟩ := hdec fun l => (dec16 (byteOf l 0) (byteOf l 1) u.bo).setWidth 32
  refine ⟨w, ?_, hok, ?_⟩
  · rwa [exec_decU16_eq, ← hlen]
  · rw [hres, hbo, dec16_enc16, arg16_eq, low16]
    apply BitVec.eq_of_toNat_eq
    simp

/-! ### The span of a payload (43_pdu.md R123) -/

theorem mem_spanCodes {p : Params} (hw : p.wf = true) {f : Byte} (hf : f ∈ p.spanSetCodes) : f ∈ p.spanCodes := by
  simp only [Params.wf, codesWithin, Bool.and_eq_true, List.all_eq_true, List.contains_iff_mem] at hw
  obtain ⟨⟨⟨⟨-, hsub⟩, -⟩, -⟩, -⟩ := hw
  exact hsub f hf

/-- Settles O33: GET_SPAN reads the two fields SET_SPAN wrote, under the same FC and byte order. -/
theorem setSpanThenGetSpan : Obligations.SetSpanThenGetSpan := by
  intro s hw hfc
  obtain ⟨t, hset, -, hlen, hpay, -, -, -, -, -, hkept, hhead, -⟩ := (setSpanWritesStartAndCount s hw).2 hfc
  have hlen4 : t.pduLen.toNat = 4 := by rw [hlen, wireList_length]; rfl
  have hbyte {i : Nat} (hi : i < 4) :
      t.byteAt .pduBuf i = byteOf (wireList s.bo [low16 s.arg0, low16 s.arg1]) i := by
    rw [← hpay, State.payload, byteOf_bytes t .pduBuf (by omega)]
  have hspan : t.fc ∈ t.cfg.spanCodes := by rw [hhead.fc, hkept.cfg]; exact mem_spanCodes hw hfc
  have hfields := read16_wireList_pair (low16 s.arg0) (low16 s.arg1) s.bo
  rw [List.cons.injEq, List.cons.injEq] at hfields
  obtain ⟨hstart, hcount, -⟩ := hfields
  refine ⟨t, _, hset, exec_getSpan_span hspan hlen4.ge, succeeded_finishOk _ _, ?_⟩
  rw [hbyte (by decide), hbyte (by decide), hbyte (by decide), hbyte (by decide), hkept.bo, hstart, hcount,
    packHalves_eq]
  rfl

/-! ### The messages of the framers -/

/-- What a decoder gives back of the request of `s` (44_rtu.md R139, 45_ascii.md R153). -/
def RequestGivenBack (s w : State) : Prop :=
  Succeeded true w ∧ w.slave = s.slave ∧ w.fc = s.fc ∧ w.payload = s.payload ∧ w.exb = false ∧ w.fck = true
    ∧ ViewOf s.cfg.coilOther s.bo s.fc s.payload w.fkind w.fa w.fb

/-- What a decoder gives back of the response of `s` (44_rtu.md R140, 45_ascii.md R153). -/
def ResponseGivenBack (s w : State) : Prop :=
  Succeeded true w ∧ w.slave = s.slave ∧ w.fc = s.fc ∧ (RealException s → w.exc = s.exc ∧ w.pduLen = 0)
    ∧ (¬ RealException s → w.exc = ⟨true, s.cfg.ackCode⟩ ∧ w.payload = s.payload)

section Messages

variable {s u w : State} (hw : s.cfg.wf = true) (hfc : s.fc ∈ s.cfg.supportedFc)

include hw hfc

/-- The 7-bit code of a message, when it is the FC it was built from. -/
theorem fc_of_toNat_mod {f : Byte} (h : f.toNat = s.fc.toNat % 128) : f = s.fc := by
  have hmax := (params_supportedFc hw hfc).2
  apply BitVec.eq_of_toNat_eq
  omega

theorem WroteMessage.requestGivenBack (hcfg : u.cfg = s.cfg) (hbo : u.bo = s.bo) {k : FieldKind} {a b : Half}
    (h : WroteMessage (RequestMessage s) s.payload ⟨false, 0⟩ k a b u w)
    (hview : ViewOf u.cfg.coilOther u.bo w.fc s.payload k a b) : RequestGivenBack s w := by
  obtain ⟨hok, hslave, hcode, hexb, hfck, -, -, hpay, -, rfl, rfl, rfl, -⟩ := h
  have hmax := (params_supportedFc hw hfc).2
  have hwfc : w.fc = s.fc := fc_of_toNat_mod hw hfc hcode
  refine ⟨hok, hslave, hwfc, hpay, hexb.trans (decide_eq_false ?_), hfck.trans (decide_eq_true ?_), ?_⟩
  · exact Nat.not_le.mpr (Nat.lt_succ_of_le hmax)
  · rwa [hwfc, hcfg]
  · rwa [hcfg, hbo, hwfc] at hview

/-- A decoder that commits a response as an exception or as Acknowledge, by bit 7 of its function code, gives back the
response encoded. -/
theorem responseGivenBack_of_commit {j : Instr} (hcfg : u.cfg = s.cfg)
    (hexc : 128 ≤ (byteOf (responseMessage s) 1).toNat → 3 ≤ (responseMessage s).length → ∃ w, exec j u = .next w ∧
      WroteMessage (responseMessage s) [] ⟨true, byteOf (responseMessage s) 2⟩ .none 0 0 u w)
    (hnormal : (byteOf (responseMessage s) 1).toNat < 128 → ∃ w, exec j u = .next w ∧
      WroteMessage (responseMessage s) ((responseMessage s).drop 2) ⟨true, u.cfg.ackCode⟩ .none 0 0 u w) :
    ∃ w, exec j u = .next w ∧ ResponseGivenBack s w := by
  have hmax := (params_supportedFc hw hfc).2
  by_cases hreal : RealException s
  · have hbit : (byteOf (ExceptionMessage s) 1).toNat = s.fc.toNat + 128 := orBit7_toNat (by omega)
    rw [responseMessage_real hreal] at hexc
    obtain ⟨w, hdec, hok, hslave, hcode, -, -, hwexc, hlen, -⟩ := hexc (by omega) (by exact le_rfl)
    have hwfc : w.fc = s.fc := fc_of_toNat_mod hw hfc (by omega)
    have hsexc : s.exc = ⟨true, s.exc.code⟩ := congrArg (Exc.mk · s.exc.code) hreal.1
    exact ⟨w, hdec, hok, hslave, hwfc, fun _ => ⟨hwexc.trans hsexc.symm, BitVec.eq_of_toNat_eq hlen⟩,
      fun hno => absurd hreal hno⟩
  · rw [responseMessage_normal hreal] at hnormal
    obtain ⟨w, hdec, hok, hslave, hcode, -, -, hwexc, -, hpay, -⟩ := hnormal (Nat.lt_succ_of_le hmax)
    exact ⟨w, hdec, hok, hslave, fc_of_toNat_mod hw hfc hcode, fun h => absurd h hreal,
      fun _ => ⟨hcfg ▸ hwexc, hpay⟩⟩

/-- A frame with room comes back to IN as it was sent, and a decoder finds it no longer than BUF_BYTES. -/
theorem emitFrame_copiedBack {frame : List Byte} (hroom : frame.length ≤ s.cfg.bufBytes) :
    ∃ t, emitFrame frame s = .next t ∧ ∀ u, CopiedBack t u →
      u.cfg = s.cfg ∧ u.bo = s.bo ∧ u.inLen.toNat ≤ u.cfg.bufBytes ∧ u.input = frame := by
  obtain ⟨t, hnext, hwrote⟩ := emitFrame_writes hw hfc hroom
  refine ⟨t, hnext, fun u hu => ?_⟩
  obtain ⟨hcfg, hbo, -, hlen, hin⟩ := hwrote.copiedBack hu
  exact ⟨hcfg, hbo, by rwa [hcfg, hlen], hin⟩

end Messages

/-- A response takes three bytes as an exception and those of a request otherwise. -/
theorem responseMessage_length_le {s : State} {n : Nat} (hn : 3 ≤ n)
    (h : RealException s ∨ s.pduLen.toNat + 2 ≤ n) : (responseMessage s).length ≤ n := by
  by_cases hreal : RealException s
  · rw [responseMessage_real hreal]
    exact hn
  · rw [responseMessage_normal hreal, requestMessage_length]
    exact h.resolve_left hreal

theorem two_le_requestMessage_length (s : State) : 2 ≤ (RequestMessage s).length := by
  rw [requestMessage_length]
  omega

theorem two_le_responseMessage_length (s : State) : 2 ≤ (responseMessage s).length := by
  by_cases hreal : RealException s
  · rw [responseMessage_real hreal]
    exact (by decide : 2 ≤ 3)
  · rw [responseMessage_normal hreal]
    exact two_le_requestMessage_length s

/-! ### RTU (44_rtu.md R139, R140) -/

/-- Settles O38: the frame sent is a frame O35 speaks of, and its message is the request. -/
theorem rtuRequestRoundTrip : Obligations.RtuRequestRoundTrip := by
  intro s hw hfc hroom
  rw [exec_rtuEncReq_eq]
  obtain ⟨t, hnext, hback⟩ := emitFrame_copiedBack hw hfc ((requestFrame_length s).trans_le hroom)
  refine ⟨t, hnext, fun u hu => ?_⟩
  obtain ⟨hcfg, hbo, hfit, hin⟩ := hback u hu
  obtain ⟨w, k, a, b, hdec, hwrote, hview⟩ :=
    rtuDecodeRequestSetsThePdu.2 u (RequestMessage s) hfit hin (two_le_requestMessage_length s)
  exact ⟨w, hdec, hwrote.requestGivenBack hw hfc hcfg hbo hview⟩

/-- Settles O39: the frame sent is a frame O36 speaks of, and its message is the response. -/
theorem rtuResponseRoundTrip : Obligations.RtuResponseRoundTrip := by
  intro s hw hfc hroom
  have hmin := (params_bufBytes hw).1
  have hlen : (responseMessage s).length ≤ s.cfg.bufBytes - 2 :=
    responseMessage_length_le (by omega) (hroom.imp_right fun h => by omega)
  rw [exec_rtuEncRsp_eq, rtuFrame_eq]
  obtain ⟨t, hnext, hback⟩ := emitFrame_copiedBack hw hfc
    (frame := responseMessage s ++ crcTail (responseMessage s)) (by rw [List.length_append, crcTail_length]; omega)
  refine ⟨t, hnext, fun u hu => ?_⟩
  obtain ⟨hcfg, -, hfit, hin⟩ := hback u hu
  obtain ⟨-, hexc, hnormal⟩ :=
    rtuDecodeResponseSetsThePdu.2 u (responseMessage s) hfit hin (two_le_responseMessage_length s)
  exact responseGivenBack_of_commit hw hfc hcfg hexc hnormal

/-! ### ASCII (45_ascii.md R153) -/

section Ascii

variable {s : State} (hw : s.cfg.wf = true) (hfc : s.fc ∈ s.cfg.supportedFc)

include hw hfc

/-- The frame of a message, copied back, is a frame O41 and O42 speak of. -/
theorem asciiFrame_copiedBack {m : List Byte} (hroom : 2 * m.length + 5 ≤ s.cfg.bufBytes) :
    ∃ t, emitFrame (asciiFrame m) s = .next t ∧ ∀ u, CopiedBack t u →
      u.cfg = s.cfg ∧ u.bo = s.bo ∧ u.inLen.toNat ≤ u.cfg.bufBytes
        ∧ u.input = 0x3A :: hexEnc (m ++ [lrcRef m]) ++ 0x0D :: 0x0A :: [] := by
  rw [← asciiFrame_eq]
  exact emitFrame_copiedBack hw hfc ((asciiFrame_length m).trans_le hroom)

theorem ascRequest_roundTrip (hroom : 2 * s.pduLen.toNat + 9 ≤ s.cfg.bufBytes) :
    ∃ t, exec .ascEncReq s = .next t ∧ ∀ u, CopiedBack t u →
      ∃ w, exec .ascDecReq u = .next w ∧ RequestGivenBack s w := by
  have hlen := requestMessage_length s
  rw [exec_ascEncReq_eq]
  obtain ⟨t, hnext, hback⟩ := asciiFrame_copiedBack hw hfc (m := RequestMessage s) (by omega)
  refine ⟨t, hnext, fun u hu => ?_⟩
  obtain ⟨hcfg, hbo, hfit, hin⟩ := hback u hu
  obtain ⟨w, k, a, b, hdec, hwrote, hview⟩ := asciiDecodeRequestSetsThePdu.2 u (RequestMessage s) _ [] hfit
    (spells_hexEnc _) hin (two_le_requestMessage_length s)
  exact ⟨w, hdec, hwrote.requestGivenBack hw hfc hcfg hbo hview⟩

theorem ascResponse_roundTrip (hroom : RealException s ∨ 2 * s.pduLen.toNat + 9 ≤ s.cfg.bufBytes) :
    ∃ t, exec .ascEncRsp s = .next t ∧ ∀ u, CopiedBack t u →
      ∃ w, exec .ascDecRsp u = .next w ∧ ResponseGivenBack s w := by
  have hmin := (params_bufBytes hw).1
  have hlen : (responseMessage s).length ≤ (s.cfg.bufBytes - 5) / 2 :=
    responseMessage_length_le (by omega) (hroom.imp_right fun h => by omega)
  rw [exec_ascEncRsp_eq]
  obtain ⟨t, hnext, hback⟩ := asciiFrame_copiedBack hw hfc (m := responseMessage s) (by omega)
  refine ⟨t, hnext, fun u hu => ?_⟩
  obtain ⟨hcfg, -, hfit, hin⟩ := hback u hu
  obtain ⟨-, hexc, hnormal⟩ := asciiDecodeResponseSetsThePdu.2 u (responseMessage s) _ [] hfit (spells_hexEnc _) hin
    (two_le_responseMessage_length s)
  exact responseGivenBack_of_commit hw hfc hcfg hexc hnormal

end Ascii

/-- Settles O44: requests and responses each come back through the text of their frame. -/
theorem asciiRoundTrip : Obligations.AsciiRoundTrip :=
  fun _ hw hfc => ⟨ascRequest_roundTrip hw hfc, ascResponse_roundTrip hw hfc⟩

end Sys2Proof.Machine
end

section
/-! Corrupted ASCII frames (45_ascii.md R152): a frame of an encoder with one digit changed, or with another LRC, spells
bytes whose sum is not 0; the obligation O45. -/

namespace Sys2Proof.Machine

/-! ### Text that spells a wrong sum -/

/-- Text that spells bytes of a nonzero sum fails with Error(LRC) in both decoders (45_ascii.md R146). -/
theorem exec_ascDec_lrc {j : Instr} (hj : j = .ascDecReq ∨ j = .ascDecRsp) {u : State} {text m : List Byte}
    (hfit : u.inLen.toNat ≤ u.cfg.bufBytes) (hspells : Spells text m)
    (hin : u.input = 0x3A :: text ++ [0x0D, 0x0A]) (hsum : byteSum m % 256 ≠ 0) :
    exec j u = .next (afterError .lrc u) := by
  have hchecks : AsciiFrameChecks j u := by
    rcases hj with rfl | rfl
    · exact asciiFrameChecks_of_eq (exec_ascDecReq_eq u)
    · exact asciiFrameChecks_of_eq (exec_ascDecRsp_eq u)
  have hcr : 0x0D ∉ text := fun hmem => (not_mem_of_spells hspells _ hmem).2.1 rfl
  obtain ⟨-, -, -, hframe⟩ := hchecks
  obtain ⟨-, -, -, hmessage⟩ := hframe text [0x0A] hfit hcr hin
  exact (hmessage m rfl hspells).1 (.inr hsum)

/-- Another digit in place of one of a text that spells a good sum makes it spell a wrong one. -/
theorem spells_set_wrong_sum {t m : List Byte} (h : Spells t m) (hsum : byteSum m % 256 = 0) {k : Nat}
    (hk : k < t.length) {c : Byte} {d d' : Nat} (hd : DigitOf (byteOf t k) d) (hd' : DigitOf c d') (hne : d ≠ d') :
    ∃ m', Spells (t.set k c) m' ∧ byteSum m' % 256 ≠ 0 := by
  obtain ⟨i, x, hi, hx, hs⟩ := spells_set h hk hd hd' hne
  exact ⟨m.set i x, hs, byteSum_set_ne hi hx hsum⟩

/-- A byte that makes the sum of a message 0 is its LRC. -/
theorem eq_lrcRef_of_byteSum {m : List Byte} {x : Byte} (h : byteSum (m ++ [x]) % 256 = 0) : x = lrcRef m := by
  rw [← sum8_eq_zero_iff, sum8_append] at h
  have hx : sum8 [x] = x := BitVec.add_zero x
  rw [hx] at h
  rw [← lrc8_eq, lrc8]
  bv_omega

/-! ### The frame of a message -/

section Frame

variable (m : List Byte)

theorem spells_byte {c1 c2 : Byte} {d1 d2 : Nat} (h1 : DigitOf c1 d1) (h2 : DigitOf c2 d2) :
    Spells [c1, c2] [BitVec.ofNat 8 (16 * d1 + d2)] := by
  refine spells_of_hexPairs ?_
  simp only [hexPairs, (hexVal_some_iff _ _).mpr h1, (hexVal_some_iff _ _).mpr h2]

/-- The two characters of the LRC stand before CR LF. -/
theorem asciiFrame_split : ∃ h l, Spells [h, l] [lrcRef m]
    ∧ asciiFrame m = (0x3A :: hexEnc m) ++ [h, l, 0x0D, 0x0A] := by
  refine ⟨_, _, spells_hexEnc [lrcRef m], ?_⟩
  rw [asciiFrame_eq, hexEnc_append]
  simp [hexEnc]

variable {m} {j : Instr} (hj : j = .ascDecReq ∨ j = .ascDecRsp) {u : State} (hfit : u.inLen.toNat ≤ u.cfg.bufBytes)

include hj hfit

/-- One changed digit between ':' and CR LF. -/
theorem exec_ascDec_changedDigit {k d d' : Nat} {c : Byte} (hlo : 1 ≤ k) (hhi : k + 2 < (asciiFrame m).length)
    (hd : DigitOf (byteOf (asciiFrame m) k) d) (hd' : DigitOf c d') (hne : d ≠ d')
    (hin : u.input = (asciiFrame m).set k c) : exec j u = .next (afterError .lrc u) := by
  obtain ⟨k, rfl⟩ := Nat.exists_eq_add_of_le' hlo
  have hlen := hexEnc_length (m ++ [lrcRef m])
  have hk : k < (hexEnc (m ++ [lrcRef m])).length := by
    rw [asciiFrame_length] at hhi
    rw [hlen, List.length_append, List.length_singleton]
    omega
  rw [asciiFrame_eq, List.cons_append] at hd hin
  have hdigit : byteOf (hexEnc (m ++ [lrcRef m])) k
      = byteOf (0x3A :: (hexEnc (m ++ [lrcRef m]) ++ [0x0D, 0x0A])) (k + 1) := (byteOf_append_left hk).symm
  rw [← hdigit] at hd
  obtain ⟨m', hspells, hsum⟩ := spells_set_wrong_sum (spells_hexEnc _) (byteSum_append_lrcRef m) hk hd hd' hne
  refine exec_ascDec_lrc hj hfit hspells ?_ hsum
  rw [hin, List.set_cons_succ, List.set_append_left _ _ hk, List.cons_append]

/-- Another value in the two characters of the LRC. -/
theorem exec_ascDec_changedLrc {d1 d2 e1 e2 : Nat} {c1 c2 : Byte}
    (he1 : DigitOf (byteOf (asciiFrame m) ((asciiFrame m).length - 4)) e1)
    (he2 : DigitOf (byteOf (asciiFrame m) ((asciiFrame m).length - 3)) e2) (hd1 : DigitOf c1 d1) (hd2 : DigitOf c2 d2)
    (hne : 16 * d1 + d2 ≠ 16 * e1 + e2)
    (hin : u.input = (asciiFrame m).take ((asciiFrame m).length - 4) ++ [c1, c2, 0x0D, 0x0A]) :
    exec j u = .next (afterError .lrc u) := by
  obtain ⟨h, l, hlrc, hframe⟩ := asciiFrame_split m
  have hbody : (asciiFrame m).length - 4 = (0x3A :: hexEnc m).length := by simp [hframe]
  have hlast : (asciiFrame m).length - 3 = (0x3A :: hexEnc m).length + 1 := by simp [hframe]
  rw [hbody, hframe] at he1 hin
  rw [hlast, hframe, byteOf_append_right] at he2
  rw [← Nat.add_zero (0x3A :: hexEnc m).length, byteOf_append_right] at he1
  rw [List.take_left] at hin
  obtain ⟨hh, hl, -⟩ := (spells_cons_iff h l [] (lrcRef m) []).mp hlrc
  have hhigh : e1 = (lrcRef m).toNat / 16 := digitOf_unique he1 hh
  have hlow : e2 = (lrcRef m).toNat % 16 := digitOf_unique he2 hl
  have hspells : Spells (hexEnc m ++ [c1, c2]) (m ++ [BitVec.ofNat 8 (16 * d1 + d2)]) :=
    spells_append (spells_hexEnc m) (spells_byte hd1 hd2)
  refine exec_ascDec_lrc hj hfit hspells ?_ fun hsum => hne ?_
  · rw [hin, List.cons_append, List.cons_append, List.append_assoc]
    rfl
  · have hd1lt := digitOf_lt hd1
    have hd2lt := digitOf_lt hd2
    have hvalue := congrArg BitVec.toNat (eq_lrcRef_of_byteSum hsum)
    rw [BitVec.toNat_ofNat] at hvalue
    omega

end Frame

/-! ### The obligation -/

/-- An encoder that succeeds had room for the frame it leaves in OUT. -/
theorem emitFrame_succeeded {s t : State} {frame : List Byte} (hw : s.cfg.wf = true)
    (h : emitFrame frame s = .next t) (ht : Succeeded true t) :
    frame.length ≤ s.cfg.bufBytes ∧ t.cfg = s.cfg ∧ t.outLen.toNat = frame.length ∧ t.output = frame := by
  have hfails (e : Err) : emitFrame frame s ≠ .next (afterError e s) := fun he => by
    obtain rfl : t = afterError e s := Host.Outcome.next.inj (h.symm.trans he)
    exact Bool.false_ne_true ht.2.2.1
  have hfc : s.fc ∈ s.cfg.supportedFc := by
    by_contra hno
    exact hfails _ (emitFrame_badFc hno frame)
  have hroom : frame.length ≤ s.cfg.bufBytes := by
    by_contra hover
    exact hfails _ (emitFrame_overflow hfc (Nat.lt_of_not_le hover))
  obtain ⟨t', hnext, -, hlen, hout, -, -, hkept, -⟩ := emitFrame_writes hw hfc hroom
  obtain rfl : t = t' := Host.Outcome.next.inj (h.symm.trans hnext)
  exact ⟨hroom, hkept.cfg, hlen, hout⟩

theorem exec_ascEnc_eq {i : Instr} (hi : i = .ascEncReq ∨ i = .ascEncRsp) (s : State) :
    ∃ m, exec i s = emitFrame (asciiFrame m) s := by
  rcases hi with rfl | rfl
  · exact ⟨_, exec_ascEncReq_eq s⟩
  · exact ⟨_, exec_ascEncRsp_eq s⟩

/-- Settles O45: both encoders leave an `asciiFrame` in OUT, and both changes make its text spell a wrong sum. -/
theorem corruptedAsciiFrameFailsWithLrc : Obligations.CorruptedAsciiFrameFailsWithLrc := by
  intro s t u i j hw hi hnext ht hcfg hin hj
  obtain ⟨m, henc⟩ := exec_ascEnc_eq hi s
  obtain ⟨hroom, htcfg, hlen, hout⟩ := emitFrame_succeeded hw (henc.symm.trans hnext) ht
  have hfit : u.inLen.toNat ≤ u.cfg.bufBytes := by rwa [hin, hlen, hcfg, htcfg]
  rw [hlen, hout]
  exact ⟨fun k d d' c hlo hhi hd hd' hne => exec_ascDec_changedDigit hj hfit hlo hhi hd hd' hne,
    fun d1 d2 e1 e2 c1 c2 he1 he2 hd1 hd2 hne => exec_ascDec_changedLrc hj hfit he1 he2 hd1 hd2 hne⟩

end Sys2Proof.Machine
end

section
/-! What a command can read (10_state.md R41): every function of a meaning has one value on two states that agree inside
the lengths, so the commands end in states that agree there; the obligation O58. -/

namespace Sys2Proof.Machine

section Agree

variable {s s' : State} (h : AgreeWithinLengths s s')

include h

/-! ### The lists and messages a command reads -/

theorem valueList_agree (count : Half) : valueList s' count = valueList s count := by
  obtain ⟨-, hbo, -, -, -, -, -, -, -, -, hlen, -⟩ := agree_fields h
  simp only [valueList, inputTooLong_agree h, hbo, hlen, ← h.1]

theorem coilList_agree (count : Half) : coilList s' count = coilList s count := by
  obtain ⟨-, -, -, -, -, -, -, -, -, -, hlen, -⟩ := agree_fields h
  simp only [coilList, inputTooLong_agree h, hlen, ← h.1]

theorem readFilePayload_agree : readFilePayload s' = readFilePayload s := by
  obtain ⟨-, hbo, -, -, -, -, -, -, -, -, hlen, -⟩ := agree_fields h
  simp only [readFilePayload, inputTooLong_agree h, hbo, hlen, ← h.1]

theorem writeFilePayload_agree : writeFilePayload s' = writeFilePayload s := by
  obtain ⟨-, hbo, -, -, -, -, -, -, -, -, hlen, -⟩ := agree_fields h
  simp only [writeFilePayload, inputTooLong_agree h, hbo, hlen, ← h.1]

theorem rtuMessage_agree : rtuMessage s' = rtuMessage s := by
  obtain ⟨-, -, -, -, -, -, -, -, -, -, hlen, -⟩ := agree_fields h
  simp only [rtuMessage, inputTooLong_agree h, hlen, ← h.1]

theorem asciiMessage_agree : asciiMessage s' = asciiMessage s := by
  simp only [asciiMessage, inputTooLong_agree h, ← h.1]

theorem requestMessage_agree : requestMessage s' = requestMessage s := by
  obtain ⟨-, -, -, hslave, hfc, -⟩ := agree_fields h
  simp only [requestMessage, hslave, hfc, ← h.2.1]

theorem responseMessage_agree : responseMessage s' = responseMessage s := by
  obtain ⟨hcfg, -, -, hslave, hfc, hexc, -⟩ := agree_fields h
  simp only [responseMessage, hcfg, hslave, hfc, hexc, requestMessage_agree h]

theorem word32Of_agree : word32Of s' = word32Of s := by
  obtain ⟨-, hbo, hwo, -⟩ := agree_fields h
  funext l
  simp only [word32Of, hbo, hwo]

theorem byteAt_pduBuf_agree {i : Nat} (hi : i < s.pduLen.toNat) : s'.byteAt .pduBuf i = s.byteAt .pduBuf i := by
  obtain ⟨-, -, -, -, -, -, -, -, -, -, -, hlen⟩ := agree_fields h
  rw [← byteOf_bytes s .pduBuf hi, ← byteOf_bytes s' .pduBuf (n := s'.pduLen.toNat) (by rwa [hlen])]
  exact congrArg (byteOf · i) h.2.1.symm

/-! ### The commands -/

theorem execSetRaw_agree : AnswersAgree (execSetRaw s) (execSetRaw s') := by
  unfold execSetRaw
  rw [inputTooLong_agree h, ← h.1]
  split
  · exact raiseError_agree h _
  · exact putPayload_agree h (by rw [input_length]; exact s.inLen.isLt) _ _ _

/-- GET_SPAN reads four bytes of PDU_BUF, after the check that PDU_LEN covers them. -/
theorem execGetSpan_agree : AnswersAgree (execGetSpan s) (execGetSpan s') := by
  obtain ⟨hcfg, hbo, -, -, hfc, -, -, -, -, -, -, hlen⟩ := agree_fields h
  unfold execGetSpan
  rw [hcfg, hfc, hlen, hbo]
  split
  · next hspan =>
    have hbyte {i : Nat} (hi : i < 4) : s'.byteAt .pduBuf i = s.byteAt .pduBuf i :=
      byteAt_pduBuf_agree h (Nat.lt_of_lt_of_le hi hspan.2)
    rw [hbyte (by decide : 0 < 4), hbyte (by decide : 1 < 4), hbyte (by decide : 2 < 4), hbyte (by decide : 3 < 4)]
    exact putResult_agree h _ _
  · exact putResult_agree h _ _

theorem execAscChk_agree : AnswersAgree (execAscChk s) (execAscChk s') := by
  unfold execAscChk
  rw [inputTooLong_agree h, ← h.1]
  split
  · exact raiseError_agree h _
  · split <;> exact putResult_agree h _ _

theorem encodeValue_agree {p p' : List Byte} (hp : p' = p) : AnswersAgree (encodeValue p s) (encodeValue p' s') :=
  hp ▸ putOut_agree h p

/-- Every command is a shared operation on what it reads: registers, IN and the payload inside their lengths. -/
theorem exec_agree (hw : s.cfg.wf = true) (i : Instr) : AnswersAgree (exec i s) (exec i s') := by
  obtain ⟨hcfg, hbo, hwo, -, hfc, -, h0, h1, h2, h3, -, -⟩ := agree_fields h
  have hmax := (params_bufBytes hw).2
  have hrtu {d : List Byte} (hd : rtuMessage s = .ok d) : d.length < 65536 := by
    have := rtuMessage_ok hd
    omega
  have hasc {d : List Byte} (hd : asciiMessage s = .ok d) : d.length < 65536 := by
    have := asciiMessage_ok hd
    omega
  cases i with
  | encU16 => exact encodeValue_agree h (by rw [h0, hbo])
  | decU16 =>
    simp only [exec_decU16_eq, hbo]
    exact decodeValue_agree h 2 rfl
  | encU32 | encF32 => exact encodeValue_agree h (by rw [h0, hbo, hwo])
  | decU32 | decF32 => exact decodeValue_agree h 4 (word32Of_agree h)
  | crc16Calc =>
    simp only [exec_crc16Calc_eq]
    exact calcResult_agree h _
  | crc16Verify =>
    simp only [exec_crc16Verify_eq]
    exact verdict_agree h _
  | lrc8Calc =>
    simp only [exec_lrc8Calc_eq]
    exact calcResult_agree h _
  | lrc8Verify =>
    simp only [exec_lrc8Verify_eq]
    exact verdict_agree h _
  | setRaw => exact execSetRaw_agree h
  | setSpan | setWsr | setWsc | setMask | setFifo | setDiag | setWmr | setRwm | setWmc | setRfr | setWfr =>
    simp only [exec_setSpan_eq, exec_setWsr_eq, exec_setWsc_eq, exec_setMask_eq, exec_setFifo_eq, exec_setDiag_eq,
      exec_setWmr_eq, exec_setRwm_eq, exec_setWmc_eq, exec_setRfr_eq, exec_setWfr_eq, hcfg, hbo, hfc, h0, h1, h2, h3,
      inputTooLong_agree h, ← h.1, valueList_agree h, coilList_agree h, readFilePayload_agree h,
      writeFilePayload_agree h]
    exact structuredSetter_agree h hw _ _ _ _ rfl
  | getSpan => exact execGetSpan_agree h
  | rtuEncReq => exact emitFrame_agree h (congrArg rtuFrame (requestMessage_agree h))
  | rtuEncRsp => exact emitFrame_agree h (congrArg rtuFrame (responseMessage_agree h))
  | rtuDecReq => exact decodeFrame_agree h (rtuMessage_agree h) fun d hd => decodeRequest_agree h (hrtu hd)
  | rtuDecRsp => exact decodeFrame_agree h (rtuMessage_agree h) fun d hd => decodeResponse_agree h (hrtu hd)
  | rtuChkReq => exact checkComplete_agree h (by rw [h.1])
  | rtuChkRsp => exact checkComplete_agree h (by rw [h.1, hcfg])
  | ascEncReq => exact emitFrame_agree h (congrArg asciiFrame (requestMessage_agree h))
  | ascEncRsp => exact emitFrame_agree h (congrArg asciiFrame (responseMessage_agree h))
  | ascDecReq => exact decodeFrame_agree h (asciiMessage_agree h) fun d hd => decodeRequest_agree h (hasc hd)
  | ascDecRsp => exact decodeFrame_agree h (asciiMessage_agree h) fun d hd => decodeResponse_agree h (hasc hd)
  | ascChk => exact execAscChk_agree h

/-! ### OUT of an encoder -/

/-- An encode command writes the same bytes from both states: it is a codec encode, or the write of a frame. -/
theorem outputWriter_agree {i : Instr} (hi : i ∈ outputWriters) :
    (∃ p, p.length ≤ 4 ∧ exec i s = encodeValue p s ∧ exec i s' = encodeValue p s')
      ∨ ∃ p, exec i s = emitFrame p s ∧ exec i s' = emitFrame p s' := by
  obtain ⟨-, hbo, hwo, -, -, -, h0, -⟩ := agree_fields h
  have hreq := requestMessage_agree h
  have hrsp := responseMessage_agree h
  have h16 := enc16_length (arg16 s.arg0) s.bo
  have h32 := enc32_length s.arg0 s.bo s.wo
  simp only [outputWriters, List.mem_cons, List.not_mem_nil, or_false] at hi
  rcases hi with rfl | rfl | rfl | rfl | rfl | rfl | rfl
  · exact .inl ⟨enc16 (arg16 s.arg0) s.bo, by omega, rfl, by rw [exec, execEncU16, h0, hbo]⟩
  · exact .inl ⟨enc32 s.arg0 s.bo s.wo, h32.le, rfl, by rw [exec, execEncU32, h0, hbo, hwo]⟩
  · exact .inl ⟨enc32 s.arg0 s.bo s.wo, h32.le, rfl, by rw [exec, execEncF32, h0, hbo, hwo]⟩
  · exact .inr ⟨rtuFrame (requestMessage s), rfl, by rw [← hreq]; rfl⟩
  · exact .inr ⟨rtuFrame (responseMessage s), rfl, by rw [← hrsp]; rfl⟩
  · exact .inr ⟨asciiFrame (requestMessage s), rfl, by rw [← hreq]; rfl⟩
  · exact .inr ⟨asciiFrame (responseMessage s), rfl, by rw [← hrsp]; rfl⟩

end Agree

/-! ### The obligation -/

/-- Settles O58: agreement is kept by each shared operation, and OUT of an encoder is what was written. -/
theorem noCommandReadsBytesOutsideTheLengths : Obligations.NoCommandReadsBytesOutsideTheLengths := by
  intro i s s' hw h
  have hw' : s'.cfg.wf = true := (agree_fields h).1 ▸ hw
  obtain ⟨t, t', hnext, hnext', hagree⟩ := exec_agree h hw i
  refine ⟨t, t', hnext, hnext', hagree, fun hi ht => ?_⟩
  rcases outputWriter_agree h hi with ⟨p, hp, henc, henc'⟩ | ⟨p, henc, henc'⟩
  · obtain ⟨hlen, hout⟩ := encodeValue_output (by omega) (henc.symm.trans hnext)
    obtain ⟨hlen', hout'⟩ := encodeValue_output (by omega) (henc'.symm.trans hnext')
    exact ⟨hlen.trans hlen'.symm, hout.trans hout'.symm⟩
  · obtain ⟨hlen, hout⟩ := emitFrame_output hw (henc.symm.trans hnext) ht
    obtain ⟨hlen', hout'⟩ := emitFrame_output hw' (henc'.symm.trans hnext') (succeeded_agree hagree ht)
    exact ⟨hlen.trans hlen'.symm, hout.trans hout'.symm⟩

end Sys2Proof.Machine
end

section
/-! What the commands leave alone (10_state.md R25, R35-R38; 60_exceptions.md R159): one lemma over the forms of `Ends`
for each; the obligations O7, O9 and O10. -/

namespace Sys2Proof.Machine

/-! ### Frames of the forms of `Ends` -/

section Ends

variable {i : Instr} {s t : State} (h : Ends i s t)

include h

theorem Ends.operandsKept : OperandsKept s t := by
  cases h <;> exact
    { cfg := rfl, bo := rfl, wo := rfl, arg0 := rfl, arg1 := rfl, arg2 := rfl, arg3 := rfl, inLen := rfl
      inBytes := fun _ => rfl, draws := rfl, inputs := rfl, rdata := rfl }

theorem Ends.headerKept (hi : i ∉ decoders) : DecodeFlagsKept s t ∧ HeaderKept s t := by
  cases h with
  | message _ _ _ _ _ _ _ _ _ hdec => exact absurd hdec hi
  | exception _ _ _ _ _ hdec => exact absurd hdec hi
  | _ => exact ⟨⟨rfl, rfl⟩, rfl, rfl, rfl⟩

theorem Ends.resultKept (hi : i ∉ resultWriters) : t.result = s.result := by
  cases h with
  | result _ _ hres => exact absurd hres hi
  | _ => rfl

theorem Ends.outputKept (hi : i ∉ outputWriters) : OutputKept s t := by
  cases h with
  | output _ hout => exact absurd hout hi
  | _ => exact ⟨rfl, fun _ => rfl⟩

theorem Ends.payloadKept (hi : i ∉ payloadWriters) : PayloadKept s t := by
  have hdecoders : ∀ j ∈ decoders, j ∈ payloadWriters := by decide
  cases h with
  | payload _ _ _ _ hpay => exact absurd hpay hi
  | message _ _ _ _ _ _ _ _ _ hdec => exact absurd (hdecoders i hdec) hi
  | exception _ _ _ _ _ hdec => exact absurd (hdecoders i hdec) hi
  | _ => exact ⟨rfl, fun _ => rfl, rfl, rfl, rfl⟩

theorem Ends.err_listed (hw : s.cfg.wf = true) (ht : t.engine = .idle) : t.err = .none ∨ t.err ∈ listedErrors i := by
  cases h with
  | error _ _ he => exact .inr (he hw)
  | fault => cases ht
  | _ => exact .inl rfl

/-- A command that does not fault completes: IDLE, DONE 1 (30_encoding.md R72). -/
theorem Ends.fault_or_done : t = raiseFault .contract s ∨ (t.engine = .idle ∧ t.done = true) := by
  cases h with
  | fault => exact .inl rfl
  | _ => exact .inr ⟨rfl, rfl⟩

end Ends

/-! ### The obligations -/

/-- Settles O7: the errors of the forms of `Ends` are the listed ones. -/
theorem commandsRaiseOnlyTheirListedErrors : Obligations.CommandsRaiseOnlyTheirListedErrors :=
  fun _ _ _ hw h ht => (ends_of_exec h).err_listed hw ht

/-- Settles O9: no form of `Ends` touches an operand. -/
theorem noCommandWritesItsOperands : Obligations.NoCommandWritesItsOperands :=
  fun _ _ _ h => (ends_of_exec h).operandsKept

/-- Settles O10: each register belongs to one form of `Ends`, which names the list of its commands. -/
theorem registersAreWrittenOnlyByTheirCommands : Obligations.RegistersAreWrittenOnlyByTheirCommands :=
  fun _ _ _ h => ⟨(ends_of_exec h).headerKept, (ends_of_exec h).resultKept, (ends_of_exec h).outputKept⟩

end Sys2Proof.Machine
end

section
/-! One step of the machine, with the event that causes it (10_state.md R15): `stepForm_of_step` says once what a step
can be, and the engine state, the outcome, the payload and the poll of a pending command follow by its cases; the
obligations O2, O11, O49 to O51 and O57. -/

namespace Sys2Proof.Machine

/-! ### The forms of a step -/

/-- `s` without the event of its next step. -/
def State.afterEvent (s : State) : State := { s with inputs := s.inputs.tail }

/-- The forms the next state of a step can have, each with what it says of the event and of the engine state. -/
inductive StepForm (s : State) : State → Prop where
  /-- The engine's turn in IDLE or FAULTED. -/
  | stay (hn : s.notPending) : StepForm s s.afterEvent
  /-- The end of a pending command. -/
  | command (c : Word) (i : Instr) {t : State} (hp : s.engine = .pending c) (hd : decode c = .ok i)
      (ht : exec i s.afterEvent = .next t) : StepForm s t
  /-- The end of an illegal word. -/
  | illegal (c : Word) (hp : s.engine = .pending c) : StepForm s (raiseError .illegal s.afterEvent)
  /-- A read while no command is pending. -/
  | answer (v : Word) (hn : s.notPending) : StepForm s (answerRead v s.afterEvent)
  /-- A STATUS read while a command is pending. -/
  | poll (c : Word) (rest : List HostEvent) (hp : s.engine = .pending c) (hi : s.inputs = .read 0x008 4 :: rest) :
      StepForm s (answerRead s.statusWord s.afterEvent)
  /-- Any other read while a command is pending. -/
  | readHazard (c : Word) (hp : s.engine = .pending c) :
      StepForm s (answerRead 0 (raiseFault .hazard s.afterEvent))
  /-- A write while a command is pending. -/
  | writeHazard (c : Word) (hp : s.engine = .pending c) : StepForm s (raiseFault .hazard s.afterEvent)
  /-- A CMD write in IDLE. -/
  | accept (v : Word) (rest : List HostEvent) (hidle : s.engine = .idle) (hi : s.inputs = .write 0x004 4 v :: rest) :
      StepForm s (acceptCommand v s.afterEvent)
  /-- A write of a register while no command is pending, or one that is ignored. -/
  | registerWrite (hn : s.notPending) (bo : ByteOrder) (wo : WordOrder) (sl fc : Byte) (ex : Exc)
      (a0 a1 a2 a3 : Word) (n : Half) :
      StepForm s { s.afterEvent with bo := bo, wo := wo, slave := sl, fc := fc, exc := ex, arg0 := a0, arg1 := a1,
                                     arg2 := a2, arg3 := a3, inLen := n }
  /-- A write of a byte of IN_BUF while no command is pending. -/
  | byteWrite (hn : s.notPending) (i : Nat) (b : Byte) (hi : i < s.cfg.bufBytes) :
      StepForm s { s.afterEvent with inBuf := s.inBuf.store i b }
  /-- The reset input, or a CTRL write with SRST. -/
  | reset (rest : List HostEvent)
      (hi : s.inputs = .hardwareReset :: rest ∨ ∃ v, s.inputs = .write 0x000 4 v :: rest ∧ 2 ^ 31 ≤ v.toNat) :
      StepForm s (applyReset s.afterEvent)

section Forms

variable {s : State}

theorem runCommand_of_decode {c : Word} {i : Instr} (hd : decode c = .ok i) (s : State) :
    runCommand c s = exec i s := by
  rw [runCommand, hd]

theorem notPending_or_pending (s : State) : s.notPending ∨ ∃ c, s.engine = .pending c := by
  by_cases h : ∃ c, s.engine = .pending c
  · exact .inr h
  · exact .inl fun c hc => h ⟨c, hc⟩

theorem stepForm_of_engineTurn {t : State} (h : engineTurn s.afterEvent = .next t) : StepForm s t := by
  rcases notPending_or_pending s with hn | ⟨c, hp⟩
  · have hstay : engineTurn s.afterEvent = .next s.afterEvent := by
      unfold engineTurn
      split
      · next c hc => exact absurd hc (hn c)
      · rfl
      · rfl
    obtain rfl := Host.Outcome.next.inj (hstay.symm.trans h)
    exact .stay hn
  · rw [engineTurn_pending (s := s.afterEvent) hp] at h
    cases hd : decode c with
    | ok i => exact .command c i hp hd (runCommand_of_decode hd _ ▸ h)
    | error r =>
      rw [runCommand, hd] at h
      obtain rfl := Host.Outcome.next.inj h
      exact .illegal c hp

theorem stepForm_of_read {offset bytes : Nat} {rest : List HostEvent} {g : Target}
    (hi : s.inputs = .read offset bytes :: rest) (hl : locate s.cfg offset bytes = .admitted g) :
    StepForm s (readAccess g s.afterEvent) := by
  rcases notPending_or_pending s with hn | ⟨c, hp⟩
  · rw [readAccess_of_notPending (s := s.afterEvent) hn]
    exact .answer _ hn
  · by_cases hg : g = .register .status
    · subst hg
      obtain rfl := offset_of_locate_status hl
      obtain ⟨rfl, -⟩ := locate_register hl
      rw [readAccess_status_of_pending (s := s.afterEvent) hp]
      exact .poll c rest hp hi
    · rw [readAccess_hazard (s := s.afterEvent) hp hg]
      exact .readHazard c hp

theorem offset_of_locate_cmd {p : Params} {offset bytes : Nat}
    (h : locate p offset bytes = .admitted (.register .cmd)) : offset = 0x004 := by
  have hmap : ∀ row ∈ registerMap, row.2 = .cmd → row.1 = 0x004 := by decide
  obtain ⟨-, hrow⟩ := locate_register h
  exact hmap _ hrow rfl

/-- A CTRL write with bit 31 is a reset in every engine state (70_reset_and_hazards.md R181). -/
theorem stepForm_of_srst {offset bytes : Nat} {v : Word} {rest : List HostEvent}
    (hi : s.inputs = .write offset bytes v :: rest) (hl : locate s.cfg offset bytes = .admitted (.register .ctrl))
    (hv : v.getLsbD 31 = true) : StepForm s (writeAccess (.register .ctrl) v s.afterEvent) := by
  obtain rfl := offset_of_locate_ctrl hl
  obtain ⟨rfl, -⟩ := locate_register hl
  rw [writeAccess_ctrl_of_srst hv]
  exact .reset rest (.inr ⟨v, hi, le_toNat_of_getLsbD_31 hv⟩)

theorem stepForm_of_writeRegister (hn : s.notPending) {offset bytes : Nat} {v : Word} {rest : List HostEvent} {r : Reg}
    (hi : s.inputs = .write offset bytes v :: rest) (hl : locate s.cfg offset bytes = .admitted (.register r)) :
    StepForm s (writeRegister r v s.afterEvent) := by
  cases r with
  | ctrl =>
    by_cases hv : v.getLsbD 31 = true
    · have hreset := stepForm_of_srst hi hl hv
      rwa [writeAccess_of_notPending (s := s.afterEvent) hn] at hreset
    · rw [writeRegister, writeCtrl, if_neg hv]
      exact .registerWrite hn _ _ _ _ _ _ _ _ _ _
  | cmd =>
    obtain rfl := offset_of_locate_cmd hl
    obtain ⟨rfl, -⟩ := locate_register hl
    rw [writeRegister, writeCmd]
    split
    · next hidle => exact .accept v rest hidle hi
    · exact .stay hn
    · exact .stay hn
  | _ => exact .registerWrite hn _ _ _ _ _ _ _ _ _ _

theorem stepForm_of_write {offset bytes : Nat} {v : Word} {rest : List HostEvent} {g : Target}
    (hi : s.inputs = .write offset bytes v :: rest) (hl : locate s.cfg offset bytes = .admitted g) :
    StepForm s (writeAccess g v s.afterEvent) := by
  rcases notPending_or_pending s with hn | ⟨c, hp⟩
  · rw [writeAccess_of_notPending (s := s.afterEvent) hn]
    cases g with
    | reserved => exact .stay hn
    | byte b i =>
      cases b with
      | inBuf => exact .byteWrite hn i _ (locate_byte hl)
      | outBuf => exact .stay hn
      | pduBuf => exact .stay hn
    | register r => exact stepForm_of_writeRegister hn hi hl
  · by_cases hg : g = .register .ctrl ∧ v.getLsbD 31 = true
    · obtain ⟨rfl, hv⟩ := hg
      exact stepForm_of_srst hi hl hv
    · rw [writeAccess_hazard (s := s.afterEvent) hp hg]
      exact .writeHazard c hp

/-- A host access that has a step is an admitted one. -/
theorem hostAccess_next {u t : State} {offset bytes : Nat} {f : Target → State → State}
    (h : hostAccess offset bytes f u = .next t) : ∃ g, locate u.cfg offset bytes = .admitted g ∧ f g u = t := by
  unfold hostAccess at h
  split at h
  · next g hg => exact ⟨g, hg, Host.Outcome.next.inj h⟩
  · cases h
  · cases h

/-- The inversion of a step. -/
theorem stepForm_of_step {t : State} (h : step s = .next t) : StepForm s t := by
  unfold step at h
  split at h
  · next hi =>
    have hs : s.afterEvent = s := by
      unfold State.afterEvent
      rw [hi, List.tail_nil, ← hi]
    exact stepForm_of_engineTurn (hs.symm ▸ h)
  · next e rest hi =>
    have hs : { s with inputs := rest } = s.afterEvent := by
      unfold State.afterEvent
      rw [hi, List.tail_cons]
    rw [hs] at h
    cases e with
    | read offset bytes =>
      obtain ⟨g, hl, rfl⟩ := hostAccess_next h
      exact stepForm_of_read hi hl
    | write offset bytes v =>
      obtain ⟨g, hl, rfl⟩ := hostAccess_next h
      exact stepForm_of_write hi hl
    | hardwareReset =>
      obtain rfl := Host.Outcome.next.inj h
      exact .reset rest (.inl hi)
    | engineTurn => exact stepForm_of_engineTurn h

end Forms

/-! ### The obligations -/

/-- Settles O2: the engine steps on the pending word, and the word says which command runs. -/
theorem stepRunsTheDecodedCommand : Obligations.StepRunsTheDecodedCommand := by
  intro s c i hp hd
  refine ⟨fun hi => ?_, fun rest hi => ?_⟩
  · rw [step_pending_of_no_event hp hi, runCommand_of_decode hd]
  · rw [step_pending_of_engineTurn hp hi, runCommand_of_decode hd]

/-- Settles O11: of the forms of a step only a command and a reset touch the payload, and of the commands only the
writers. -/
theorem payloadChangesOnlyByWritersAndReset : Obligations.PayloadChangesOnlyByWritersAndReset := by
  intro s t h
  cases stepForm_of_step h with
  | command c i hp hd ht =>
    by_cases hi : i ∈ payloadWriters
    · exact .inr (.inl ⟨c, i, hp, hd, hi, ht⟩)
    · obtain ⟨hlen, hbytes, hkind, ha, hb⟩ := (ends_of_exec ht).payloadKept hi
      exact .inl ⟨hlen, hbytes, hkind, ha, hb⟩
  | reset => exact .inr (.inr rfl)
  | _ => exact .inl ⟨rfl, fun _ => rfl, rfl, rfl, rfl⟩

/-- Settles O49: in FAULTED only a reset changes the engine state. -/
theorem faultIsStickyUntilReset : Obligations.FaultIsStickyUntilReset := by
  intro s t c hf h
  have hpending {w : Word} (hp : s.engine = .pending w) : False := by
    rw [hf] at hp
    cases hp
  cases stepForm_of_step h with
  | stay | answer | registerWrite | byteWrite => exact .inl hf
  | command _ _ hp | illegal _ hp | poll _ _ hp | readHazard _ hp | writeHazard _ hp => exact (hpending hp).elim
  | accept _ _ hidle =>
    rw [hf] at hidle
    cases hidle
  | reset rest hi => exact .inr ⟨rest, hi, rfl⟩

/-- The engine after the end of a pending command (00_scope.md R11). -/
theorem engine_of_exec {i : Instr} {s t : State} (h : exec i s = .next t) :
    t.engine = .idle ∨ ∃ cause, t.engine = .faulted cause := by
  rcases (ends_of_exec h).fault_or_done with rfl | ⟨hidle, -⟩
  · exact .inr ⟨.contract, rfl⟩
  · exact .inl hidle

theorem engine_from_idle {s t : State} (h : StepForm s t) (hidle : s.engine = .idle) :
    t.engine = .idle
      ∨ ∃ v rest, s.inputs = .write 0x004 4 v :: rest ∧ t.engine = .pending v ∧ t.done = false := by
  have hpending {w : Word} (hp : s.engine = .pending w) : False := by
    rw [hidle] at hp
    cases hp
  cases h with
  | stay | answer | registerWrite | byteWrite => exact .inl hidle
  | command _ _ hp | illegal _ hp | poll _ _ hp | readHazard _ hp | writeHazard _ hp => exact (hpending hp).elim
  | accept v rest _ hi => exact .inr ⟨v, rest, hi, rfl, rfl⟩
  | reset => exact .inl rfl

theorem engine_from_pending {s t : State} (h : StepForm s t) {c : Word} (hp : s.engine = .pending c) :
    (t.engine = .idle ∨ ∃ cause, t.engine = .faulted cause)
      ∨ ∃ rest, s.inputs = .read 0x008 4 :: rest ∧ t = { s with inputs := rest, rdata := s.statusWord } := by
  cases h with
  | stay hn | answer _ hn | registerWrite hn | byteWrite hn => exact absurd hp (hn c)
  | command _ _ _ _ ht => exact .inl (engine_of_exec ht)
  | illegal | reset => exact .inl (.inl rfl)
  | readHazard | writeHazard => exact .inl (.inr ⟨.hazard, rfl⟩)
  | poll _ rest _ hi =>
    refine .inr ⟨rest, hi, ?_⟩
    rw [answerRead, State.afterEvent, hi, List.tail_cons]
  | accept _ _ hidle =>
    rw [hp] at hidle
    cases hidle

/-- Settles O50: what each form of a step makes of IDLE and of PENDING. -/
theorem engineStateMovesAsSpecified : Obligations.EngineStateMovesAsSpecified := by
  intro s t h
  have hform := stepForm_of_step h
  exact ⟨engine_from_idle hform, fun _ => engine_from_pending hform⟩

/-- Settles O51: OK and ERR change only where a command completes or a reset happens. -/
theorem outcomeIsKeptUntilTheNextCommandEnds : Obligations.OutcomeIsKeptUntilTheNextCommandEnds := by
  intro s t h
  cases stepForm_of_step h with
  | command c _ hp _ ht =>
    rcases (ends_of_exec ht).fault_or_done with rfl | hdone
    · exact .inl ⟨rfl, rfl⟩
    · exact .inr (.inl ⟨c, hp, hdone⟩)
  | illegal c hp => exact .inr (.inl ⟨c, hp, rfl, rfl⟩)
  | reset => exact .inr (.inr (applyReset_hasResetValues _))
  | _ => exact .inl ⟨rfl, rfl⟩

/-- One step of a run. -/
theorem core_run_of_step {s t : State} (n : Nat) (h : step s = .next t) :
    Sys2Proof.core.run (n + 1) s = Sys2Proof.core.run n t := by
  have hcore : Sys2Proof.core.step s = .next t := h
  simp only [Host.Core.run, hcore]

theorem step_poll {s : State} {c : Word} {rest : List HostEvent} (hp : s.engine = .pending c)
    (hi : s.inputs = .read 0x008 4 :: rest) : step s = .next { s with inputs := rest, rdata := s.statusWord } :=
  (hazardAccessFaultsThePendingCommand s c 0x008 4 0 rest hp (.inl (by decide))).1 hi

/-- Settles O57: by induction on the polls, each of which leaves the command pending and STATUS as it is. -/
theorem polledCommandCompletes : Obligations.PolledCommandCompletes := by
  intro n
  induction n with
  | zero =>
    intro s c i hp hd hi
    obtain ⟨t, ht, -⟩ := exec_ends i s
    have hstep : step s = .next t := ((stepRunsTheDecodedCommand s c i hp hd).1 hi).trans ht
    have hs : { s with inputs := [], rdata := s.rdata } = s := by
      conv => lhs; rw [← (show s.inputs = [] from hi)]
    rw [if_pos rfl, hs, core_run_of_step 0 hstep, ht]
    rfl
  | succ n ih =>
    intro s c i hp hd hi
    rw [core_run_of_step (n + 1) (step_poll hp hi), ih { s with inputs := _, rdata := s.statusWord } c i hp hd rfl,
      if_neg (Nat.succ_ne_zero n)]
    exact congrArg (fun v => exec i { s with inputs := [], rdata := v }) (ite_self s.statusWord)

end Sys2Proof.Machine
end

section
/-! The invariant of the machine (10_state.md R38, R39, R41, R42, R24): what keeps it when neither a buffer, a length
nor the view is written, one lemma for each write of one, and its preservation by commands and steps; the obligations O59
and O60. -/

namespace Sys2Proof.Machine

/-! ### The writes that keep it -/

/-- A state that differs in nothing the invariant speaks of but STATUS and the engine state. -/
theorem State.Inv.congr {s t : State} (h : s.Inv) (hcfg : t.cfg = s.cfg) (hin : t.inBuf = s.inBuf)
    (hout : t.outBuf = s.outBuf) (hpdu : t.pduBuf = s.pduBuf) (hol : t.outLen = s.outLen) (hpl : t.pduLen = s.pduLen)
    (hk : t.fkind = s.fkind) (ha : t.fa = s.fa) (hb : t.fb = s.fb) (hdone : t.done = true → t.engine = .idle)
    (hok : t.ok = true → t.err = .none) : t.Inv where
  params := hcfg ▸ h.params
  inBuf := hcfg ▸ hin ▸ h.inBuf
  outBuf := hcfg ▸ hout ▸ h.outBuf
  pduBuf := hcfg ▸ hpdu ▸ h.pduBuf
  outLen := hcfg ▸ hol ▸ h.outLen
  pduLen := hcfg ▸ hpl ▸ h.pduLen
  outWritten := hol ▸ hout ▸ h.outWritten
  pduWritten := hpl ▸ hpdu ▸ h.pduWritten
  viewNone := hk ▸ ha ▸ hb ▸ h.viewNone
  viewCoil := hk ▸ hb ▸ h.viewCoil
  viewPayload := hk ▸ hpl ▸ h.viewPayload
  doneIdle := hdone
  okNone := hok

/-- Bytes stored at the start of a buffer are listed there (10_state.md R41). -/
theorem Memory.lookup_storeAll_ne_none (m : Memory) (l : List Byte) {i : Nat} (hi : i < l.length) :
    (m.storeAll 0 l).lookup i ≠ none := by
  rw [Memory.lookup_storeAll, if_pos ⟨Nat.zero_le i, by omega⟩]
  exact Option.some_ne_none _

section Writes

variable {s : State} (h : s.Inv)

include h

theorem State.Inv.finishOk (b : Bool) : (finishOk b s).Inv :=
  h.congr rfl rfl rfl rfl rfl rfl rfl rfl rfl (fun _ => rfl) (fun _ => rfl)

theorem State.Inv.raiseError (e : Err) : (raiseError e s).Inv :=
  h.congr rfl rfl rfl rfl rfl rfl rfl rfl rfl (fun _ => rfl) (fun hok => absurd hok Bool.false_ne_true)

theorem State.Inv.raiseFault (c : FaultCause) : (raiseFault c s).Inv :=
  h.congr rfl rfl rfl rfl rfl rfl rfl rfl rfl (fun hdone => absurd hdone Bool.false_ne_true) h.okNone

theorem State.Inv.acceptCommand (c : Word) : (acceptCommand c s).Inv :=
  h.congr rfl rfl rfl rfl rfl rfl rfl rfl rfl (fun hdone => absurd hdone Bool.false_ne_true) h.okNone

theorem State.Inv.answerRead (v : Word) : (answerRead v s).Inv :=
  h.congr rfl rfl rfl rfl rfl rfl rfl rfl rfl h.doneIdle h.okNone

theorem State.Inv.afterEvent : s.afterEvent.Inv :=
  h.congr rfl rfl rfl rfl rfl rfl rfl rfl rfl h.doneIdle h.okNone

theorem State.Inv.putResult (v : Word) : (putResult v s).Inv :=
  h.congr rfl rfl rfl rfl rfl rfl rfl rfl rfl h.doneIdle h.okNone

theorem State.Inv.putHeader (sl fc : Byte) (exb fck : Bool) (e : Exc) : (putHeader sl fc exb fck e s).Inv :=
  h.congr rfl rfl rfl rfl rfl rfl rfl rfl rfl h.doneIdle h.okNone

theorem State.Inv.registerWrite (bo : ByteOrder) (wo : WordOrder) (sl fc : Byte) (ex : Exc) (a0 a1 a2 a3 : Word)
    (n : Half) :
    { s with bo := bo, wo := wo, slave := sl, fc := fc, exc := ex, arg0 := a0, arg1 := a1, arg2 := a2, arg3 := a3,
             inLen := n : State }.Inv :=
  h.congr rfl rfl rfl rfl rfl rfl rfl rfl rfl h.doneIdle h.okNone

theorem State.Inv.byteWrite {i : Nat} (hi : i < s.cfg.bufBytes) (b : Byte) :
    { s with inBuf := s.inBuf.store i b : State }.Inv :=
  { h with inBuf := ⟨Memory.wf_store h.inBuf.1 i b, Memory.below_store h.inBuf.2 hi b⟩ }

theorem State.Inv.putOut {p : List Byte} (hp : p.length ≤ s.cfg.bufBytes) : (putOut p s).Inv := by
  have hmax := (params_bufBytes h.params).2
  have hlen : (BitVec.ofNat 16 p.length).toNat = p.length := toNat_ofNat_length (by omega)
  exact
    { h with
      outBuf := ⟨Memory.wf_storeAll h.outBuf.1 0 p, Memory.below_storeAll h.outBuf.2 0 p (by omega)⟩
      outLen := hlen.trans_le hp
      outWritten := fun i hi => Memory.lookup_storeAll_ne_none s.outBuf p (hlen ▸ hi) }

/-- A payload and its view, in the bounds every writer of one keeps (43_pdu.md R106, 44_rtu.md R131). -/
theorem State.Inv.putPayload {k : FieldKind} {a b : Half} {p : List Byte} (hp : p.length ≤ s.cfg.bufBytes)
    (hk : k ≠ .none → 4 ≤ p.length) (hn : k = .none → a = 0 ∧ b = 0) (hb : k = .coil → b = 0 ∨ b = 1) :
    (putView k a b (putPayload p s)).Inv := by
  have hmax := (params_bufBytes h.params).2
  have hlen : (BitVec.ofNat 16 p.length).toNat = p.length := toNat_ofNat_length (by omega)
  exact
    { h with
      pduBuf := ⟨Memory.wf_storeAll h.pduBuf.1 0 p, Memory.below_storeAll h.pduBuf.2 0 p (by omega)⟩
      pduLen := hlen.trans_le hp
      pduWritten := fun i hi => Memory.lookup_storeAll_ne_none s.pduBuf p (hlen ▸ hi)
      viewNone := hn
      viewCoil := hb
      viewPayload := fun hne => (hk hne).trans_eq hlen.symm }

theorem State.Inv.dropPayload : (putView .none 0 0 (dropPayload s)).Inv :=
  { h with
    pduLen := Nat.zero_le _
    pduWritten := fun _ hi => absurd hi (Nat.not_lt_zero _)
    viewNone := fun _ => ⟨rfl, rfl⟩
    viewCoil := fun _ => .inl rfl
    viewPayload := fun hne => absurd rfl hne }

end Writes

/-! ### Reset -/

theorem resetWith_inv {p : Params} (hw : p.wf = true) : (State.resetWith p).Inv where
  params := hw
  inBuf := ⟨rfl, rfl⟩
  outBuf := ⟨rfl, rfl⟩
  pduBuf := ⟨rfl, rfl⟩
  outLen := Nat.zero_le _
  pduLen := Nat.zero_le _
  outWritten := fun _ hi => absurd hi (Nat.not_lt_zero _)
  pduWritten := fun _ hi => absurd hi (Nat.not_lt_zero _)
  viewNone := fun _ => ⟨rfl, rfl⟩
  viewCoil := fun _ => .inl rfl
  viewPayload := fun hne => absurd rfl hne
  doneIdle := fun _ => rfl
  okNone := fun _ => rfl

theorem applyReset_inv {s : State} (h : s.Inv) : (applyReset s).Inv :=
  (resetWith_inv h.params).congr rfl rfl rfl rfl rfl rfl rfl rfl rfl (fun _ => rfl) (fun _ => rfl)

/-! ### Commands and steps -/

theorem Ends.inv {i : Instr} {s t : State} (he : Ends i s t) (h : s.Inv) : t.Inv := by
  have hmin := (params_bufBytes h.params).1
  cases he with
  | error e => exact h.raiseError e
  | fault => exact h.raiseFault .contract
  | verdict b => exact h.finishOk b
  | result b v => exact (h.putResult v).finishOk b
  | output p _ _ hp => exact (h.putOut (by omega)).finishOk true
  | payload _ _ _ _ _ _ hp hk hn hb => exact (h.putPayload hp hk hn hb).finishOk true
  | message sl fc exb fck e _ _ _ _ _ _ hp hk hn hb =>
    exact ((h.putHeader sl fc exb fck e).putPayload hp hk hn hb).finishOk true
  | exception sl fc exb fck e => exact (h.putHeader sl fc exb fck e).dropPayload.finishOk true

theorem StepForm.inv {s t : State} (hstep : StepForm s t) (h : s.Inv) : t.Inv := by
  have hu : s.afterEvent.Inv := h.afterEvent
  cases hstep with
  | stay => exact hu
  | command _ _ _ _ ht => exact (ends_of_exec ht).inv hu
  | illegal => exact hu.raiseError .illegal
  | answer v => exact hu.answerRead v
  | poll => exact hu.answerRead s.statusWord
  | readHazard => exact (hu.raiseFault .hazard).answerRead 0
  | writeHazard => exact hu.raiseFault .hazard
  | accept v => exact hu.acceptCommand v
  | registerWrite => exact hu.registerWrite _ _ _ _ _ _ _ _ _ _
  | byteWrite _ _ b hi => exact hu.byteWrite hi b
  | reset => exact applyReset_inv hu

/-! ### The obligations -/

/-- Settles O59: the parameter values of 00_scope.md R6 are legal. -/
theorem resetMeetsTheInvariant : Obligations.ResetMeetsTheInvariant := resetWith_inv (by decide)

/-- Settles O60: every form of a step is made of writes that keep the invariant. -/
theorem everyStepKeepsTheInvariant : Obligations.EveryStepKeepsTheInvariant :=
  fun _ _ h hstep => (stepForm_of_step hstep).inv h

end Sys2Proof.Machine
end

section
/-! The command words of the opcode table, both ways (30_encoding.md R70, R73, R75); the obligations O4 and O5. -/

namespace Sys2Proof

/-- The word of a row's command is its opcode with RSV 0 (30_encoding.md R70). -/
theorem encode_of_mem_opcodeMap : ∀ row ∈ opcodeMap, encode row.2 = row.1.setWidth 32 := by decide

/-- A word with RSV 0 is its opcode. -/
theorem word_eq_opcode {c : Word} (h : c.extractLsb' 8 24 = 0) : c = (c.extractLsb' 0 8).setWidth 32 := by
  have hrsv := congrArg BitVec.toNat h
  have hc := c.isLt
  rw [BitVec.extractLsb'_toNat, Nat.shiftRight_eq_div_pow] at hrsv
  apply BitVec.eq_of_toNat_eq
  rw [BitVec.toNat_setWidth, BitVec.extractLsb'_toNat, Nat.shiftRight_zero]
  change c.toNat / 2 ^ 8 % 2 ^ 24 = 0 at hrsv
  omega

theorem eq_encode_of_decode {c : Word} {i : Instr} (h : decode c = .ok i) : c = encode i := by
  unfold decode at h
  split at h
  · cases h
  · next hrsv =>
    split at h
    · next j hopc =>
      obtain rfl := Except.ok.inj h
      exact (word_eq_opcode (not_not.mp hrsv)).trans (encode_of_mem_opcodeMap _ (decodeOpcode_mem hopc)).symm
    · cases h

/-- One closed evaluation for each command. -/
theorem decode_encode (i : Instr) : decode (encode i) = .ok i := by cases i <;> rfl

end Sys2Proof

namespace Sys2Proof.Machine

/-- Settles O4: a row of the opcode map gives the word back, and every command has a row. -/
theorem decodeAndEncodeAgree : Obligations.DecodeAndEncodeAgree :=
  fun _ i => ⟨eq_encode_of_decode, fun h => h ▸ decode_encode i⟩

/-- Settles O5: five words that `encode` gives, and two evaluations of `decode`. -/
theorem tableWordsDecode : Obligations.TableWordsDecode :=
  ⟨decode_encode .encU16, decode_encode .lrc8Verify, decode_encode .getSpan, decode_encode .rtuChkRsp,
    decode_encode .ascChk, rfl, rfl⟩

end Sys2Proof.Machine
end

section
/-! What the host reads and writes while no command is pending (10_state.md R17-R43, 20_memory.md R54): the words of the
registers against their fields, and the access of each; the obligations O52 to O54. -/

namespace Sys2Proof.Machine

/-! ### Words made of fields -/

theorem toNat_append_eq {m n : Nat} (x : BitVec m) (y : BitVec n) :
    (x ++ y).toNat = x.toNat * 2 ^ n + y.toNat := by
  rw [BitVec.toNat_append, ← Nat.shiftLeft_add_eq_or_of_lt y.isLt, Nat.shiftLeft_eq]

theorem getLsbD_eq_of_toNat {v : Word} {k : Nat} {b : Bool} (h : v.toNat / 2 ^ k % 2 = b.toNat) :
    v.getLsbD k = b := by
  rw [BitVec.getLsbD, Nat.testBit_eq_decide_div_mod_eq, h]
  cases b <;> rfl

theorem getLsbD_eq_decide (v : Word) (k : Nat) : v.getLsbD k = decide (v.toNat / 2 ^ k % 2 = 1) := by
  rw [BitVec.getLsbD, Nat.testBit_eq_decide_div_mod_eq]

theorem extractLsb'_eq_of_toNat {v : Word} {start len : Nat} {f : BitVec len}
    (h : v.toNat / 2 ^ start % 2 ^ len = f.toNat) : v.extractLsb' start len = f := by
  apply BitVec.eq_of_toNat_eq
  rw [BitVec.extractLsb'_toNat, Nat.shiftRight_eq_div_pow, h]

/-! ### STATUS (10_state.md R23) -/

section Status

variable (s : State)

/-- The STATUS word as a sum of its fields. -/
theorem statusWord_toNat : s.statusWord.toNat = s.busy.toNat + 2 * s.done.toNat + 4 * s.ok.toNat + 8 * s.fck.toNat
    + 16 * s.exb.toNat + 256 * s.err.code.toNat + 4096 * s.faultBit.toNat + 8192 * s.fcause.toNat := by
  simp only [State.statusWord, toNat_append_eq, BitVec.toNat_ofBool]
  simp only [BitVec.ofNat_eq_ofNat, BitVec.toNat_ofNat]
  omega

theorem busy_iff : s.busy = true ↔ ∃ c, s.engine = .pending c := by
  unfold State.busy
  split
  · next c hc => simp [hc]
  · next hidle => simp [hidle]
  · next c hf => simp [hf]

theorem faultBit_iff : s.faultBit = true ↔ ∃ c, s.engine = .faulted c := by
  unfold State.faultBit
  split
  · next c hf => simp [hf]
  · next hidle => simp [hidle]
  · next c hc => simp [hc]

theorem fcause_of_no_fault (h : ∀ c, s.engine ≠ .faulted c) : s.fcause = 0 := by
  unfold State.fcause
  split
  · next hf => exact absurd hf (h _)
  · next hf => exact absurd hf (h _)
  · rfl
  · rfl

/-- 60_exceptions.md R157: an error's number is its place in the table. -/
theorem err_code_eq_idxOf (e : Err) : e.code.toNat = List.idxOf e [.none, .illegal, .length, .crc, .lrc, .start, .delim,
    .hexOdd, .hexChar, .badFc, .mismatch, .empty, .limit, .overflow] := by
  cases e <;> rfl

/-- The fields of STATUS, each at its place. -/
theorem statusWord_fields :
    s.statusWord.getLsbD 0 = s.busy ∧ s.statusWord.getLsbD 1 = s.done ∧ s.statusWord.getLsbD 2 = s.ok
      ∧ s.statusWord.getLsbD 3 = s.fck ∧ s.statusWord.getLsbD 4 = s.exb ∧ s.statusWord.extractLsb' 5 3 = 0
      ∧ s.statusWord.extractLsb' 8 4 = s.err.code ∧ s.statusWord.getLsbD 12 = s.faultBit
      ∧ s.statusWord.extractLsb' 13 2 = s.fcause ∧ s.statusWord.extractLsb' 15 17 = 0 := by
  have hsum := statusWord_toNat s
  have hbusy := s.busy.toNat_le
  have hdone := s.done.toNat_le
  have hok := s.ok.toNat_le
  have hfck := s.fck.toNat_le
  have hexb := s.exb.toNat_le
  have herr := s.err.code.isLt
  have hfault := s.faultBit.toNat_le
  have hcause := s.fcause.isLt
  have hrsv : (0#3).toNat = 0 := rfl
  have hhigh : (0#17).toNat = 0 := rfl
  refine ⟨getLsbD_eq_of_toNat ?_, getLsbD_eq_of_toNat ?_, getLsbD_eq_of_toNat ?_, getLsbD_eq_of_toNat ?_,
    getLsbD_eq_of_toNat ?_, extractLsb'_eq_of_toNat (f := 0#3) ?_, extractLsb'_eq_of_toNat ?_, getLsbD_eq_of_toNat ?_,
    extractLsb'_eq_of_toNat ?_, extractLsb'_eq_of_toNat (f := 0#17) ?_⟩ <;> omega

end Status

/-! ### The other registers -/

theorem ctrlWord_eq (s : State) : s.ctrlWord
    = BitVec.ofNat 32 ((if s.bo = .littleEndian then 1 else 0) + (if s.wo = .lowWordFirst then 2 else 0)) := by
  unfold State.ctrlWord
  cases s.bo <;> cases s.wo <;> rfl

theorem excWord_eq (e : Exc) : e.word = BitVec.ofNat 32 (e.code.toNat + if e.valid then 256 else 0) := by
  obtain ⟨valid, code⟩ := e
  have hcode := code.isLt
  apply BitVec.eq_of_toNat_eq
  simp only [Exc.word, toNat_append_eq, BitVec.toNat_ofBool, BitVec.ofNat_eq_ofNat, BitVec.toNat_ofNat]
  cases valid
  · simp only [Bool.toNat_false, Bool.false_eq_true, if_false]
    omega
  · simp only [Bool.toNat_true, if_true]
    omega

theorem fkind_code_eq (k : FieldKind) :
    k.code.setWidth 32 = BitVec.ofNat 32 (List.idxOf k [.none, .span, .reg, .coil]) := by
  cases k <;> rfl

theorem excOf_eq (v : Word) : excOf v = ⟨decide (v.toNat / 256 % 2 = 1), BitVec.ofNat 8 v.toNat⟩ := by
  rw [excOf, getLsbD_eq_decide]
  rfl

theorem byteOrderOf_eq (v : Word) :
    byteOrderOf (v.getLsbD 0) = if v.toNat % 2 = 1 then .littleEndian else .bigEndian := by
  rw [byteOrderOf, getLsbD_eq_decide]
  simp only [decide_eq_true_eq, pow_zero, Nat.div_one]

theorem wordOrderOf_eq (v : Word) :
    wordOrderOf (v.getLsbD 1) = if v.toNat / 2 % 2 = 1 then .lowWordFirst else .highWordFirst := by
  rw [wordOrderOf, getLsbD_eq_decide]
  simp only [decide_eq_true_eq, pow_one]

/-! ### The accesses -/

section Access

variable {s : State} (hs : s.notPending) (rest : List HostEvent)

include hs

theorem step_readRegister {offset : Nat} {r : Reg} (hr : (offset, r) ∈ registerMap) :
    step { s with inputs := .read offset 4 :: rest } = .next { s with inputs := rest, rdata := s.readRegister r } := by
  rw [step_read_of_notPending hs (locate_of_mem hr s.cfg)]
  cases r <;> rfl

theorem step_writeRegister {offset : Nat} {r : Reg} (hr : (offset, r) ∈ registerMap) (v : Word) :
    step { s with inputs := .write offset 4 v :: rest } = .next (writeRegister r v { s with inputs := rest }) :=
  step_write_of_notPending hs (locate_of_mem hr s.cfg) rest v

theorem step_writeOrders {v : Word} (hv : v.toNat < 2 ^ 31) :
    step { s with inputs := .write 0x000 4 v :: rest } = .next { s with
      inputs := rest, bo := byteOrderOf (v.getLsbD 0), wo := wordOrderOf (v.getLsbD 1) } := by
  have hsrst : ¬ v.getLsbD 31 = true := fun h => absurd (le_toNat_of_getLsbD_31 h) (Nat.not_le.mpr hv)
  rw [step_writeRegister hs rest (r := .ctrl) (by decide), writeRegister, writeCtrl, if_neg hsrst]

theorem step_writeInByte {i : Nat} (hi : i < s.cfg.bufBytes) (hi' : i < 4096) (v : Word) :
    step { s with inputs := .write (0x1000 + i) 1 v :: rest }
      = .next { s with inputs := rest, inBuf := s.inBuf.store i (BitVec.ofNat 8 v.toNat) } :=
  step_write_of_notPending hs (locate_buffer hi hi').1 rest v

theorem step_readByte {offset i : Nat} {b : BufferId} (hl : locate s.cfg offset 1 = .admitted (.byte b i)) :
    step { s with inputs := .read offset 1 :: rest }
      = .next { s with inputs := rest, rdata := BitVec.ofNat 32 (s.byteAt b i).toNat } := by
  rw [step_read_of_notPending hs hl, BitVec.ofNat_toNat]
  cases b <;> rfl

end Access

theorem byteAt_inBuf_store (s : State) (rest : List HostEvent) (i j : Nat) (b : Byte) :
    { s with inputs := rest, inBuf := s.inBuf.store i b : State }.byteAt .inBuf j
      = if j = i then b else s.byteAt .inBuf j := by
  simp only [State.byteAt, State.buffer, Memory.lookup_store]
  by_cases h : j = i <;> simp [h]

/-! ### The obligations -/

/-- Settles O54: the fields of STATUS are those of its sum, and BUSY, FAULT and FCAUSE follow the engine state. -/
theorem statusWordHasItsFields : Obligations.StatusWordHasItsFields := by
  intro s
  obtain ⟨hbusy, hdone, hok, hfck, hexb, hrsv, herr, hfault, hcause, hhigh⟩ := statusWord_fields s
  refine ⟨hbusy ▸ busy_iff s, hdone, hok, hfck, hexb, hrsv, herr ▸ err_code_eq_idxOf s.err, hfault ▸ faultBit_iff s,
    fun hf => ?_, fun hf => ?_, fun hno => hcause.trans (fcause_of_no_fault s hno), hhigh⟩
  · rw [hcause, State.fcause, hf]
  · rw [hcause, State.fcause, hf]

/-- Settles O52: each access reaches its register or byte, which takes the bits it has of the value. -/
theorem hostWritesTakeEffect : Obligations.HostWritesTakeEffect := by
  intro s v rest hs
  refine ⟨fun hv => ⟨_, _, step_writeOrders hs rest hv, byteOrderOf_eq v, wordOrderOf_eq v⟩,
    step_writeRegister hs rest (r := .slave) (by decide) v, step_writeRegister hs rest (r := .fc) (by decide) v, ?_,
    step_writeRegister hs rest (r := .arg0) (by decide) v, step_writeRegister hs rest (r := .arg1) (by decide) v,
    step_writeRegister hs rest (r := .arg2) (by decide) v, step_writeRegister hs rest (r := .arg3) (by decide) v,
    step_writeRegister hs rest (r := .inLen) (by decide) v,
    fun i hi hi' => ⟨_, step_writeInByte hs rest hi hi' v, rfl, ?_, fun j hj => ?_⟩⟩
  · rw [← excOf_eq]
    exact step_writeRegister hs rest (r := .exc) (by decide) v
  · rw [byteAt_inBuf_store, if_pos rfl]
  · rw [byteAt_inBuf_store, if_neg hj]

/-- Settles O53: each offset reads its register, whose word is the value of its fields, and each byte itself. -/
theorem hostReadsReturnTheState : Obligations.HostReadsReturnTheState := by
  intro s rest hs
  refine ⟨fun offset v hmem => ?_, fun i hi hi' => ?_⟩
  · obtain ⟨r, hr, rfl⟩ : ∃ r, (offset, r) ∈ registerMap ∧ s.readRegister r = v := by
      simp only [BitVec.ofNat_toNat, List.mem_cons, Prod.mk.injEq, List.not_mem_nil, or_false] at hmem
      rcases hmem with ⟨rfl, rfl⟩ | ⟨rfl, rfl⟩ | ⟨rfl, rfl⟩ | ⟨rfl, rfl⟩ | ⟨rfl, rfl⟩ | ⟨rfl, rfl⟩ | ⟨rfl, rfl⟩
        | ⟨rfl, rfl⟩ | ⟨rfl, rfl⟩ | ⟨rfl, rfl⟩ | ⟨rfl, rfl⟩ | ⟨rfl, rfl⟩ | ⟨rfl, rfl⟩ | ⟨rfl, rfl⟩ | ⟨rfl, rfl⟩
        | ⟨rfl, rfl⟩ | ⟨rfl, rfl⟩
      · exact ⟨.ctrl, by decide, ctrlWord_eq s⟩
      · exact ⟨.cmd, by decide, rfl⟩
      · exact ⟨.status, by decide, rfl⟩
      · exact ⟨.slave, by decide, rfl⟩
      · exact ⟨.fc, by decide, rfl⟩
      · exact ⟨.exc, by decide, excWord_eq s.exc⟩
      · exact ⟨.arg0, by decide, rfl⟩
      · exact ⟨.arg1, by decide, rfl⟩
      · exact ⟨.arg2, by decide, rfl⟩
      · exact ⟨.arg3, by decide, rfl⟩
      · exact ⟨.result, by decide, rfl⟩
      · exact ⟨.inLen, by decide, rfl⟩
      · exact ⟨.outLen, by decide, rfl⟩
      · exact ⟨.pduLen, by decide, rfl⟩
      · exact ⟨.field, by decide, fkind_code_eq s.fkind⟩
      · exact ⟨.fa, by decide, rfl⟩
      · exact ⟨.fb, by decide, rfl⟩
    exact step_readRegister hs rest hr
  · obtain ⟨hin, hout, hpdu⟩ := locate_buffer (p := s.cfg) hi hi'
    exact ⟨step_readByte hs rest hin, step_readByte hs rest hout, step_readByte hs rest hpdu⟩

end Sys2Proof.Machine
end
